-- ==== Sys2Proof/Word.lean ====
section
/-! DEFINITION. The word types of IDN-CORE: registers are 32 bits wide (R30, R32), the MEM space is a flat array of
bytes (R60) and a widened sample is 16 bits (R63). -/

namespace Sys2Proof

/-- A register's contents and the data of a register port transaction (R31, R32). -/
abbrev Word := BitVec 32

/-- One byte of the MEM space; also one 8-bit sample (R60, R61). -/
abbrev Byte := BitVec 8

/-- One 16-bit sample of a widened raster (R63). -/
abbrev Half := BitVec 16

end Sys2Proof
end

