-- ==== Sys2Proof/Config.lean ====
section
/-! DEFINITION. The implementation parameters of rule R6 that are plain numbers, and the one free value of the model. -/

namespace Sys2Proof.Config

/-- Number of byte addresses of the MEM space: ADDR_BITS = 32 (R6, R60). -/
def memSize : Nat := 2 ^ 32

/-- ID_VALUE (R6, R33). -/
def idValue : Word := 0x49444E07#32

/-- The smallest legal CFG.LANES (R6, R36). -/
def minLanes : Nat := 1

/-- The largest legal CFG.LANES (R6, R36). -/
def maxLanes : Nat := 64

/-- QSCALE: denominator of the integer tier's weights (R6, R113). -/
def qScale : Nat := 1024

/-- ALPHA_DEN: denominator of the blend weight (R6, R161). -/
def alphaDen : Nat := 255

/-- VSHIFT: the right shift that stands for division by 255 in COMB.V (R6, R163). -/
def vShift : Nat := 8

/-- GRAY_GROUP: pixels of one GRAY.V lane group (R6, R116). -/
def grayGroup : Nat := 4

/-- FREE VALUE (R198, U5; log entry 6): the byte found at address `a` of a destination sample after the `n`-th ERR_RANGE
fault. It has no body: nothing can be proved of it. -/
opaque freeByte (n a : Nat) : Byte

end Sys2Proof.Config
end

