-- ==== Sys2Proof/Syntax.lean ====
section
/-! DEFINITION. The fourteen commands (R2, R93), the fields of a command word (R90), the register names (R32) and the
lines of a host script (R102). -/

namespace Sys2Proof

/-- The commands: one constructor per row of the opcode table (R93). A command has no operand of its own: every operand
is a register named by the command's rule (R90, R95). -/
inductive Instr where
  | grayA   -- GRAY.A, R112
  | grayI   -- GRAY.I, R114
  | grayV   -- GRAY.V, R115
  | edgeA   -- EDGE.A, R132
  | blurA   -- BLUR.A, R133
  | convI   -- CONV.I, R134
  | convV   -- CONV.V, R137
  | padV    -- PAD.V,  R150
  | combA   -- COMB.A, R161
  | combI   -- COMB.I, R162
  | combV   -- COMB.V, R163
  | pipeA   -- PIPE.A, R181
  | pipeI   -- PIPE.I, R182
  | pipeV   -- PIPE.V, R183
  deriving DecidableEq, Repr

/-- The three fields of a command word (R34, R90). -/
structure CmdFields where
  /-- bits 31:6, ZERO -/
  zero  : BitVec 26
  /-- bits 5:4, TIER (R92) -/
  tier  : BitVec 2
  /-- bits 3:0, STAGE (R91) -/
  stage : BitVec 4
  deriving DecidableEq, Repr

/-- The seventeen registers (R32). -/
inductive Reg where
  | id | cmd | status | cfg | width | height | wgtR | wgtG | wgtB
  | rgbAddr | lumAddr | edgeAddr | blurAddr | outAddr | wlumAddr | wedgeAddr | wblurAddr
  deriving DecidableEq, Repr

/-- One thing the outside world does to the block: a transaction of the register port (R31), an access of the host (or
another agent) to MEM outside commands (R45, R102), or the platform's reset (R220). The offset of a port transaction is
held as its word index, `offset / 4`, since no other offset can be expressed on the port (R31; log entry 9). -/
inductive HostOp where
  /-- `RegRead(4·idx)`; in a script `RD <REG>` -/
  | regRead  (idx : Fin 64)
  /-- `RegWrite(4·idx, v)`; in a script `WR <REG>, v`, or a mnemonic when the register is CMD -/
  | regWrite (idx : Fin 64) (v : Word)
  /-- `MEMW addr, b0 b1 …` -/
  | memWrite (addr : Nat) (bytes : List Byte)
  /-- `MEMR addr, n` -/
  | memRead  (addr n : Nat)
  /-- the platform applies reset, between port transactions (R221) -/
  | reset
  deriving DecidableEq, Repr

/-- What the host gets back: the data of a RegRead, or the bytes of a MEMR. -/
inductive Reply where
  | word  (v : Word)
  | bytes (bs : List Byte)
  deriving DecidableEq, Repr

end Sys2Proof
end

