-- ==== Sys2Proof/WellFormed.lean ====
section
/-! DEFINITION. What makes the fields of a command word legal (R94) and a host script line expressible (R60, R102). -/

namespace Sys2Proof

/-- The fields TIER and STAGE of each command (R91, R92, R93); ZERO is 0 (R90). -/
def Instr.fields : Instr → CmdFields
  | .grayA => ⟨0, 0, 1⟩
  | .grayI => ⟨0, 1, 1⟩
  | .grayV => ⟨0, 2, 1⟩
  | .edgeA => ⟨0, 0, 2⟩
  | .blurA => ⟨0, 0, 3⟩
  | .convI => ⟨0, 1, 4⟩
  | .convV => ⟨0, 2, 4⟩
  | .padV  => ⟨0, 2, 5⟩
  | .combA => ⟨0, 0, 6⟩
  | .combI => ⟨0, 1, 6⟩
  | .combV => ⟨0, 2, 6⟩
  | .pipeA => ⟨0, 0, 7⟩
  | .pipeI => ⟨0, 1, 7⟩
  | .pipeV => ⟨0, 2, 7⟩

/-- The (STAGE, TIER) pairs that R94 lists as illegal although both fields are legal: EDGE.I, EDGE.V, BLUR.I, BLUR.V,
CONV.A, PAD.A, PAD.I. -/
def CmdFields.illegalPairs : List (BitVec 4 × BitVec 2) :=
  [(2, 1), (2, 2), (3, 1), (3, 2), (4, 0), (5, 0), (5, 1)]

/-- The legality test of a command word's fields, clause by clause as R94 words it. -/
def CmdFields.wellFormed (f : CmdFields) : Bool :=
  f.zero == 0 && f.tier != 3 && f.stage != 0 && decide (f.stage.toNat < 8) &&
    !CmdFields.illegalPairs.contains (f.stage, f.tier)

/-- A command is well formed when its fields are. -/
def Instr.wellFormed (i : Instr) : Bool := i.fields.wellFormed

/-- A script line is well formed when the memory it names exists (R60: byte addresses `0 .. 2^32-1`). -/
def HostOp.wellFormed : HostOp → Bool
  | .memWrite addr bytes => decide (addr + bytes.length ≤ Config.memSize)
  | .memRead addr n      => decide (addr + n ≤ Config.memSize)
  | .regRead _           => true
  | .regWrite _ _        => true
  | .reset               => true

end Sys2Proof
end

