-- ==== Sys2Proof/Decode.lean ====
section
/-! DEFINITION. The decoder of command words, total and rejecting by name (R93, R94), then the encoder, and the
decoder's view of a row of the opcode table. -/

namespace Sys2Proof

/-- Why a word spells no command (R94). -/
inductive Illegal where
  /-- `word[31:6] ≠ 0` -/
  | reservedBits
  /-- TIER = 3 -/
  | reservedTier
  /-- STAGE is 0 or 8..15 -/
  | reservedStage
  /-- legal fields, but no row of R93 -/
  | noSuchPair
  deriving DecidableEq, Repr

/-- The fields of a word (R90). -/
def fieldsOf (w : Word) : CmdFields :=
  ⟨w.extractLsb' 6 26, w.extractLsb' 4 2, w.extractLsb' 0 4⟩

/-- The command with this stage and tier, where R93 has a row for it. -/
def ofStageTier (stage tier : Nat) : Option Instr :=
  match stage, tier with
  | 1, 0 => some .grayA
  | 1, 1 => some .grayI
  | 1, 2 => some .grayV
  | 2, 0 => some .edgeA
  | 3, 0 => some .blurA
  | 4, 1 => some .convI
  | 4, 2 => some .convV
  | 5, 2 => some .padV
  | 6, 0 => some .combA
  | 6, 1 => some .combI
  | 6, 2 => some .combV
  | 7, 0 => some .pipeA
  | 7, 1 => some .pipeI
  | 7, 2 => some .pipeV
  | _, _ => none

/-- The decoder: every 32-bit word is one of the fourteen commands or is illegal for a named reason (R93, R94). -/
def decode (w : Word) : Except Illegal Instr :=
  let f := fieldsOf w
  if f.zero ≠ 0 then .error .reservedBits
  else if f.tier = 3 then .error .reservedTier
  else if f.stage = 0 ∨ 8 ≤ f.stage.toNat then .error .reservedStage
  else
    match ofStageTier f.stage.toNat f.tier.toNat with
    | some i => .ok i
    | none   => .error .noSuchPair

/-- The word that holds these fields (R90): `ZERO ++ TIER ++ STAGE`. -/
def wordOf (f : CmdFields) : Word := f.zero ++ f.tier ++ f.stage

/-- The encoder: `word = TIER·16 + STAGE` (R93). -/
def encode (i : Instr) : Word := wordOf i.fields

/-- The 32 data bits of the CMD write for an instruction whose `nbits` table bits are `w`, the bits above them 0. -/
def fetchWord (nbits w : Nat) : Word := BitVec.ofNat 32 (w % 2 ^ nbits)

/-- The instruction the decoder reads from a row of the opcode table. A command is one 32-bit word in one register
write (R96), so there is no byte order to settle. -/
def decodeTableWord (nbits w : Nat) : Option Instr :=
  match decode (fetchWord nbits w) with
  | .ok i    => some i
  | .error _ => none

end Sys2Proof
end

