-- ==== Sys2Proof/Machine/State.lean ====
section
/-! DEFINITION. The state of the machine (R30 to R44), the memory and platform behind its port (R60, R78), the host's
pending script, and the state after reset. -/

namespace Sys2Proof.Machine

/-- STATUS, held as its implemented fields (R35); the reserved bits 3:2 and 31:12 read 0 and are not stored. -/
structure Status where
  /-- bit 0 -/
  done   : Bool
  /-- bit 1 -/
  err    : Bool
  /-- bits 7:4 -/
  ecode  : BitVec 4
  /-- bits 11:8 -/
  estage : BitVec 4
  deriving DecidableEq, Repr

/-- The registers of R32 that store something. ID is a constant (R33) and is made by the register read alone. CFG is
held as its implemented field LANES (R36). -/
structure Regs where
  /-- 0x04 CMD (R34) -/
  cmd       : Word
  /-- 0x08 STATUS (R35) -/
  status    : Status
  /-- 0x0C CFG, bits 6:0 (R36) -/
  lanes     : BitVec 7
  /-- 0x10 WIDTH (R37) -/
  width     : Word
  /-- 0x14 HEIGHT (R37) -/
  height    : Word
  /-- 0x18 WGT_R (R38) -/
  wgtR      : Word
  /-- 0x1C WGT_G (R38) -/
  wgtG      : Word
  /-- 0x20 WGT_B (R38) -/
  wgtB      : Word
  /-- 0x24 RGB_ADDR (R39) -/
  rgbAddr   : Word
  /-- 0x28 LUM_ADDR (R39) -/
  lumAddr   : Word
  /-- 0x2C EDGE_ADDR (R39) -/
  edgeAddr  : Word
  /-- 0x30 BLUR_ADDR (R39) -/
  blurAddr  : Word
  /-- 0x34 OUT_ADDR (R39) -/
  outAddr   : Word
  /-- 0x38 WLUM_ADDR (R39) -/
  wlumAddr  : Word
  /-- 0x3C WEDGE_ADDR (R39) -/
  wedgeAddr : Word
  /-- 0x40 WBLUR_ADDR (R39) -/
  wblurAddr : Word
  deriving DecidableEq, Repr

/-- MEM (R60): every byte reads as `fill` but those listed. The initial contents are a parameter of the model (R44, U17;
log entry 4), and `fill` is that parameter. -/
structure Memory where
  fill  : Byte
  cells : List Host.Cell
  deriving DecidableEq, Repr

/-- Addresses `lo ≤ a < hi` that the memory port cannot reach (R78). -/
structure Hole where
  lo : Nat
  hi : Nat
  deriving DecidableEq, Repr

/-- The whole machine. `regs` is the block (R30); `mem` and `holes` are the platform behind the memory port (R60, R78);
`host` and `replies` are the two directions of the host's traffic (R31, R102); `freeCount` numbers the ERR_RANGE faults
so far and serves the free values only (R198). -/
structure State where
  regs      : Regs
  mem       : Memory
  holes     : List Hole
  host      : List HostOp
  replies   : List Reply
  freeCount : Nat
  deriving DecidableEq, Repr

/-- Why the machine stops. No command stops: every fault of the hardware is entered in STATUS (R201). -/
inductive Fault where
  /-- Raised by a host step whose MEMW or MEMR names a byte outside `0 .. 2^32-1` (R60; log entry
  10). Safe: no such byte exists. -/
  | hostAccessOutsideMem
  deriving DecidableEq, Repr

/-- Why an instruction has no meaning. -/
inductive Refusal where
  /-- Raised by an arm of `exec` for a command that is not modelled. Safe; no arm raises it. -/
  | notModelled (mnemonic : String)
  deriving DecidableEq, Repr

/-- What a command or a step answers. -/
abbrev Outcome := Host.Outcome State Fault Refusal

/-- STATUS after reset: 0x00000000 (R44). -/
def Status.reset : Status := ⟨false, false, 0, 0⟩

/-- Every register at its reset value (R44, R220). -/
def Regs.reset : Regs where
  cmd := 0
  status := Status.reset
  lanes := 8
  width := 0
  height := 0
  wgtR := 0x3E59B3D0#32
  wgtG := 0x3F371759#32
  wgtB := 0x3D93DD98#32
  rgbAddr := 0
  lumAddr := 0
  edgeAddr := 0
  blurAddr := 0
  outAddr := 0
  wlumAddr := 0
  wedgeAddr := 0
  wblurAddr := 0

/-- The machine right after reset (R44, R220): the registers at their reset values, nothing listed in memory (its fill
is log entry 4), every address reachable (the default of R78; log entry 5), no host activity pending (log
entries 1, 17). -/
def State.reset : State where
  regs := Regs.reset
  mem := ⟨0, []⟩
  holes := []
  host := []
  replies := []
  freeCount := 0

end Sys2Proof.Machine
end

