-- ==== Sys2Proof/Machine/Flags.lean ====
section
/-! DEFINITION. STATUS: the fault codes (R190), reading it, the write-one-to-clear write (R35), and the changes a command
makes to it (R100, R201). The block has no other flag (R42). -/

namespace Sys2Proof.Machine

/-- The eight faults of the hardware (R190), recorded in STATUS; none of them stops the machine. -/
inductive ErrCode where
  | cmd | cfg | dim | weight | addr | overlap | bus | range
  deriving DecidableEq, Repr

/-- ECODE (R190). -/
def ErrCode.code : ErrCode → BitVec 4
  | .cmd     => 1
  | .cfg     => 2
  | .dim     => 3
  | .weight  => 4
  | .addr    => 5
  | .overlap => 6
  | .bus     => 7
  | .range   => 8

/-- The 32 bits a read of STATUS returns (R35): DONE in bit 0, ERR in bit 1, ECODE in 7:4, ESTAGE in 11:8. -/
def Status.word (t : Status) : Word :=
  (0 : BitVec 20) ++ t.estage ++ t.ecode ++ (0 : BitVec 2) ++ BitVec.ofBool t.err ++ BitVec.ofBool t.done

/-- A write `v` to STATUS (R35): bit 1 clears ERR, ECODE and ESTAGE, bit 0 clears DONE, nothing else has an effect. -/
def Status.writeW1C (t : Status) (v : Word) : Status where
  done   := if v.getLsbD 0 then false else t.done
  err    := if v.getLsbD 1 then false else t.err
  ecode  := if v.getLsbD 1 then 0 else t.ecode
  estage := if v.getLsbD 1 then 0 else t.estage

/-- Step 2 of R100: an accepted CMD write clears DONE. -/
def Status.started (t : Status) : Status := { t with done := false }

/-- Step 6 of R100: a command that ends without a fault sets DONE. -/
def Status.finished (t : Status) : Status := { t with done := true }

/-- `raise F(s)` on STATUS (R201): ERR, ECODE and ESTAGE are set and DONE stays as step 2 of R100 left it. -/
def Status.raised (t : Status) (f : ErrCode) (stage : BitVec 4) : Status :=
  { t with err := true, ecode := f.code, estage := stage }

end Sys2Proof.Machine
end

