-- ==== Sys2Proof/Machine/Numeric.lean ====
section
/-! DEFINITION. The numeric primitives of R9 to R16, over exact rationals as the spec defines them. -/

namespace Sys2Proof.Machine

/-- `2^k` for an integer exponent, exactly. -/
def pow2 : Int → ℚ
  | .ofNat n   => ((2 ^ n : Nat) : ℚ)
  | .negSucc n => mkRat 1 (2 ^ (n + 1))

/-- `floor(log2(a))` for `a > 0` (R14): the bit lengths of numerator and denominator give it up to one. -/
def floorLog2 (a : ℚ) : Int :=
  let e : Int := (a.num.natAbs.log2 : Int) - (a.den.log2 : Int)
  if pow2 e ≤ a then e else e - 1

/-- `rhaz(q)` for `q ≥ 0`: round to nearest, a tie away from zero (R10). -/
def rhaz (q : ℚ) : Int := (q + 1 / 2).floor

/-- `rne(q)`: round to nearest, a tie to the even integer (R11). -/
def rne (q : ℚ) : Int :=
  let f := q.floor
  let d := q - f
  if 1 / 2 < d ∨ (d = 1 / 2 ∧ f % 2 = 1) then f + 1 else f

/-- `sat8(i)` (R12). -/
def sat8 (i : Int) : Int := if i < 0 then 0 else if 255 < i then 255 else i

/-- A binary32 value (R13). The sign of a zero and the payload of a NaN are not kept: no rule can tell them (R14, U15). -/
inductive F32 where
  | fin (q : ℚ)
  | inf (neg : Bool)
  | nan
  deriving DecidableEq, Repr

/-- `val` of a binary32 pattern, with its infinities and NaNs (R13). -/
def F32.decode (b : Word) : F32 :=
  let neg := b.getLsbD 31
  let e : Nat := (b.extractLsb' 23 8).toNat
  let m : Nat := (b.extractLsb' 0 23).toNat
  if e = 255 then
    if m = 0 then .inf neg else .nan
  else
    let a : ℚ := if e = 0 then (m : ℚ) * pow2 (-149) else ((2 ^ 23 + m : Nat) : ℚ) * pow2 ((e : Int) - 150)
    .fin (if neg then -a else a)

/-- The spacing `u` of binary32 values around `a > 0` (R14): `2^(E-23)` with `E = max(floor(log2 a), -126)`. -/
def ulp (a : ℚ) : ℚ := pow2 (max (floorLog2 a) (-126) - 23)

/-- `fl32(q)`: the binary32 value nearest `q`, ties to even, with gradual underflow and overflow to infinity (R14). -/
def fl32 (q : ℚ) : F32 :=
  if q = 0 then .fin 0
  else
    let a := |q|
    let r : ℚ := (rne (a / ulp a) : ℚ) * ulp a
    if pow2 128 ≤ r then .inf (decide (q < 0)) else .fin (if q < 0 then -r else r)

/-- A binary32 operation (R15): one rounding of the exact result of finite operands; an infinite operand gives an
infinity. A NaN operand gives NaN: no rule reaches that, nor an infinite second operand (R15; log entry 7). -/
def F32.lift (f : ℚ → ℚ → F32) : F32 → F32 → F32
  | .fin a, .fin b => f a b
  | .nan,   _      => .nan
  | _,      .nan   => .nan
  | .inf s, _      => .inf s
  | .fin _, .inf s => .inf s

/-- `fadd` (R15). -/
def fadd : F32 → F32 → F32 := F32.lift fun a b => fl32 (a + b)

/-- `fsub` (R15). -/
def fsub : F32 → F32 → F32 := F32.lift fun a b => fl32 (a - b)

/-- `fmul` (R15). -/
def fmul : F32 → F32 → F32 := F32.lift fun a b => fl32 (a * b)

/-- `fdiv` (R15); a zero divisor, which no rule has, gives NaN (log entry 7). -/
def fdiv : F32 → F32 → F32 := F32.lift fun a b => if b = 0 then .nan else fl32 (a / b)

/-- An integer sample or constant as binary32, exactly (R16). -/
def F32.ofNat (n : Nat) : F32 := .fin (n : ℚ)

/-- The rational a finite value stands for; 0 for the others, which no conversion to an integer meets (log entry 7). -/
def F32.val : F32 → ℚ
  | .fin q => q
  | .inf _ => 0
  | .nan   => 0

/-- A finite value. -/
def F32.isFinite : F32 → Bool
  | .fin _ => true
  | .inf _ => false
  | .nan   => false

/-- `bits(v)`: the binary32 pattern of a value (R103, R13), the sign bit of a zero 0, a NaN as 0x7FC00000 (log entry 7). -/
def F32.bits : F32 → Word
  | .nan   => 0x7FC00000#32
  | .inf s => if s then 0xFF800000#32 else 0x7F800000#32
  | .fin q =>
    if q = 0 then 0
    else
      let a := |q|
      let k : Nat := (a / ulp a).floor.toNat
      let e : Nat := if k < 2 ^ 23 then 0 else (max (floorLog2 a) (-126) + 127).toNat
      BitVec.ofNat 32 ((if q < 0 then 2 ^ 31 else 0) + e * 2 ^ 23 + k % 2 ^ 23)

end Sys2Proof.Machine
end

