-- ==== Sys2Proof/Machine/Operands.lean ====
section
/-! DEFINITION. The operands of the commands (R95): raster size, LANES, and the eight buffers with their base register,
length and range (R64) and the three addressing forms (R61, R62, R63, R80). Addresses are exact naturals: no address
wraps (R60, R195). -/

namespace Sys2Proof.Machine

/-- The eight buffers (R64). -/
inductive Buffer where
  | rgb | lum | edge | blur | out | wlum | wedge | wblur
  deriving DecidableEq, Repr

/-- `W` (R7, R37). -/
def Regs.w (r : Regs) : Nat := r.width.toNat

/-- `H` (R7, R37). -/
def Regs.h (r : Regs) : Nat := r.height.toNat

/-- CFG.LANES as an unsigned integer (R36, R95). -/
def Regs.laneCount (r : Regs) : Nat := r.lanes.toNat

/-- The base register of a buffer (R64). -/
def Regs.base (r : Regs) : Buffer → Nat
  | .rgb   => r.rgbAddr.toNat
  | .lum   => r.lumAddr.toNat
  | .edge  => r.edgeAddr.toNat
  | .blur  => r.blurAddr.toNat
  | .out   => r.outAddr.toNat
  | .wlum  => r.wlumAddr.toNat
  | .wedge => r.wedgeAddr.toNat
  | .wblur => r.wblurAddr.toNat

/-- Bytes of a plain raster (R61). -/
def Regs.plainLen (r : Regs) : Nat := r.w * r.h

/-- Bytes of a widened raster (R63). -/
def Regs.wideLen (r : Regs) : Nat := 2 * (r.w + 2) * (r.h + 2)

/-- `len(B)` (R64). -/
def Regs.len (r : Regs) : Buffer → Nat
  | .rgb   => 3 * r.plainLen
  | .lum   => r.plainLen
  | .edge  => r.plainLen
  | .blur  => r.plainLen
  | .out   => r.plainLen
  | .wlum  => r.wideLen
  | .wedge => r.wideLen
  | .wblur => r.wideLen

/-- The first address past `Range(B)` (R64). -/
def Regs.stop (r : Regs) (b : Buffer) : Nat := r.base b + r.len b

/-- `a ∈ Range(B)` (R64). -/
abbrev Regs.inRange (r : Regs) (b : Buffer) (a : Nat) : Prop := r.base b ≤ a ∧ a < r.stop b

/-- The linear number of a pixel, `i = y·W + x` (R61, R115). -/
def Regs.index (r : Regs) (x y : Nat) : Nat := y * r.w + x

/-- `paddr(B, x, y)` (R61). -/
def Regs.paddr (r : Regs) (b : Buffer) (x y : Nat) : Nat := r.base b + r.index x y

/-- `caddr(x, y, c)` (R62). -/
def Regs.caddr (r : Regs) (x y c : Nat) : Nat := r.base .rgb + 3 * r.index x y + c

/-- `waddr(B, X, Y)` (R63). -/
def Regs.waddr (r : Regs) (b : Buffer) (X Y : Nat) : Nat := r.base b + 2 * (X + Y * (r.w + 2))

/-- `a` is a byte of an interior sample of a widened raster (R79). -/
def Regs.interiorByte (r : Regs) (b : Buffer) (a : Nat) : Prop :=
  ∃ x y i, x < r.w ∧ y < r.h ∧ i < 2 ∧ a = r.waddr b (x + 1) (y + 1) + i

/-- The grid points of `w` columns and `h` rows, row by row. -/
def grid (w h : Nat) : List (Nat × Nat) :=
  (List.range h).flatMap fun y => (List.range w).map fun x => (x, y)

/-- `for all (x, y)` (R8). The order cannot be observed (R70). -/
def Regs.pixels (r : Regs) : List (Nat × Nat) := grid r.w r.h

/-- All samples `(X, Y)` of a widened raster, border ring included (R63). -/
def Regs.widePixels (r : Regs) : List (Nat × Nat) := grid (r.w + 2) (r.h + 2)

/-- The columns of a row that whole lane groups cover: `LANES·(W div LANES)` (R152, R163). -/
def Regs.laneBody (r : Regs) : Nat := r.laneCount * (r.w / r.laneCount)

end Sys2Proof.Machine
end

