-- ==== Sys2Proof/Machine/Ops.lean ====
section
/-! DEFINITION. The shared operations: memory, registers, fault entry and acknowledgement, the static checks, and the
running of a command's stages (R100). -/

namespace Sys2Proof.Machine

/-! ### Memory (R60, R65) -/

/-- The listed byte at an address, if any. -/
def lookupCell : List Host.Cell → Nat → Option Byte
  | [], _ => none
  | (k, v) :: rest, a => if k = a then some v else lookupCell rest a

/-- List a byte, keeping addresses rising. -/
def insertCell : List Host.Cell → Nat → Byte → List Host.Cell
  | [], a, b => [(a, b)]
  | (k, v) :: rest, a, b =>
    if a < k then (a, b) :: (k, v) :: rest
    else if a = k then (a, b) :: rest
    else (k, v) :: insertCell rest a b

/-- Unlist an address. -/
def removeCell : List Host.Cell → Nat → List Host.Cell
  | [], _ => []
  | (k, v) :: rest, a => if k = a then removeCell rest a else (k, v) :: removeCell rest a

/-- `MemRead(a, 1)` (R8). -/
def Memory.read (m : Memory) (a : Nat) : Byte := (lookupCell m.cells a).getD m.fill

/-- `MemWrite(a, 1, b)` (R8). A byte equal to the fill is not listed, so that equal memories are equal data. -/
def Memory.write (m : Memory) (a : Nat) (b : Byte) : Memory :=
  { m with cells := if b = m.fill then removeCell m.cells a else insertCell m.cells a b }

/-- `MemRead(a, 2)`, little-endian (R65). -/
def Memory.read16 (m : Memory) (a : Nat) : Nat := (m.read a).toNat + 256 * (m.read (a + 1)).toNat

/-- Many one-byte writes, the first in the list first. -/
def Memory.writeAll (m : Memory) (ws : List Host.Cell) : Memory :=
  ws.foldl (fun m c => m.write c.1 c.2) m

/-- The `n` bytes from `a` on (MEMR, R102). -/
def Memory.readBytes (m : Memory) (a n : Nat) : List Byte := (List.range n).map fun k => m.read (a + k)

/-- The host's bytes as cells from `a` on (MEMW, R102). -/
def cellsAt (a : Nat) : List Byte → List Host.Cell
  | [] => []
  | b :: bs => (a, b) :: cellsAt (a + 1) bs

/-- Every address of `cells` is above `lo` and they rise. -/
def risingFrom : Nat → List Host.Cell → Bool
  | _, [] => true
  | lo, (k, _) :: rest => decide (lo ≤ k) && risingFrom (k + 1) rest

/-- The canonical form of a memory: listed addresses strictly rising, none holding the fill. -/
def Memory.wf (m : Memory) : Bool := risingFrom 0 m.cells && m.cells.all fun c => c.2 != m.fill

/-- Every listed address is an address of MEM (R60). -/
def Memory.inMem (m : Memory) : Bool := m.cells.all fun c => decide (c.1 < Config.memSize)

/-! ### The platform (R78) -/

/-- `Accessible(a)` (R78): no hole holds the address. -/
def State.accessible (s : State) (a : Nat) : Bool := s.holes.all fun h => !(decide (h.lo ≤ a) && decide (a < h.hi))

/-- No address of `lo ≤ a < hi` lies in the hole. -/
def Hole.misses (h : Hole) (lo hi : Nat) : Bool := decide (min h.hi hi ≤ max h.lo lo)

/-! ### The register port (R31 to R39) -/

/-- The offset of a register, divided by 4 (R32). -/
def regIndex : Reg → Fin 64
  | .id        => 0
  | .cmd       => 1
  | .status    => 2
  | .cfg       => 3
  | .width     => 4
  | .height    => 5
  | .wgtR      => 6
  | .wgtG      => 7
  | .wgtB      => 8
  | .rgbAddr   => 9
  | .lumAddr   => 10
  | .edgeAddr  => 11
  | .blurAddr  => 12
  | .outAddr   => 13
  | .wlumAddr  => 14
  | .wedgeAddr => 15
  | .wblurAddr => 16

/-- The register at an offset (R32); none at the reserved offsets 0x44..0xFC. -/
def regAt (i : Fin 64) : Option Reg :=
  match i.val with
  | 0  => some .id
  | 1  => some .cmd
  | 2  => some .status
  | 3  => some .cfg
  | 4  => some .width
  | 5  => some .height
  | 6  => some .wgtR
  | 7  => some .wgtG
  | 8  => some .wgtB
  | 9  => some .rgbAddr
  | 10 => some .lumAddr
  | 11 => some .edgeAddr
  | 12 => some .blurAddr
  | 13 => some .outAddr
  | 14 => some .wlumAddr
  | 15 => some .wedgeAddr
  | 16 => some .wblurAddr
  | _  => none

/-- What a read of a register returns (R32 to R39). -/
def Regs.read (r : Regs) : Reg → Word
  | .id        => Config.idValue
  | .cmd       => r.cmd
  | .status    => r.status.word
  | .cfg       => r.lanes.setWidth 32
  | .width     => r.width
  | .height    => r.height
  | .wgtR      => r.wgtR
  | .wgtG      => r.wgtG
  | .wgtB      => r.wgtB
  | .rgbAddr   => r.rgbAddr
  | .lumAddr   => r.lumAddr
  | .edgeAddr  => r.edgeAddr
  | .blurAddr  => r.blurAddr
  | .outAddr   => r.outAddr
  | .wlumAddr  => r.wlumAddr
  | .wedgeAddr => r.wedgeAddr
  | .wblurAddr => r.wblurAddr

/-- What a write stores in a register: ID ignores it (R33), STATUS is write-one-to-clear (R35), CFG keeps bits 6:0 (R36),
every other register takes all 32 bits (R34, R37 to R39). The command that a write to CMD starts is not here (R100). -/
def Regs.write (r : Regs) (n : Reg) (v : Word) : Regs :=
  match n with
  | .id        => r
  | .cmd       => { r with cmd := v }
  | .status    => { r with status := r.status.writeW1C v }
  | .cfg       => { r with lanes := v.extractLsb' 0 7 }
  | .width     => { r with width := v }
  | .height    => { r with height := v }
  | .wgtR      => { r with wgtR := v }
  | .wgtG      => { r with wgtG := v }
  | .wgtB      => { r with wgtB := v }
  | .rgbAddr   => { r with rgbAddr := v }
  | .lumAddr   => { r with lumAddr := v }
  | .edgeAddr  => { r with edgeAddr := v }
  | .blurAddr  => { r with blurAddr := v }
  | .outAddr   => { r with outAddr := v }
  | .wlumAddr  => { r with wlumAddr := v }
  | .wedgeAddr => { r with wedgeAddr := v }
  | .wblurAddr => { r with wblurAddr := v }

/-! ### State updates -/

/-- The state with other registers. -/
def State.withRegs (s : State) (r : Regs) : State := { s with regs := r }

/-- The state with another memory. -/
def State.withMem (s : State) (m : Memory) : State := { s with mem := m }

/-- The state with another STATUS. -/
def State.withStatus (s : State) (t : Status) : State := s.withRegs { s.regs with status := t }

/-- The state with another pending script. -/
def State.withHost (s : State) (ops : List HostOp) : State := { s with host := ops }

/-- The state after the host has received a reply. -/
def State.reply (s : State) (p : Reply) : State := { s with replies := s.replies ++ [p] }

/-! ### Faults of the hardware: entry and acknowledgement (R201, R202) -/

/-- `raise F(s)` (R201): STATUS records the fault and nothing else changes; nothing is saved and control goes nowhere. -/
def raise (f : ErrCode) (stage : BitVec 4) (s : State) : State := s.withStatus (s.regs.status.raised f stage)

/-- The return from a fault (R202): ERR, ECODE and ESTAGE become 0; nothing is restored. It is the effect of a write of
`0x00000002` to STATUS. -/
def acknowledge (s : State) : State := s.withStatus (s.regs.status.writeW1C 2)

/-! ### Stages (R70, R79) -/

/-- What a stage is made of: its STAGE code (R91), the checks of R200 that only some stages have, its row of R79, its data
check (R198), and its effect on memory as the list of the bytes it writes, computed from the memory at its start (R70). -/
structure Stage where
  code      : BitVec 4
  usesLanes : Bool
  weightsOk : Regs → Bool
  sources   : List Buffer
  dests     : List Buffer
  dataOk    : Regs → Memory → Bool
  writes    : Regs → Memory → List Host.Cell

/-- The writes of a stage to a plain raster (R61): each pixel's sample, one byte. Samples are 0..255 (R117, R140, R166;
log entry 8). -/
def plainWrites (r : Regs) (b : Buffer) (sample : Nat → Nat → Int) : List Host.Cell :=
  r.pixels.map fun p => (r.paddr b p.1 p.2, BitVec.ofInt 8 (sample p.1 p.2))

/-- The two bytes of `MemWrite(a, 2, v)`, little-endian (R65). -/
def cells16 (a : Nat) (v : Half) : List Host.Cell := [(a, v.extractLsb' 0 8), (a + 1, v.extractLsb' 8 8)]

/-- The writes of a stage to the interior of a widened raster (R63, R79): each pixel's sample, two bytes. -/
def wideWrites (r : Regs) (b : Buffer) (sample : Nat → Nat → Int) : List Host.Cell :=
  r.pixels.flatMap fun p => cells16 (r.waddr b (p.1 + 1) (p.2 + 1)) (BitVec.ofInt 16 (sample p.1 p.2))

/-- `MemRead(paddr(B, x, y), 1)` (R61). -/
def plainSample (r : Regs) (m : Memory) (b : Buffer) (x y : Nat) : Nat := (m.read (r.paddr b x y)).toNat

/-- `MemRead(waddr(B, X, Y), 2)` (R63). -/
def wideSample (r : Regs) (m : Memory) (b : Buffer) (X Y : Nat) : Nat := m.read16 (r.waddr b X Y)

/-! ### The static checks (R192 to R197, R200) -/

/-- ERR_CFG's condition does not hold: LANES is in 1..64 (R192). -/
def Regs.lanesOk (r : Regs) : Bool := decide (Config.minLanes ≤ r.laneCount) && decide (r.laneCount ≤ Config.maxLanes)

/-- ERR_DIM's condition does not hold (R193). -/
def Regs.dimOk (r : Regs) : Bool := r.w != 0 && r.h != 0

/-- The buffers of a stage's row, sources and destinations (R195). -/
def Stage.buffers (st : Stage) : List Buffer := st.sources ++ st.dests

/-- ERR_ADDR's condition does not hold: no range passes the top of MEM (R195). DESIGN CHOICE, unsafe (log entry 19): the
rule's formula is followed where its parenthesis differs, a plain buffer of 2^32 bytes at base 0. -/
def Stage.addrOk (st : Stage) (r : Regs) : Bool := st.buffers.all fun b => decide (r.stop b ≤ Config.memSize)

/-- The ranges of two buffers share no address (R196). -/
def Regs.apart (r : Regs) (b c : Buffer) : Bool :=
  decide (min (r.stop b) (r.stop c) ≤ max (r.base b) (r.base c))

/-- ERR_OVERLAP's condition does not hold: no destination meets a source or another destination (R196). -/
def Stage.overlapOk (st : Stage) (r : Regs) : Bool :=
  st.dests.all fun d => st.buffers.all fun x => decide (x = d) || r.apart d x

/-- ERR_BUS's condition does not hold: every byte of every range is accessible (R197). -/
def Stage.busOk (st : Stage) (r : Regs) (holes : List Hole) : Bool :=
  st.buffers.all fun b => holes.all fun h => h.misses (r.base b) (r.stop b)

/-- The first static fault of a stage, in the priority order of R200. -/
def Stage.staticFault (st : Stage) (s : State) : Option ErrCode :=
  if st.usesLanes && !s.regs.lanesOk then some .cfg
  else if !s.regs.dimOk then some .dim
  else if !st.weightsOk s.regs then some .weight
  else if !st.addrOk s.regs then some .addr
  else if !st.overlapOk s.regs then some .overlap
  else if !st.busOk s.regs s.holes then some .bus
  else none

/-! ### Running a command (R100) -/

/-- A stage whose checks pass, performed (R70): its destination samples take their new values, nothing else changes. -/
def Stage.perform (st : Stage) (s : State) : State := s.withMem (s.mem.writeAll (st.writes s.regs s.mem))

/-- What ERR_RANGE leaves (R198): the bytes the stage would have assigned hold free values, every other byte is unchanged.
The counter advances, so that no two faults share their free values (log entry 6). -/
def Stage.spoil (st : Stage) (s : State) : State :=
  { s with
    mem := s.mem.writeAll ((st.writes s.regs s.mem).map fun c => (c.1, Config.freeByte s.freeCount c.1))
    freeCount := s.freeCount + 1 }

/-- Steps 5 and 6 of R100: each stage checks itself and runs; the first fault ends the command; else DONE is set. -/
def runStages : List Stage → State → State
  | [], s => s.withStatus s.regs.status.finished
  | st :: rest, s =>
    match st.staticFault s with
    | some f => raise f st.code s
    | none =>
      if st.dataOk s.regs s.mem then runStages rest (st.perform s)
      else raise .range st.code (st.spoil s)

/-- Step 2 of R100: CMD takes the word and DONE is cleared. -/
def accept (c : Word) (s : State) : State :=
  s.withRegs { s.regs with cmd := c, status := s.regs.status.started }

/-- Steps 1 to 6 of R100 for a legal word: ignored while ERR = 1 (R34), else accepted and run. -/
def issue (i : Instr) (stages : List Stage) (s : State) : Outcome :=
  if s.regs.status.err then .next s else .next (runStages stages (accept (encode i) s))

/-- Steps 1 to 3 of R100 for an illegal word (R94, R191): ignored while ERR = 1, else ERR_CMD with ESTAGE 0. -/
def issueIllegal (c : Word) (s : State) : Outcome :=
  if s.regs.status.err then .next s else .next (raise .cmd 0 (accept c s))

end Sys2Proof.Machine
end

