-- ==== Sys2Proof/Machine/BorderPadder.lean ====
section
/-! DEFINITION. The border-padder: PAD.V (R150 to R153). -/

namespace Sys2Proof.Machine

/-- The PAD.V stage (R150): the interior of WLUM takes the samples of LUM, zero-extended; the border ring is not written
(R151), and the lane groups do not show (R152). -/
def stagePadV : Stage where
  code      := 5
  usesLanes := true
  weightsOk := fun _ => true
  sources   := [.lum]
  dests     := [.wlum]
  dataOk    := fun _ _ => true
  writes    := fun r m => wideWrites r .wlum fun x y => (plainSample r m .lum x y : Int)

/-- PAD.V (R150). -/
def execPadV (s : State) : Outcome := issue .padV [stagePadV] s

end Sys2Proof.Machine
end

