-- ==== Sys2Proof/Machine/Combiner.lean ====
section
/-! DEFINITION. The edge-weighted blender: COMB.A, COMB.I, COMB.V (R160 to R167). -/

namespace Sys2Proof.Machine

/-- `num(e, o, b) = e·o + (255 - e)·b` (R160). -/
def blendNum (e o b : Nat) : Int := (e : Int) * o + (255 - (e : Int)) * b

/-- `v` of COMB.A (R161): divide, subtract from 1, two products, one sum, one rounding each. -/
def blendValue (e o b : Nat) : F32 :=
  let alpha := fdiv (F32.ofNat e) (F32.ofNat Config.alphaDen)
  let beta := fsub (F32.ofNat 1) alpha
  fadd (fmul alpha (F32.ofNat o)) (fmul beta (F32.ofNat b))

/-- `Z` of COMB.A (R161). -/
def blendRound (e o b : Nat) : Int := rhaz (blendValue e o b).val

/-- `Z` of COMB.I and of the remainder of COMB.V (R162, R163). -/
def blendTrunc (e o b : Nat) : Int := blendNum e o b / Config.alphaDen

/-- `Z` of a COMB.V lane group (R163). -/
def blendLane (e o b : Nat) : Int := sat8 (blendNum e o b >>> Config.vShift)

/-- COMB over the plain rasters (R79): LUM, EDGE, BLUR to OUT. -/
def combPlainStage (z : Nat → Nat → Nat → Int) : Stage where
  code      := 6
  usesLanes := false
  weightsOk := fun _ => true
  sources   := [.lum, .edge, .blur]
  dests     := [.out]
  dataOk    := fun _ _ => true
  writes    := fun r m => plainWrites r .out fun x y =>
    z (plainSample r m .edge x y) (plainSample r m .lum x y) (plainSample r m .blur x y)

/-- The COMB.A stage (R161). -/
def stageCombA : Stage := combPlainStage blendRound

/-- The COMB.I stage (R162). -/
def stageCombI : Stage := combPlainStage blendTrunc

/-- Every interior sample of the three widened sources is at most 255 (R198). -/
def combWideOk (r : Regs) (m : Memory) : Bool :=
  r.pixels.all fun p =>
    decide (wideSample r m .wlum (p.1 + 1) (p.2 + 1) ≤ 255) &&
    decide (wideSample r m .wedge (p.1 + 1) (p.2 + 1) ≤ 255) &&
    decide (wideSample r m .wblur (p.1 + 1) (p.2 + 1) ≤ 255)

/-- `Z` of COMB.V at column `x` (R163): the lane formula in the row's lane-group body, the integer formula after it. -/
def Regs.blendV (r : Regs) (x e o b : Nat) : Int := if x < r.laneBody then blendLane e o b else blendTrunc e o b

/-- The COMB.V stage (R163): the interiors of the three widened rasters to OUT. -/
def stageCombV : Stage where
  code      := 6
  usesLanes := true
  weightsOk := fun _ => true
  sources   := [.wlum, .wedge, .wblur]
  dests     := [.out]
  dataOk    := combWideOk
  writes    := fun r m => plainWrites r .out fun x y =>
    r.blendV x (wideSample r m .wedge (x + 1) (y + 1)) (wideSample r m .wlum (x + 1) (y + 1))
      (wideSample r m .wblur (x + 1) (y + 1))

/-- COMB.A (R161). -/
def execCombA (s : State) : Outcome := issue .combA [stageCombA] s

/-- COMB.I (R162). -/
def execCombI (s : State) : Outcome := issue .combI [stageCombI] s

/-- COMB.V (R163). -/
def execCombV (s : State) : Outcome := issue .combV [stageCombV] s

end Sys2Proof.Machine
end

