-- ==== Sys2Proof/Machine/Convolver.lean ====
section
/-! DEFINITION. The 3×3 FIR-filter engines: EDGE.A, BLUR.A, CONV.I, CONV.V (R130 to R141). -/

namespace Sys2Proof.Machine

/-- K_BLUR (R130). -/
def kBlur : List Int :=
  [1, 2, 1,
   2, 4, 2,
   1, 2, 1]

/-- K_EDGE (R130). -/
def kEdge : List Int :=
  [0,  1, 0,
   1, -4, 1,
   0,  1, 0]

/-- The offsets `(dx, dy)` of the nine taps in the order of the kernel's index `(dy+1)·3 + (dx+1)` (R130). -/
def tapOffsets : List (Int × Int) :=
  [(-1, -1), (0, -1), (1, -1),
   (-1,  0), (0,  0), (1,  0),
   (-1,  1), (0,  1), (1,  1)]

/-- The sum of a kernel's weights times the taps' samples. -/
def tapSum (K : List Int) (sample : Int → Int → Int) : Int :=
  ((tapOffsets.zip K).map fun t => sample t.1.1 t.1.2 * t.2).sum

/-- `accP(K, x, y)` (R131): a tap outside the raster is absent. -/
def accP (r : Regs) (m : Memory) (K : List Int) (x y : Nat) : Int :=
  tapSum K fun dx dy =>
    let tx : Int := x + dx
    let ty : Int := y + dy
    if 0 ≤ tx ∧ tx < r.w ∧ 0 ≤ ty ∧ ty < r.h then (plainSample r m .lum tx.toNat ty.toNat : Int) else 0

/-- `accW(K, x, y)` (R136): all nine taps of the widened raster are read. -/
def accW (r : Regs) (m : Memory) (K : List Int) (x y : Nat) : Int :=
  tapSum K fun dx dy =>
    (wideSample r m .wlum ((x : Int) + 1 + dx).toNat ((y : Int) + 1 + dy).toNat : Int)

/-- `E = rhaz(abs(a) / 4)` (R132). -/
def edgeRound (a : Int) : Int := rhaz ((a.natAbs : ℚ) / 4)

/-- `B = rhaz(a / 16)` (R133). -/
def blurRound (a : Int) : Int := rhaz ((a : ℚ) / 16)

/-- `E = abs(ae) div 4`, which is `abs(ae) >> 2` (R134, R137). -/
def edgeTrunc (a : Int) : Int := ((a.natAbs / 4 : Nat) : Int)

/-- `B = ab div 16`, which is `ab >> 4` (R134, R137). -/
def blurTrunc (a : Int) : Int := a / 16

/-- The EDGE.A stage (R132). -/
def stageEdgeA : Stage where
  code      := 2
  usesLanes := false
  weightsOk := fun _ => true
  sources   := [.lum]
  dests     := [.edge]
  dataOk    := fun _ _ => true
  writes    := fun r m => plainWrites r .edge fun x y => edgeRound (accP r m kEdge x y)

/-- The BLUR.A stage (R133). -/
def stageBlurA : Stage where
  code      := 3
  usesLanes := false
  weightsOk := fun _ => true
  sources   := [.lum]
  dests     := [.blur]
  dataOk    := fun _ _ => true
  writes    := fun r m => plainWrites r .blur fun x y => blurRound (accP r m kBlur x y)

/-- The CONV.I stage (R134). -/
def stageConvI : Stage where
  code      := 4
  usesLanes := false
  weightsOk := fun _ => true
  sources   := [.lum]
  dests     := [.edge, .blur]
  dataOk    := fun _ _ => true
  writes    := fun r m =>
    plainWrites r .edge (fun x y => edgeTrunc (accP r m kEdge x y)) ++
      plainWrites r .blur (fun x y => blurTrunc (accP r m kBlur x y))

/-- Every sample of WLUM, border ring included, is at most 255 (R198). -/
def wlumAllOk (r : Regs) (m : Memory) : Bool :=
  r.widePixels.all fun p => decide (wideSample r m .wlum p.1 p.2 ≤ 255)

/-- The CONV.V stage (R137). LANES is checked and changes nothing else. -/
def stageConvV : Stage where
  code      := 4
  usesLanes := true
  weightsOk := fun _ => true
  sources   := [.wlum]
  dests     := [.wedge, .wblur]
  dataOk    := wlumAllOk
  writes    := fun r m =>
    wideWrites r .wedge (fun x y => edgeTrunc (accW r m kEdge x y)) ++
      wideWrites r .wblur (fun x y => blurTrunc (accW r m kBlur x y))

/-- EDGE.A (R132). -/
def execEdgeA (s : State) : Outcome := issue .edgeA [stageEdgeA] s

/-- BLUR.A (R133). -/
def execBlurA (s : State) : Outcome := issue .blurA [stageBlurA] s

/-- CONV.I (R134). -/
def execConvI (s : State) : Outcome := issue .convI [stageConvI] s

/-- CONV.V (R137). -/
def execConvV (s : State) : Outcome := issue .convV [stageConvV] s

end Sys2Proof.Machine
end

