-- ==== Sys2Proof/Machine/Grayscale.lean ====
section
/-! DEFINITION. The grayscale converter and the weight quantizer: GRAY.A, GRAY.I, GRAY.V (R110 to R118). -/

namespace Sys2Proof.Machine

/-- The three channel weights as binary32 values (R38, R110). -/
def Regs.weight (r : Regs) (c : Nat) : F32 :=
  match c with
  | 0 => F32.decode r.wgtR
  | 1 => F32.decode r.wgtG
  | _ => F32.decode r.wgtB

/-- `S = fadd(fadd(w_r, w_g), w_b)` (R110, R111). -/
def Regs.weightSum (r : Regs) : F32 := fadd (fadd (r.weight 0) (r.weight 1)) (r.weight 2)

/-- A weight that passes R110 (a) and (b): finite and not negative. Minus zero passes. -/
def F32.weightLike : F32 → Bool
  | .fin q => decide (0 ≤ q)
  | .inf _ => false
  | .nan   => false

/-- The weights are valid (R110). -/
def Regs.weightsValid (r : Regs) : Bool :=
  (r.weight 0).weightLike && (r.weight 1).weightLike && (r.weight 2).weightLike &&
    r.weightSum.isFinite && decide (0 < r.weightSum.val)

/-- `n_c = fdiv(w_c, S)` (R111). -/
def Regs.normWeight (r : Regs) (c : Nat) : F32 := fdiv (r.weight c) r.weightSum

/-- `t_c = fmul(w_c, 1024)` (R113). -/
def Regs.scaledWeight (r : Regs) (c : Nat) : F32 := fmul (r.weight c) (F32.ofNat Config.qScale)

/-- The weight check of GRAY.I: R110 and the overflow arm of R113. -/
def Regs.weightsValidI (r : Regs) : Bool :=
  r.weightsValid && (r.scaledWeight 0).isFinite && (r.scaledWeight 1).isFinite && (r.scaledWeight 2).isFinite

/-- `q_c = rhaz(fdiv(t_c, S))` (R113). -/
def Regs.quantWeight (r : Regs) (c : Nat) : Int := rhaz (fdiv (r.scaledWeight c) r.weightSum).val

/-- The sample of channel `c` of a pixel (R62). -/
def rgbSample (r : Regs) (m : Memory) (x y c : Nat) : Nat := (m.read (r.caddr x y c)).toNat

/-- `v`, the binary32 weighted sum of a pixel's samples (R112). -/
def Regs.grayValue (r : Regs) (R G B : Nat) : F32 :=
  fadd (fadd (fmul (F32.ofNat R) (r.normWeight 0)) (fmul (F32.ofNat G) (r.normWeight 1)))
    (fmul (F32.ofNat B) (r.normWeight 2))

/-- `acc`, the integer weighted sum of a pixel's samples (R114). -/
def Regs.grayAcc (r : Regs) (R G B : Nat) : Int := R * r.quantWeight 0 + G * r.quantWeight 1 + B * r.quantWeight 2

/-- `Y` of GRAY.A and of the scalar remainder of GRAY.V (R112, R115). -/
def Regs.grayScalar (r : Regs) (R G B : Nat) : Int := rhaz (r.grayValue R G B).val

/-- `Y` of a GRAY.V lane group (R115). -/
def Regs.grayLane (r : Regs) (R G B : Nat) : Int := sat8 (rne (r.grayValue R G B).val)

/-- `Y` of GRAY.I (R114): truncating division by 1024 of a non-negative sum. -/
def Regs.grayQuant (r : Regs) (R G B : Nat) : Int := r.grayAcc R G B / Config.qScale

/-- `body` of GRAY.V: the pixels that whole groups of 4 cover (R115). -/
def Regs.grayBody (r : Regs) : Nat := Config.grayGroup * (r.plainLen / Config.grayGroup)

/-- The GRAY stage in any tier: RGB to LUM (R79), each sample a function of the pixel's number and its three samples. -/
def grayStage (valid : Regs → Bool) (y : Regs → Nat → Nat → Nat → Nat → Int) : Stage where
  code      := 1
  usesLanes := false
  weightsOk := valid
  sources   := [.rgb]
  dests     := [.lum]
  dataOk    := fun _ _ => true
  writes    := fun r m => plainWrites r .lum fun px py =>
    y r (r.index px py) (rgbSample r m px py 0) (rgbSample r m px py 1) (rgbSample r m px py 2)

/-- The GRAY.A stage (R112). -/
def stageGrayA : Stage := grayStage Regs.weightsValid fun r _ R G B => r.grayScalar R G B

/-- The GRAY.I stage (R114). -/
def stageGrayI : Stage := grayStage Regs.weightsValidI fun r _ R G B => r.grayQuant R G B

/-- The GRAY.V stage (R115): the first `body` pixels in linear order by the lane formula, the rest by the scalar one. -/
def stageGrayV : Stage :=
  grayStage Regs.weightsValid fun r i R G B => if i < r.grayBody then r.grayLane R G B else r.grayScalar R G B

/-- GRAY.A (R112). -/
def execGrayA (s : State) : Outcome := issue .grayA [stageGrayA] s

/-- GRAY.I (R114). -/
def execGrayI (s : State) : Outcome := issue .grayI [stageGrayI] s

/-- GRAY.V (R115). -/
def execGrayV (s : State) : Outcome := issue .grayV [stageGrayV] s

end Sys2Proof.Machine
end

