-- ==== Sys2Proof/Machine/Pipeline.lean ====
section
/-! DEFINITION. The pipeline sequencer: PIPE.A, PIPE.I, PIPE.V (R180 to R185). -/

namespace Sys2Proof.Machine

/-- PIPE.A (R180, R181). -/
def execPipeA (s : State) : Outcome := issue .pipeA [stageGrayA, stageEdgeA, stageBlurA, stageCombA] s

/-- PIPE.I (R180, R182). -/
def execPipeI (s : State) : Outcome := issue .pipeI [stageGrayI, stageConvI, stageCombI] s

/-- PIPE.V (R180, R183). -/
def execPipeV (s : State) : Outcome := issue .pipeV [stageGrayV, stagePadV, stageConvV, stageCombV] s

end Sys2Proof.Machine
end

