-- ==== Sys2Proof/Machine/Dispatch.lean ====
section
/-! DEFINITION. One arm per command: what each does when its word is written to CMD (R100). -/

namespace Sys2Proof.Machine

def exec (i : Instr) (s : State) : Host.Outcome State Fault Refusal :=
  match i with
  | .grayA => Sys2Proof.Machine.execGrayA s
  | .grayI => Sys2Proof.Machine.execGrayI s
  | .grayV => Sys2Proof.Machine.execGrayV s
  | .edgeA => Sys2Proof.Machine.execEdgeA s
  | .blurA => Sys2Proof.Machine.execBlurA s
  | .convI => Sys2Proof.Machine.execConvI s
  | .convV => Sys2Proof.Machine.execConvV s
  | .padV => Sys2Proof.Machine.execPadV s
  | .combA => Sys2Proof.Machine.execCombA s
  | .combI => Sys2Proof.Machine.execCombI s
  | .combV => Sys2Proof.Machine.execCombV s
  | .pipeA => Sys2Proof.Machine.execPipeA s
  | .pipeI => Sys2Proof.Machine.execPipeI s
  | .pipeV => Sys2Proof.Machine.execPipeV s

end Sys2Proof.Machine
end

