-- ==== Sys2Proof/Machine/Port.lean ====
section
/-! DEFINITION. What each thing the outside world can do to the block does (R31, R100, R102, R220), and the host's
pseudo-instructions (R103). -/

namespace Sys2Proof.Machine

/-- A write of `c` to CMD (R100): the command it spells, or ERR_CMD. -/
def writeCmd (c : Word) (s : State) : Outcome :=
  match decode c with
  | .ok i    => exec i s
  | .error _ => issueIllegal c s

/-- `RegWrite` to a register (R31 to R39). -/
def writeReg (n : Reg) (v : Word) (s : State) : Outcome :=
  if n = .cmd then writeCmd v s else .next (s.withRegs (s.regs.write n v))

/-- `RegWrite(off, v)` (R31): an offset that R32 does not list ignores the write. -/
def regWrite (i : Fin 64) (v : Word) (s : State) : Outcome :=
  match regAt i with
  | some n => writeReg n v s
  | none   => .next s

/-- The data of `RegRead(off)` (R31): 0 at an offset that R32 does not list. -/
def regRead (i : Fin 64) (s : State) : Word :=
  match regAt i with
  | some n => s.regs.read n
  | none   => 0

/-- The host stores bytes (MEMW, R102); no byte outside MEM exists (R60; log entries 10, 11). -/
def hostWrite (a : Nat) (bs : List Byte) (s : State) : Outcome :=
  if (HostOp.memWrite a bs).wellFormed then .next (s.withMem (s.mem.writeAll (cellsAt a bs)))
  else .fault .hostAccessOutsideMem

/-- The host loads bytes (MEMR, R102; log entries 10, 11). -/
def hostRead (a n : Nat) (s : State) : Outcome :=
  if (HostOp.memRead a n).wellFormed then .next (s.reply (.bytes (s.mem.readBytes a n)))
  else .fault .hostAccessOutsideMem

/-- The platform's reset (R220): every register takes its reset value; MEM is not touched (log
entry 12). -/
def applyReset (s : State) : State := s.withRegs Regs.reset

/-- One thing the outside world does. -/
def perform (op : HostOp) (s : State) : Outcome :=
  match op with
  | .regRead i    => .next (s.reply (.word (regRead i s)))
  | .regWrite i v => regWrite i v s
  | .memWrite a b => hostWrite a b s
  | .memRead a n  => hostRead a n s
  | .reset        => .next (applyReset s)

/-- The next pending line of the host's script is taken and performed, whole, before the next begins (R31, R71); with
none pending the block is idle and keeps its state (R206, R220). -/
def hostStep (s : State) : Outcome :=
  match s.host with
  | []        => .next s
  | op :: ops => perform op (s.withHost ops)

/-- The CMD write that issues the command whose table bits are `w` (R93, R102). -/
def issueWord (nbits w : Nat) : HostOp := .regWrite (regIndex .cmd) (fetchWord nbits w)

/-! ### Script lines and pseudo-instructions (R102, R103) -/

/-- `WR <REG>, v` (R102). -/
def wr (n : Reg) (v : Word) : HostOp := .regWrite (regIndex n) v

/-- `RD <REG>` (R102). -/
def rd (n : Reg) : HostOp := .regRead (regIndex n)

/-- `<MNEMONIC>`, which is `WR CMD, <its word>` (R102). -/
def command (i : Instr) : HostOp := wr .cmd (encode i)

/-- `SETDIM w, h` (R103). -/
def setDim (w h : Word) : List HostOp := [wr .width w, wr .height h]

/-- `SETW r, g, b`, the literals exact (R103). -/
def setW (r g b : ℚ) : List HostOp :=
  [wr .wgtR (fl32 r).bits, wr .wgtG (fl32 g).bits, wr .wgtB (fl32 b).bits]

/-- The address register of a buffer (R64). -/
def addrReg : Buffer → Reg
  | .rgb   => .rgbAddr
  | .lum   => .lumAddr
  | .edge  => .edgeAddr
  | .blur  => .blurAddr
  | .out   => .outAddr
  | .wlum  => .wlumAddr
  | .wedge => .wedgeAddr
  | .wblur => .wblurAddr

/-- `SETBUF REG, a` (R103). -/
def setBuf (b : Buffer) (a : Word) : List HostOp := [wr (addrReg b) a]

/-- `SETLANES n` (R103). -/
def setLanes (n : Word) : List HostOp := [wr .cfg n]

/-- `CLRERR` (R103, R202). -/
def clrErr : List HostOp := [wr .status 0x00000002#32]

/-- `CLRDONE` (R103). -/
def clrDone : List HostOp := [wr .status 0x00000001#32]

end Sys2Proof.Machine
end

