-- ==== Sys2Proof/Machine/Step.lean ====
section
/-! DEFINITION. One step of the machine: one transaction of the outside world (decision D2: one port transaction is one
state transition). -/

namespace Sys2Proof.Machine

/-- The step. The block has no program counter (R40): what runs next is the head of the host's pending script. -/
def step (s : State) : Host.Outcome State Fault Refusal := hostStep s

/-- `s` with the CMD write of an instruction put in front of the host's pending script, so that the next step issues it
(log entry 2). -/
def State.withFetchWord (s : State) (nbits w : Nat) : State := s.withHost (issueWord nbits w :: s.host)

end Sys2Proof.Machine
end

