-- ==== Sys2Proof/Safety.lean ====
section
/-! DEFINITION. What claims about the machine are stated in: its invariant, safe scripts, the static part of each command's
rule as the spec lists it (R79 and the rules of the commands), and sums over a pixel's neighbourhood. Nothing here is used
by the machine. -/

namespace Sys2Proof.Machine

/-! ### The invariant -/

/-- The pairs (ECODE, ESTAGE) a fault can record: the "raised by" column of R190 with the codes of R91. -/
def faultPairs : List (BitVec 4 × BitVec 4) :=
  [(1, 0), (2, 4), (2, 5), (2, 6), (4, 1), (8, 4), (8, 6)] ++
    ([3, 5, 6, 7].flatMap fun f => [1, 2, 3, 4, 5, 6].map fun g => (f, g))

/-- A STATUS that the rules can produce: DONE and ERR are never both 1, ECODE and ESTAGE are 0 while ERR = 0 (R35), and a
recorded fault is one of R190. -/
def Status.legal (t : Status) : Bool :=
  if t.err then !t.done && faultPairs.contains (t.ecode, t.estage) else t.ecode == 0 && t.estage == 0

/-- The invariant of the machine: memory keeps its canonical form and lists addresses of MEM only, and STATUS is legal. -/
structure State.Inv (s : State) : Prop where
  form   : s.mem.wf = true
  inMem  : s.mem.inMem = true
  status : s.regs.status.legal = true

/-- Every pending line of the host's script is well formed: what a safe run needs. -/
def State.scriptOk (s : State) : Bool := s.host.all HostOp.wellFormed

/-! ### The static part of a command's rule -/

/-- The operands, encoding and static checks of a single-stage command, as its rule lists them. -/
structure Row where
  /-- the CMD word -/
  word    : Word
  /-- the STAGE code, which ESTAGE reports -/
  code    : BitVec 4
  /-- ERR_CFG is checked -/
  lanes   : Bool
  /-- ERR_WEIGHT is checked, and this is its condition not holding -/
  weights : Regs → Prop
  /-- the buffers of ERR_ADDR and ERR_BUS -/
  buffers : List Buffer
  /-- the pairs of ERR_OVERLAP -/
  pairs   : List (Buffer × Buffer)

/-- GRAY.A (R112). -/
def rowGrayA : Row := ⟨0x00000001#32, 1, false, fun r => r.weightsValid = true, [.rgb, .lum], [(.rgb, .lum)]⟩
/-- GRAY.I (R114). -/
def rowGrayI : Row := ⟨0x00000011#32, 1, false, fun r => r.weightsValidI = true, [.rgb, .lum], [(.rgb, .lum)]⟩
/-- GRAY.V (R115). -/
def rowGrayV : Row := ⟨0x00000021#32, 1, false, fun r => r.weightsValid = true, [.rgb, .lum], [(.rgb, .lum)]⟩
/-- EDGE.A (R132). -/
def rowEdgeA : Row := ⟨0x00000002#32, 2, false, fun _ => True, [.lum, .edge], [(.lum, .edge)]⟩
/-- BLUR.A (R133). -/
def rowBlurA : Row := ⟨0x00000003#32, 3, false, fun _ => True, [.lum, .blur], [(.lum, .blur)]⟩
/-- CONV.I (R134). -/
def rowConvI : Row :=
  ⟨0x00000014#32, 4, false, fun _ => True, [.lum, .edge, .blur], [(.lum, .edge), (.lum, .blur), (.edge, .blur)]⟩
/-- CONV.V (R137). -/
def rowConvV : Row :=
  ⟨0x00000024#32, 4, true, fun _ => True, [.wlum, .wedge, .wblur], [(.wlum, .wedge), (.wlum, .wblur), (.wedge, .wblur)]⟩
/-- PAD.V (R150). -/
def rowPadV : Row := ⟨0x00000025#32, 5, true, fun _ => True, [.lum, .wlum], [(.lum, .wlum)]⟩
/-- COMB.A (R161). -/
def rowCombA : Row :=
  ⟨0x00000006#32, 6, false, fun _ => True, [.lum, .edge, .blur, .out], [(.out, .lum), (.out, .edge), (.out, .blur)]⟩
/-- COMB.I (R162). -/
def rowCombI : Row :=
  ⟨0x00000016#32, 6, false, fun _ => True, [.lum, .edge, .blur, .out], [(.out, .lum), (.out, .edge), (.out, .blur)]⟩
/-- COMB.V (R163). -/
def rowCombV : Row :=
  ⟨0x00000026#32, 6, true, fun _ => True, [.wlum, .wedge, .wblur, .out],
    [(.out, .wlum), (.out, .wedge), (.out, .wblur)]⟩

/-- The row of a single-stage command; none for a PIPE command, which has the rows of its stages. -/
def rowOf : Instr → Option Row
  | .grayA => some rowGrayA
  | .grayI => some rowGrayI
  | .grayV => some rowGrayV
  | .edgeA => some rowEdgeA
  | .blurA => some rowBlurA
  | .convI => some rowConvI
  | .convV => some rowConvV
  | .padV  => some rowPadV
  | .combA => some rowCombA
  | .combI => some rowCombI
  | .combV => some rowCombV
  | .pipeA => none
  | .pipeI => none
  | .pipeV => none

/-- LANES is legal where it is an operand (R192). -/
def Row.LanesOk (w : Row) (r : Regs) : Prop := w.lanes = true → 1 ≤ r.laneCount ∧ r.laneCount ≤ 64
/-- The raster is not empty (R193). -/
def Row.DimsOk (_ : Row) (r : Regs) : Prop := 0 < r.w ∧ 0 < r.h
/-- No range passes the top of MEM (R195, by its formula; log entry 19). -/
def Row.Fits (w : Row) (r : Regs) : Prop := ∀ b ∈ w.buffers, r.base b + r.len b ≤ 2 ^ 32
/-- No pair of ranges meets (R196). -/
def Row.Apart (w : Row) (r : Regs) : Prop := ∀ p ∈ w.pairs, ∀ a, ¬(r.inRange p.1 a ∧ r.inRange p.2 a)
/-- Every byte of every range is Accessible (R197). -/
def Row.Reachable (w : Row) (s : State) : Prop := ∀ b ∈ w.buffers, ∀ a, s.regs.inRange b a → s.accessible a = true

/-- Every static check of the command passes. -/
def Row.Ready (w : Row) (s : State) : Prop :=
  w.LanesOk s.regs ∧ w.DimsOk s.regs ∧ w.weights s.regs ∧ w.Fits s.regs ∧ w.Apart s.regs ∧ w.Reachable s

/-- What a fault with these codes leaves of a state (R201): CMD is the command's word, STATUS is ERR, ECODE and ESTAGE with
DONE = 0, and nothing else changes. -/
def State.faulted (s : State) (c : Word) (ecode estage : BitVec 4) : State :=
  { s with regs := { s.regs with cmd := c, status := ⟨false, true, ecode, estage⟩ } }

/-- What a static fault of this command leaves. -/
def Row.faulted (w : Row) (ecode : BitVec 4) (s : State) : State := s.faulted w.word ecode w.code

/-- The static faults of a command, in the priority order of R200 (ERR_ADDR by the formula of R195, log entry 19). -/
def Row.StaticFaults (w : Row) (i : Instr) (s : State) : Prop :=
  (¬w.LanesOk s.regs → exec i s = .next (w.faulted 2 s)) ∧
  (w.LanesOk s.regs → ¬w.DimsOk s.regs → exec i s = .next (w.faulted 3 s)) ∧
  (w.LanesOk s.regs → w.DimsOk s.regs → ¬w.weights s.regs → exec i s = .next (w.faulted 4 s)) ∧
  (w.LanesOk s.regs → w.DimsOk s.regs → w.weights s.regs → ¬w.Fits s.regs → exec i s = .next (w.faulted 5 s)) ∧
  (w.LanesOk s.regs → w.DimsOk s.regs → w.weights s.regs → w.Fits s.regs → ¬w.Apart s.regs →
    exec i s = .next (w.faulted 6 s)) ∧
  (w.LanesOk s.regs → w.DimsOk s.regs → w.weights s.regs → w.Fits s.regs → w.Apart s.regs → ¬w.Reachable s →
    exec i s = .next (w.faulted 7 s))

/-- What completion leaves (R100): CMD is the command's word, DONE is set, the other fields of STATUS, every other register
and everything outside memory are as before. -/
def State.Completes (s t : State) (c : Word) : Prop :=
  t.regs = { s.regs with cmd := c, status := { s.regs.status with done := true } } ∧ t.holes = s.holes ∧
    t.host = s.host ∧ t.replies = s.replies ∧ t.freeCount = s.freeCount

/-- What ERR_RANGE leaves (R198, R201) outside memory: CMD is the command's word, STATUS records the fault; the counter of
the free values, which is the model's own, advances. -/
def State.RangeFaults (s t : State) (c : Word) (estage : BitVec 4) : Prop :=
  t.regs = { s.regs with cmd := c, status := ⟨false, true, 8, estage⟩ } ∧ t.holes = s.holes ∧
    t.host = s.host ∧ t.replies = s.replies ∧ t.freeCount = s.freeCount + 1

/-- Every byte whose address is not among `P` reads as before. -/
def State.KeepsOutside (s t : State) (P : Nat → Prop) : Prop := ∀ a, ¬P a → t.mem.read a = s.mem.read a

/-- The state with another CMD. -/
def State.withCmd (s : State) (c : Word) : State := { s with regs := { s.regs with cmd := c } }

/-- The host issues commands one after the other; none if one of them stops. -/
def issueAll : List Instr → State → Option State
  | [], s => some s
  | i :: is, s =>
    match exec i s with
    | .next t    => issueAll is t
    | .fault _   => none
    | .refused _ => none

/-- The buffers that a command writes (R79). -/
def destsOf : Instr → List Buffer
  | .grayA => [.lum]
  | .grayI => [.lum]
  | .grayV => [.lum]
  | .edgeA => [.edge]
  | .blurA => [.blur]
  | .convI => [.edge, .blur]
  | .convV => [.wedge, .wblur]
  | .padV  => [.wlum]
  | .combA => [.out]
  | .combI => [.out]
  | .combV => [.out]
  | .pipeA => [.lum, .edge, .blur, .out]
  | .pipeI => [.lum, .edge, .blur, .out]
  | .pipeV => [.lum, .wlum, .wedge, .wblur, .out]

/-! ### Samples, sums and formulas, written out from the rules -/

/-- The byte of pixel `(x, y)` in a plain raster (R61). -/
def byteAt (s : State) (b : Buffer) (x y : Nat) : Nat := (s.mem.read (s.regs.base b + y * s.regs.w + x)).toNat

/-- The sample of colour `c` of pixel `(x, y)` (R62). -/
def colourAt (s : State) (x y c : Nat) : Nat :=
  (s.mem.read (s.regs.base .rgb + 3 * (y * s.regs.w + x) + c)).toNat

/-- The interior sample of pixel `(x, y)` in a widened raster (R63). -/
def wideAt (s : State) (b : Buffer) (x y : Nat) : Nat :=
  s.mem.read16 (s.regs.base b + 2 * ((x + 1) + (y + 1) * (s.regs.w + 2)))

/-- `S` of R110 and R111. -/
def sumFormula (r : Regs) : F32 := fadd (fadd (F32.decode r.wgtR) (F32.decode r.wgtG)) (F32.decode r.wgtB)

/-- `v` of R112, the normalised weights of R111 in place. -/
def grayFormula (r : Regs) (R G B : Nat) : F32 :=
  fadd
    (fadd (fmul (F32.ofNat R) (fdiv (F32.decode r.wgtR) (sumFormula r)))
      (fmul (F32.ofNat G) (fdiv (F32.decode r.wgtG) (sumFormula r))))
    (fmul (F32.ofNat B) (fdiv (F32.decode r.wgtB) (sumFormula r)))

/-- `q_c` of R113 for the weight register's pattern `b`. -/
def quantFormula (r : Regs) (b : Word) : Int := rhaz (fdiv (fmul (F32.decode b) (F32.ofNat 1024)) (sumFormula r)).val

/-- `acc` of R114. -/
def accFormula (r : Regs) (R G B : Nat) : Int :=
  R * quantFormula r r.wgtR + G * quantFormula r r.wgtG + B * quantFormula r r.wgtB

/-- `num` of R160. -/
def numFormula (e o b : Nat) : Int := (e : Int) * o + (255 - e) * b

/-- `v` of R161. -/
def blendFormula (e o b : Nat) : F32 :=
  fadd (fmul (fdiv (F32.ofNat e) (F32.ofNat 255)) (F32.ofNat o))
    (fmul (fsub (F32.ofNat 1) (fdiv (F32.ofNat e) (F32.ofNat 255))) (F32.ofNat b))

/-- The sample of LUM at an integer position; 0 where the tap is absent (R131). -/
def lumAt (s : State) (x y : Int) : Int :=
  if 0 ≤ x ∧ x < s.regs.w ∧ 0 ≤ y ∧ y < s.regs.h then (byteAt s .lum x.toNat y.toNat : Int) else 0

/-- The sample of WLUM whose widened coordinates are `(x+1, y+1)`, the border ring included (R63, R136). -/
def wlumAt (s : State) (x y : Int) : Int :=
  (s.mem.read16 (s.regs.base .wlum + 2 * ((x + 1).toNat + (y + 1).toNat * (s.regs.w + 2))) : Int)

/-- The sum of the edge kernel `0 1 0 / 1 -4 1 / 0 1 0` at a position (R130). -/
def edgeSum (f : Int → Int → Int) (x y : Int) : Int :=
  f x (y - 1) + f (x - 1) y + f (x + 1) y + f x (y + 1) - 4 * f x y

/-- The sum of the blur kernel `1 2 1 / 2 4 2 / 1 2 1` at a position (R130). -/
def blurSum (f : Int → Int → Int) (x y : Int) : Int :=
  f (x - 1) (y - 1) + 2 * f x (y - 1) + f (x + 1) (y - 1) +
    2 * f (x - 1) y + 4 * f x y + 2 * f (x + 1) y +
    f (x - 1) (y + 1) + 2 * f x (y + 1) + f (x + 1) (y + 1)

/-- Every sample of WLUM is at most 255, the border ring included (R198). -/
def WlumSmall (s : State) : Prop :=
  ∀ X Y, X < s.regs.w + 2 → Y < s.regs.h + 2 → s.mem.read16 (s.regs.waddr .wlum X Y) ≤ 255

/-- The interior samples of a widened raster are at most 255 (R198). -/
def InteriorSmall (s : State) (b : Buffer) : Prop := ∀ x y, x < s.regs.w → y < s.regs.h → wideAt s b x y ≤ 255

/-- `(X, Y)` is on the border ring of a widened raster (R63). -/
def Regs.onRing (r : Regs) (X Y : Nat) : Prop := X = 0 ∨ X = r.w + 1 ∨ Y = 0 ∨ Y = r.h + 1

/-- Every border sample of WLUM is at most `n`; `n = 0` is the zero border of R224. -/
def RingAtMost (s : State) (n : Nat) : Prop :=
  ∀ X Y, X < s.regs.w + 2 → Y < s.regs.h + 2 → s.regs.onRing X Y → s.mem.read16 (s.regs.waddr .wlum X Y) ≤ n

/-- Every sample of LUM is `k`. -/
def ConstLum (s : State) (k : Nat) : Prop := ∀ u v, u < s.regs.w → v < s.regs.h → byteAt s .lum u v = k

/-- The number of in-bounds non-centre cross taps of a pixel (R132, corner cases). -/
def Regs.crossTaps (r : Regs) (x y : Nat) : Int :=
  (if 0 < x then 1 else 0) + (if x + 1 < r.w then 1 else 0) + (if 0 < y then 1 else 0) + (if y + 1 < r.h then 1 else 0)

/-- The weights of the in-bounds taps among `1 2 1` around position `x` of `n` (R139): 4 inside, 3 at one end, 2 alone. -/
def reach (n x : Nat) : Int := 2 + (if 0 < x then 1 else 0) + (if x + 1 < n then 1 else 0)

/-- A raster of `w` columns written out row by row, 0 outside the list (the rules' examples). -/
def rasterOf (w : Nat) (l : List Int) (x y : Int) : Int :=
  if 0 ≤ x ∧ x < w ∧ 0 ≤ y then l.getD (y.toNat * w + x.toNat) 0 else 0

end Sys2Proof.Machine
end

