-- ==== Sys2Proof/Certificates/Slice0/Obligations.lean ====
section
/-! DEFINITION. The statements about IDN-CORE, in the order of OBLIGATIONS.json. -/

open Sys2Proof Sys2Proof.Machine

/-! ### Encoding and issue -/

/-- R93, some words: the decoder reads each word as the spec's table spells it. -/
def Obligations.DecodeReadsSpecWords : Prop :=
  decode 0b00000000000000000000000000100001#32 = .ok .grayV ∧
  decode 0b00000000000000000000000000000010#32 = .ok .edgeA ∧
  decode 0b00000000000000000000000000010100#32 = .ok .convI ∧
  decode 0b00000000000000000000000000100101#32 = .ok .padV ∧
  decode 0b00000000000000000000000000010110#32 = .ok .combI ∧
  decode 0b00000000000000000000000000000111#32 = .ok .pipeA

/-- R93: each command has exactly one word, `TIER·16 + STAGE`, and every other word is illegal. -/
def Obligations.DecodeAcceptsExactlyTheFourteenWords : Prop :=
  (∀ i : Instr, (encode i).toNat = i.fields.tier.toNat * 16 + i.fields.stage.toNat) ∧
  (∀ w : Word, (∃ e, decode w = .error e) ↔
    w ∉ [0x01#32, 0x11#32, 0x21#32, 0x02#32, 0x03#32, 0x14#32, 0x24#32, 0x25#32, 0x06#32, 0x16#32, 0x26#32, 0x07#32,
      0x17#32, 0x27#32]) ∧
  ∀ w : Word,
    (decode w = .ok .grayA ↔ w = 0x00000001#32) ∧ (decode w = .ok .grayI ↔ w = 0x00000011#32) ∧
    (decode w = .ok .grayV ↔ w = 0x00000021#32) ∧ (decode w = .ok .edgeA ↔ w = 0x00000002#32) ∧
    (decode w = .ok .blurA ↔ w = 0x00000003#32) ∧ (decode w = .ok .convI ↔ w = 0x00000014#32) ∧
    (decode w = .ok .convV ↔ w = 0x00000024#32) ∧ (decode w = .ok .padV ↔ w = 0x00000025#32) ∧
    (decode w = .ok .combA ↔ w = 0x00000006#32) ∧ (decode w = .ok .combI ↔ w = 0x00000016#32) ∧
    (decode w = .ok .combV ↔ w = 0x00000026#32) ∧ (decode w = .ok .pipeA ↔ w = 0x00000007#32) ∧
    (decode w = .ok .pipeI ↔ w = 0x00000017#32) ∧ (decode w = .ok .pipeV ↔ w = 0x00000027#32)

/-- R93: decoding an encoded command gives it back, through the decoder and through the table's reading of a word. -/
def Obligations.DecodeInvertsEncode : Prop :=
  ∀ i : Instr, decode (encode i) = .ok i ∧ decodeTableWord 32 (encode i).toNat = some i

/-- R94, R191: a word is illegal exactly for the listed reasons; an accepted CMD write of it records ERR_CMD with ESTAGE 0
and changes nothing but CMD and STATUS. -/
def Obligations.IllegalWordsRaiseErrCmd : Prop :=
  ∀ w : Word,
    ((∃ e, decode w = .error e) ↔
      w.extractLsb' 6 26 ≠ 0 ∨ w.extractLsb' 4 2 = 3 ∨ w.extractLsb' 0 4 = 0 ∨ 8 ≤ (w.extractLsb' 0 4).toNat ∨
        w = 0x12#32 ∨ w = 0x22#32 ∨ w = 0x13#32 ∨ w = 0x23#32 ∨ w = 0x04#32 ∨ w = 0x05#32 ∨ w = 0x15#32) ∧
    ∀ (s : State) (ops : List HostOp), (∃ e, decode w = .error e) → s.host = .regWrite 1 w :: ops →
      s.regs.status.err = false → step s = .next ((s.withHost ops).faulted w 1 0)

/-- One step takes the head of the host's script; a CMD write of a word that decodes runs that command; with no pending
line the machine is idle. The script is the model's (log entries 1, 2). -/
def Obligations.StepRunsTheDecodedCommand : Prop :=
  (∀ (s : State) (ops : List HostOp) (w : Word) (i : Instr), s.host = .regWrite 1 w :: ops → decode w = .ok i →
    step s = exec i (s.withHost ops)) ∧
  (∀ (s : State) (i : Instr), step (s.withFetchWord 32 (encode i).toNat) = exec i s) ∧
  (∀ s : State, s.host = [] → step s = .next s)

/-- R34: a CMD write is accepted while ERR = 0, all 32 bits are then stored and read back and the command the word spells is
started; while ERR = 1 a write of any word, legal or not, is ignored: nothing changes but that the script's line is spent. -/
def Obligations.CmdWriteIsStoredOrIgnored : Prop :=
  (∀ (s : State) (ops : List HostOp) (w : Word), s.host = .regWrite 1 w :: ops → s.regs.status.err = false →
    (∃ t, step s = .next t ∧ regRead 1 t = w) ∧ ∀ i, decode w = .ok i → step s = exec i (s.withHost ops)) ∧
  (∀ (s : State) (ops : List HostOp) (w : Word), s.host = .regWrite 1 w :: ops → s.regs.status.err = true →
    step s = .next (s.withHost ops)) ∧
  ∀ (i : Instr) (s : State), s.regs.status.err = true → exec i s = .next s

/-! ### The register port -/

/-- R44: after the platform's reset, from any state, and in the model's reset state, every register reads as the spec says;
reset does not touch memory (R220). -/
def Obligations.ResetGivesEveryRegisterItsValue : Prop :=
  (∀ (s : State) (ops : List HostOp), s.host = .reset :: ops →
    step s = .next { s with regs := State.reset.regs, host := ops }) ∧
  regRead 0 State.reset = 0x49444E07#32 ∧ regRead 1 State.reset = 0x00000000#32 ∧
  regRead 2 State.reset = 0x00000000#32 ∧ regRead 3 State.reset = 0x00000008#32 ∧
  regRead 4 State.reset = 0#32 ∧ regRead 5 State.reset = 0#32 ∧
  regRead 6 State.reset = 0x3E59B3D0#32 ∧ regRead 7 State.reset = 0x3F371759#32 ∧ regRead 8 State.reset = 0x3D93DD98#32 ∧
  regRead 9 State.reset = 0#32 ∧ regRead 10 State.reset = 0#32 ∧ regRead 11 State.reset = 0#32 ∧
  regRead 12 State.reset = 0#32 ∧ regRead 13 State.reset = 0#32 ∧ regRead 14 State.reset = 0#32 ∧
  regRead 15 State.reset = 0#32 ∧ regRead 16 State.reset = 0#32

/-- R31, R32: a RegRead hands the register's 32 bits to the host and has no side effect; ID reads its constant, a reserved
offset reads 0; STATUS hands over the word whose fields StatusIsWriteOneToClear states. The script and the replies are
the model's (log entries 1, 3). -/
def Obligations.RegReadHasNoSideEffect : Prop :=
  ∀ (s : State) (ops : List HostOp) (k : Fin 64), s.host = .regRead k :: ops →
    ∃ v : Word, step s = .next { s with host := ops, replies := s.replies ++ [.word v] } ∧
      (k = 0 → v = 0x49444E07#32) ∧ (k = 1 → v = s.regs.cmd) ∧ (k = 2 → v = regRead 2 s) ∧
      (k = 3 → v.toNat = s.regs.lanes.toNat) ∧ (k = 4 → v = s.regs.width) ∧ (k = 5 → v = s.regs.height) ∧
      (k = 6 → v = s.regs.wgtR) ∧ (k = 7 → v = s.regs.wgtG) ∧ (k = 8 → v = s.regs.wgtB) ∧
      (k = 9 → v = s.regs.rgbAddr) ∧ (k = 10 → v = s.regs.lumAddr) ∧ (k = 11 → v = s.regs.edgeAddr) ∧
      (k = 12 → v = s.regs.blurAddr) ∧ (k = 13 → v = s.regs.outAddr) ∧ (k = 14 → v = s.regs.wlumAddr) ∧
      (k = 15 → v = s.regs.wedgeAddr) ∧ (k = 16 → v = s.regs.wblurAddr) ∧ (16 < k.val → v = 0)

/-- R31, R33, R36 to R39: a write to a read/write register other than CMD is what it reads afterwards (CFG keeps bits 6:0),
no other register reads differently, and nothing else changes; a write to ID or to a reserved offset is ignored. -/
def Obligations.RegWriteReadsBackAndTouchesNothingElse : Prop :=
  ∀ (s : State) (ops : List HostOp) (k : Fin 64) (v : Word), s.host = .regWrite k v :: ops →
    (3 ≤ k.val → k.val ≤ 16 →
      ∃ t, step s = .next t ∧ regRead k t = (if k = 3 then v &&& 0x0000007F#32 else v) ∧
        (∀ j, j ≠ k → regRead j t = regRead j s) ∧ t.mem = s.mem ∧ t.holes = s.holes ∧ t.host = ops ∧
        t.replies = s.replies ∧ t.freeCount = s.freeCount) ∧
    (k = 0 ∨ 16 < k.val → step s = .next (s.withHost ops))

/-- R35: the fields of STATUS as a read shows them, and what a write clears. -/
def Obligations.StatusIsWriteOneToClear : Prop :=
  (∀ s : State,
    (regRead 2 s).getLsbD 0 = s.regs.status.done ∧ (regRead 2 s).getLsbD 1 = s.regs.status.err ∧
    (regRead 2 s).extractLsb' 2 2 = 0 ∧ (regRead 2 s).extractLsb' 4 4 = s.regs.status.ecode ∧
    (regRead 2 s).extractLsb' 8 4 = s.regs.status.estage ∧ (regRead 2 s).extractLsb' 12 20 = 0) ∧
  (∀ (s : State) (ops : List HostOp) (v : Word), s.host = .regWrite 2 v :: ops →
    ∃ u : Status, step s = .next { s with regs := { s.regs with status := u }, host := ops } ∧
      (v.getLsbD 1 = true → u.err = false ∧ u.ecode = 0 ∧ u.estage = 0) ∧
      (v.getLsbD 1 = false → u.err = s.regs.status.err ∧ u.ecode = s.regs.status.ecode ∧
        u.estage = s.regs.status.estage) ∧
      (v.getLsbD 0 = true → u.done = false) ∧ (v.getLsbD 0 = false → u.done = s.regs.status.done)) ∧
  ∀ s : State, s.Inv → ¬(s.regs.status.done = true ∧ s.regs.status.err = true) ∧
    (s.regs.status.err = false → s.regs.status.ecode = 0 ∧ s.regs.status.estage = 0)

/-- R202, R203: a recorded fault, with its ECODE and ESTAGE, stays until the host writes STATUS with bit 1 set or the
platform resets the block; no other step clears or replaces it. -/
def Obligations.FaultStaysUntilAcknowledged : Prop :=
  ∀ s t : State, s.regs.status.err = true → step s = .next t →
    (t.regs.status.err = true ∧ t.regs.status.ecode = s.regs.status.ecode ∧
      t.regs.status.estage = s.regs.status.estage) ∨
    (∃ v ops, s.host = .regWrite 2 v :: ops ∧ v.getLsbD 1 = true ∧ t.regs.status.err = false ∧
      t.regs.status.ecode = 0 ∧ t.regs.status.estage = 0 ∧ t.mem = s.mem) ∨
    (∃ ops, s.host = .reset :: ops ∧ t.regs.status.err = false ∧ t.mem = s.mem)

/-! ### Memory and the host's own accesses -/

/-- R65: a 16-bit sample is little-endian. -/
def Obligations.WidenedSamplesAreLittleEndian : Prop :=
  (∀ (m : Memory) (a : Nat), m.read16 a = (m.read a).toNat + 256 * (m.read (a + 1)).toNat) ∧
  ∀ (m : Memory) (a : Nat) (v : Half),
    ((m.writeAll (cells16 a v)).read a).toNat = v.toNat % 256 ∧
    ((m.writeAll (cells16 a v)).read (a + 1)).toNat = v.toNat / 256 ∧
    (m.writeAll (cells16 a v)).read16 a = v.toNat ∧
    ∀ x, x ≠ a → x ≠ a + 1 → (m.writeAll (cells16 a v)).read x = m.read x

/-- The canonical form is one form: two canonical memories with the same fill that read alike are equal data. -/
def Obligations.CanonicalMemoriesThatReadAlikeAreEqual : Prop :=
  ∀ m n : Memory, m.wf = true → n.wf = true → m.fill = n.fill → (∀ a, m.read a = n.read a) → m = n

/-- R102: MEMW stores the listed bytes and nothing else, MEMR hands over the bytes and changes nothing; neither touches the
block. -/
def Obligations.HostStoresAndLoadsBytes : Prop :=
  (∀ (s : State) (ops : List HostOp) (a : Nat) (bs : List Byte), s.host = .memWrite a bs :: ops →
    a + bs.length ≤ 2 ^ 32 →
    ∃ m : Memory, step s = .next { s with mem := m, host := ops } ∧
      (∀ (k : Nat) (h : k < bs.length), m.read (a + k) = bs[k]) ∧
      ∀ x, ¬(a ≤ x ∧ x < a + bs.length) → m.read x = s.mem.read x) ∧
  (∀ (s : State) (ops : List HostOp) (a n : Nat), s.host = .memRead a n :: ops → a + n ≤ 2 ^ 32 →
    ∃ bs : List Byte, step s = .next { s with host := ops, replies := s.replies ++ [.bytes bs] } ∧ bs.length = n ∧
      ∀ (k : Nat) (h : k < bs.length), bs[k] = s.mem.read (a + k))

/-- A step stops exactly where the next line is a MEMW or a MEMR that reaches past `2^32 - 1`, which is the model's choice
(log entry 10); nothing is refused. -/
def Obligations.StepStopsOnlyOnHostAccessOutsideMem : Prop :=
  ∀ s : State,
    ((∃ f, step s = .fault f) ↔
      (∃ a bs ops, s.host = .memWrite a bs :: ops ∧ 2 ^ 32 < a + bs.length) ∨
        ∃ a n ops, s.host = .memRead a n :: ops ∧ 2 ^ 32 < a + n) ∧
    ∀ r, step s ≠ .refused r

/-- R60, R78: which addresses are Accessible is fixed, and memory changes only in a CMD write or a store of the host. That
what unwritten memory reads as, the fill, is fixed too is the model's choice (log entry 4). -/
def Obligations.MemoryChangesOnlyByCommandsAndHostStores : Prop :=
  ∀ s t : State, step s = .next t →
    (∀ a, t.accessible a = s.accessible a) ∧ t.mem.fill = s.mem.fill ∧
    (t.mem = s.mem ∨ (∃ v ops, s.host = .regWrite 1 v :: ops) ∨ ∃ a bs ops, s.host = .memWrite a bs :: ops)

/-! ### Numeric primitives -/

/-- R10: `rhaz` is `floor(q + 1/2)`, and on quarters and sixteenths it is the shift with a half added. -/
def Obligations.RhazOfQuartersAndSixteenths : Prop :=
  (∀ q : ℚ, 0 ≤ q → rhaz q = ⌊q + 1 / 2⌋) ∧
  ∀ a : Nat, rhaz ((a : ℚ) / 4) = (((a + 2) >>> 2 : Nat) : Int) ∧ rhaz ((a : ℚ) / 16) = (((a + 8) >>> 4 : Nat) : Int)

/-- R11: `rne` rounds to the nearest integer, and of two equally near takes the even one. -/
def Obligations.RneTakesTheEvenOfTwoNearest : Prop :=
  ∀ q : ℚ, (∀ n : Int, |(rne q : ℚ) - q| ≤ |(n : ℚ) - q|) ∧ (|(rne q : ℚ) - q| = 1 / 2 → rne q % 2 = 0)

/-- R115: where GRAY.V and GRAY.A differ. On a tie with an even floor `rne` is one below `rhaz`; elsewhere they agree. -/
def Obligations.RneDiffersFromRhazOnlyOnEvenTies : Prop :=
  ∀ q : ℚ, (q - (⌊q⌋ : ℚ) = 1 / 2 ∧ ⌊q⌋ % 2 = 0 → rne q = rhaz q - 1) ∧
    (¬(q - (⌊q⌋ : ℚ) = 1 / 2 ∧ ⌊q⌋ % 2 = 0) → rne q = rhaz q)

/-- R13: a binary32 pattern that is neither a NaN nor a zero is recovered from its value; `fl32` leaves a binary32 value as
it is (R14). -/
def Obligations.Binary32PatternsRoundTrip : Prop :=
  ∀ b : Word, F32.decode b ≠ .nan →
    (F32.decode b ≠ .fin 0 → (F32.decode b).bits = b) ∧ (F32.decode b = .fin 0 → b = 0x00000000#32 ∨ b = 0x80000000#32) ∧
    ∀ q, F32.decode b = .fin q → fl32 q = .fin q

/-- R14: a finite `fl32(q)` is a binary32 value, no binary32 value is nearer to `q`, and where another one is as near, the
last bit of the pattern of `fl32(q)` is 0. -/
def Obligations.Fl32IsTheNearestBinary32Value : Prop :=
  ∀ q v : ℚ, fl32 q = .fin v →
    (∃ b : Word, F32.decode b = .fin v) ∧ ∀ (b : Word) (p : ℚ), F32.decode b = .fin p →
      |v - q| ≤ |p - q| ∧ (p ≠ v → |v - q| = |p - q| → (F32.fin v).bits.getLsbD 0 = false)

/-- R14: overflow to infinity, of the sign of `q`, begins exactly at the tie between the largest finite value and `2^128`. -/
def Obligations.Fl32OverflowsExactlyFromTheTie : Prop :=
  ∀ q : ℚ, (fl32 q = .inf false ↔ (2 : ℚ) ^ 128 - 2 ^ 103 ≤ q) ∧ (fl32 q = .inf true ↔ q ≤ -((2 : ℚ) ^ 128 - 2 ^ 103))

/-- R103: SETW stores patterns that decode to the binary32 values nearest the three literals. -/
def Obligations.SetwStoresTheNearestBinary32Weights : Prop :=
  ∀ (s : State) (ops : List HostOp) (r g b vr vg vb : ℚ), s.host = setW r g b ++ ops →
    fl32 r = .fin vr → fl32 g = .fin vg → fl32 b = .fin vb →
    ∃ t, Host.Core.run core 3 s = .next t ∧
      F32.decode t.regs.wgtR = .fin vr ∧ F32.decode t.regs.wgtG = .fin vg ∧ F32.decode t.regs.wgtB = .fin vb ∧
      t = { s with
        regs := { s.regs with wgtR := t.regs.wgtR, wgtG := t.regs.wgtG, wgtB := t.regs.wgtB }
        host := ops }

/-! ### Weights and grayscale -/

/-- R110: the weights are valid exactly when all three are finite and not negative and their binary32 sum is finite and
positive; minus zero has value 0; a single zero weight is valid; with weights that are not valid every GRAY command raises
ERR_WEIGHT before touching memory. GRAY.I asks besides that no weight overflows when multiplied by 1024 (R113). -/
def Obligations.WeightsAreValidExactlyAsR110Says : Prop :=
  F32.decode 0x80000000#32 = .fin 0 ∧
  { Regs.reset with wgtR := 0x3F800000#32, wgtG := 0x3F800000#32, wgtB := 0#32 }.weightsValid = true ∧
  (∀ s : State, s.regs.status.err = false → 0 < s.regs.w → 0 < s.regs.h → s.regs.weightsValid = false →
    exec .grayA s = .next (s.faulted 0x00000001#32 4 1) ∧ exec .grayI s = .next (s.faulted 0x00000011#32 4 1) ∧
    exec .grayV s = .next (s.faulted 0x00000021#32 4 1)) ∧
  (∀ r : Regs, r.weightsValid = true ↔
    ∃ wr wg wb S : ℚ, F32.decode r.wgtR = .fin wr ∧ F32.decode r.wgtG = .fin wg ∧ F32.decode r.wgtB = .fin wb ∧
      0 ≤ wr ∧ 0 ≤ wg ∧ 0 ≤ wb ∧ fadd (fadd (.fin wr) (.fin wg)) (.fin wb) = .fin S ∧ 0 < S) ∧
  (∀ r : Regs, r.weightsValidI = true ↔ r.weightsValid = true ∧
    ∀ b ∈ [r.wgtR, r.wgtG, r.wgtB], ∃ t : ℚ, fmul (F32.decode b) (F32.ofNat 1024) = .fin t)

/-- R117 (a): with valid weights the binary32 sum of any pixel is finite and in `0 ≤ v < 255.001`, so that both roundings
give 0..255 without a clamp. -/
def Obligations.GrayFloatSumsNeedNoClamp : Prop :=
  ∀ (r : Regs) (R G B : Nat), r.weightsValid = true → R ≤ 255 → G ≤ 255 → B ≤ 255 →
    ∃ v : ℚ, grayFormula r R G B = .fin v ∧ 0 ≤ v ∧ v < 255001 / 1000 ∧
      0 ≤ rhaz v ∧ rhaz v ≤ 255 ∧ 0 ≤ rne v ∧ rne v ≤ 255

/-- R113, R117 (b): with valid weights the quantised weights are 0..1024 and sum to 1023, 1024 or 1025, and GRAY.I's
accumulator and result stay in range. -/
def Obligations.QuantisedWeightsAndSumsStayInRange : Prop :=
  ∀ r : Regs, r.weightsValidI = true →
    (∀ b ∈ [r.wgtR, r.wgtG, r.wgtB], 0 ≤ quantFormula r b ∧ quantFormula r b ≤ 1024) ∧
    (let q := quantFormula r r.wgtR + quantFormula r r.wgtG + quantFormula r r.wgtB
     q = 1023 ∨ q = 1024 ∨ q = 1025) ∧
    ∀ R G B : Nat, R ≤ 255 → G ≤ 255 → B ≤ 255 →
      0 ≤ accFormula r R G B ∧ accFormula r R G B ≤ 261375 ∧ accFormula r R G B / 1024 ≤ 255

/-- R112: GRAY.A, its encoding, its static faults in order, its result, its frame, and the rule's corner cases and
example. -/
def Obligations.GrayAWritesTheRoundedFloatSum : Prop :=
  encode .grayA = 0x00000001#32 ∧
  (∀ s : State, s.regs.status.err = false →
    rowGrayA.StaticFaults .grayA s ∧
    (rowGrayA.Ready s → ∃ t, exec .grayA s = .next t ∧ s.Completes t 0x00000001#32 ∧
      s.KeepsOutside t (s.regs.inRange .lum) ∧
      ∀ x y, x < s.regs.w → y < s.regs.h → t.mem.read (s.regs.base .lum + y * s.regs.w + x) =
        BitVec.ofInt 8 (rhaz (grayFormula s.regs (colourAt s x y 0) (colourAt s x y 1) (colourAt s x y 2)).val))) ∧
  (∀ k : Nat, rhaz ((k : ℚ) + 1 / 2) = k + 1) ∧
  (∀ r : Regs, r.weightsValid = true → grayFormula r 0 0 0 = .fin 0 ∧
    ∀ R G B : Nat, (F32.decode r.wgtR = .fin 0 → grayFormula r R G B = grayFormula r 0 G B) ∧
      (F32.decode r.wgtG = .fin 0 → grayFormula r R G B = grayFormula r R 0 B) ∧
      (F32.decode r.wgtB = .fin 0 → grayFormula r R G B = grayFormula r R G 0)) ∧
  sumFormula State.reset.regs = .fin 1 ∧
  (∀ b ∈ [Regs.reset.wgtR, Regs.reset.wgtG, Regs.reset.wgtB], fdiv (F32.decode b) (.fin 1) = F32.decode b) ∧
  (let v := grayFormula State.reset.regs 10 20 30
   v = F32.decode 0x4194C49C#32 ∧ rhaz v.val = 19)

/-- R114: GRAY.I, with the quantised weights of R113 in place, the range of its sum and the rule's corner cases and
example. -/
def Obligations.GrayIWritesTheTruncatedQuantisedSum : Prop :=
  encode .grayI = 0x00000011#32 ∧
  (∀ s : State, s.regs.status.err = false →
    rowGrayI.StaticFaults .grayI s ∧
    (rowGrayI.Ready s → ∃ t, exec .grayI s = .next t ∧ s.Completes t 0x00000011#32 ∧
      s.KeepsOutside t (s.regs.inRange .lum) ∧
      ∀ x y, x < s.regs.w → y < s.regs.h → t.mem.read (s.regs.base .lum + y * s.regs.w + x) =
        BitVec.ofInt 8 (accFormula s.regs (colourAt s x y 0) (colourAt s x y 1) (colourAt s x y 2) / 1024))) ∧
  (∀ r : Regs, r.weightsValidI = true →
    (∀ R G B : Nat, R ≤ 255 → G ≤ 255 → B ≤ 255 →
      0 ≤ accFormula r R G B ∧ accFormula r R G B ≤ 261375 ∧ accFormula r R G B / 1024 ≤ 255) ∧
    (accFormula r 255 255 255 / 1024 = 255 ↔
      1024 ≤ quantFormula r r.wgtR + quantFormula r r.wgtG + quantFormula r r.wgtB)) ∧
  quantFormula State.reset.regs Regs.reset.wgtR = 218 ∧ quantFormula State.reset.regs Regs.reset.wgtG = 732 ∧
  quantFormula State.reset.regs Regs.reset.wgtB = 74 ∧
  accFormula { Regs.reset with wgtR := 0x3F800000#32, wgtG := 0x3F800000#32, wgtB := 0x3F800000#32 } 255 255 255 / 1024 =
    254 ∧
  accFormula State.reset.regs 10 20 30 = 19040 ∧ accFormula State.reset.regs 10 20 30 / 1024 = 18

/-- R115: GRAY.V, the first `4·(N div 4)` pixels in linear order by the lane formula, the rest by the scalar one; the lane
formula's saturation changes nothing, and it is 1 below GRAY.A exactly on a tie with an even floor. -/
def Obligations.GrayVWritesLaneGroupsThenScalarRemainder : Prop :=
  encode .grayV = 0x00000021#32 ∧
  (∀ s : State, s.regs.status.err = false →
    rowGrayV.StaticFaults .grayV s ∧
    (rowGrayV.Ready s → ∃ t, exec .grayV s = .next t ∧ s.Completes t 0x00000021#32 ∧
      s.KeepsOutside t (s.regs.inRange .lum) ∧
      ∀ x y, x < s.regs.w → y < s.regs.h →
        let v := (grayFormula s.regs (colourAt s x y 0) (colourAt s x y 1) (colourAt s x y 2)).val
        t.mem.read (s.regs.base .lum + y * s.regs.w + x) =
          BitVec.ofInt 8 (if y * s.regs.w + x < 4 * (s.regs.w * s.regs.h / 4) then sat8 (rne v) else rhaz v))) ∧
  (∀ (r : Regs) (R G B : Nat), r.weightsValid = true → R ≤ 255 → G ≤ 255 → B ≤ 255 →
    let v := (grayFormula r R G B).val
    sat8 (rne v) = rne v ∧
      (rne v = rhaz v - 1 ∧ v - (⌊v⌋ : ℚ) = 1 / 2 ∧ ⌊v⌋ % 2 = 0 ∨
        rne v = rhaz v ∧ ¬(v - (⌊v⌋ : ℚ) = 1 / 2 ∧ ⌊v⌋ % 2 = 0))) ∧
  (let v := grayFormula State.reset.regs 0 41 44
   v = F32.decode 0x42020000#32 ∧ sat8 (rne v.val) = 32 ∧ rhaz v.val = 33 ∧ accFormula State.reset.regs 0 41 44 / 1024 = 32)

/-! ### Convolution -/

/-- R132: EDGE.A, its result with `rhaz(abs(a)/4)` as `(abs(a) + 2) div 4`, and the rule's corner cases (a constant
raster; one pixel is a constant raster with no neighbour) and example. ERR_ADDR follows R195's formula also for
2^32-byte rasters at base 0, which is the model's choice (log entry 19). -/
def Obligations.EdgeAWritesTheRoundedEdgeMagnitude : Prop :=
  encode .edgeA = 0x00000002#32 ∧
  (∀ a : Int, edgeRound a = (a.natAbs + 2) / 4) ∧
  (∀ (s : State) (k x y : Nat), ConstLum s k → x < s.regs.w → y < s.regs.h →
    edgeSum (lumAt s) x y = (s.regs.crossTaps x y - 4) * k) ∧
  edgeSum (rasterOf 3 [10, 10, 200, 10, 33, 200, 54, 182, 18]) 1 1 = 270 ∧ edgeRound 270 = 68 ∧
  ∀ s : State, s.regs.status.err = false →
    rowEdgeA.StaticFaults .edgeA s ∧
    (rowEdgeA.Ready s → ∃ t, exec .edgeA s = .next t ∧ s.Completes t 0x00000002#32 ∧
      s.KeepsOutside t (s.regs.inRange .edge) ∧
      ∀ x y : Nat, x < s.regs.w → y < s.regs.h →
        -1020 ≤ edgeSum (lumAt s) x y ∧ edgeSum (lumAt s) x y ≤ 1020 ∧
        (t.mem.read (s.regs.base .edge + y * s.regs.w + x)).toNat = ((edgeSum (lumAt s) x y).natAbs + 2) / 4)

/-- R133: BLUR.A, its result with `rhaz(a/16)` as `(a + 8) div 16`, and the rule's corner cases (a constant raster sums
the weights 16 inside, 12 on an edge, 9 in a corner, 4 where there is one pixel) and example. ERR_ADDR follows R195's
formula also for 2^32-byte rasters at base 0, which is the model's choice (log entry 19). -/
def Obligations.BlurAWritesTheRoundedBlur : Prop :=
  encode .blurA = 0x00000003#32 ∧
  (∀ a : Int, 0 ≤ a → blurRound a = (a + 8) / 16) ∧
  (∀ (s : State) (k x y : Nat), ConstLum s k → x < s.regs.w → y < s.regs.h →
    blurSum (lumAt s) x y = reach s.regs.w x * reach s.regs.h y * k) ∧
  blurRound (4 * 255) = 64 ∧ blurRound (16 * 127) = 127 ∧ blurRound (12 * 127) = 95 ∧ blurRound (9 * 127) = 71 ∧
  ∀ s : State, s.regs.status.err = false →
    rowBlurA.StaticFaults .blurA s ∧
    (rowBlurA.Ready s → ∃ t, exec .blurA s = .next t ∧ s.Completes t 0x00000003#32 ∧
      s.KeepsOutside t (s.regs.inRange .blur) ∧
      ∀ x y : Nat, x < s.regs.w → y < s.regs.h →
        0 ≤ blurSum (lumAt s) x y ∧ blurSum (lumAt s) x y ≤ 4080 ∧
        ((t.mem.read (s.regs.base .blur + y * s.regs.w + x)).toNat : Int) = (blurSum (lumAt s) x y + 8) / 16)

/-- R134: CONV.I, both responses, truncated; how they compare with EDGE.A and BLUR.A, and the rule's corner case and
example. ERR_ADDR follows R195's formula also for 2^32-byte rasters at base 0, which is the model's choice (log entry
19). -/
def Obligations.ConvIWritesBothTruncatedResponses : Prop :=
  encode .convI = 0x00000014#32 ∧
  (∀ a : Int, (a.tdiv 4).natAbs = a.natAbs / 4 ∧
    edgeTrunc a = edgeRound a - (if a.natAbs % 4 = 2 ∨ a.natAbs % 4 = 3 then 1 else 0) ∧
    (0 ≤ a → blurTrunc a = blurRound a - (if 8 ≤ a % 16 then 1 else 0))) ∧
  (∀ s : State, s.regs.w = 1 → s.regs.h = 1 → ConstLum s 255 →
    (edgeSum (lumAt s) 0 0).natAbs / 4 = 255 ∧ blurSum (lumAt s) 0 0 / 16 = 63) ∧
  (let f := rasterOf 3 [10, 10, 200, 10, 32, 200, 54, 182, 18]
   edgeSum f 1 1 = 274 ∧ edgeTrunc 274 = 68 ∧ blurSum f 1 1 = 1214 ∧ blurTrunc 1214 = 75) ∧
  ∀ s : State, s.regs.status.err = false →
    rowConvI.StaticFaults .convI s ∧
    (rowConvI.Ready s → ∃ t, exec .convI s = .next t ∧ s.Completes t 0x00000014#32 ∧
      s.KeepsOutside t (fun a => s.regs.inRange .edge a ∨ s.regs.inRange .blur a) ∧
      ∀ x y : Nat, x < s.regs.w → y < s.regs.h →
        (t.mem.read (s.regs.base .edge + y * s.regs.w + x)).toNat = (edgeSum (lumAt s) x y).natAbs / 4 ∧
        ((t.mem.read (s.regs.base .blur + y * s.regs.w + x)).toNat : Int) = blurSum (lumAt s) x y / 16)

/-- R137, R198: CONV.V, both responses from the widened raster, the border rings of its destinations untouched; and
ERR_RANGE, after which nothing is claimed of its destination samples and every other byte is unchanged; with the rule's
example. The counter of the free values, which `RangeFaults` says advances, is the model's choice (log entry 6). -/
def Obligations.ConvVWritesInteriorsOrFaultsOnLargeSamples : Prop :=
  encode .convV = 0x00000024#32 ∧
  (let f := rasterOf 3 [10, 10, 200, 10, 32, 200, 54, 182, 18]
   blurSum f 0 0 = 112 ∧ blurTrunc 112 = 7 ∧ edgeSum f 0 0 = -20 ∧ edgeTrunc (-20) = 5) ∧
  ∀ s : State, s.regs.status.err = false →
    rowConvV.StaticFaults .convV s ∧
    (rowConvV.Ready s → WlumSmall s → ∃ t, exec .convV s = .next t ∧ s.Completes t 0x00000024#32 ∧
      s.KeepsOutside t (fun a => s.regs.interiorByte .wedge a ∨ s.regs.interiorByte .wblur a) ∧
      ∀ x y : Nat, x < s.regs.w → y < s.regs.h →
        t.mem.read16 (s.regs.waddr .wedge (x + 1) (y + 1)) = (edgeSum (wlumAt s) x y).natAbs / 4 ∧
        (t.mem.read16 (s.regs.waddr .wblur (x + 1) (y + 1)) : Int) = blurSum (wlumAt s) x y / 16) ∧
    (rowConvV.Ready s → ¬WlumSmall s → ∃ t, exec .convV s = .next t ∧ s.RangeFaults t 0x00000024#32 4 ∧
      s.KeepsOutside t (fun a => s.regs.interiorByte .wedge a ∨ s.regs.interiorByte .wblur a))

/-- R150: PAD.V, the interior only, each byte zero-extended to 16 bits; the border ring keeps its bytes (R151); where the
samples of a 1×1 and of a 2×2 raster go. -/
def Obligations.PadVWidensTheInteriorOnly : Prop :=
  encode .padV = 0x00000025#32 ∧
  (∀ r : Regs, (r.w = 1 → r.waddr .wlum 1 1 = r.base .wlum + 8) ∧
    (r.w = 2 → r.waddr .wlum 1 1 = r.base .wlum + 10 ∧ r.waddr .wlum 2 1 = r.base .wlum + 12 ∧
      r.waddr .wlum 1 2 = r.base .wlum + 18 ∧ r.waddr .wlum 2 2 = r.base .wlum + 20)) ∧
  ∀ s : State, s.regs.status.err = false →
    rowPadV.StaticFaults .padV s ∧
    (rowPadV.Ready s → ∃ t, exec .padV s = .next t ∧ s.Completes t 0x00000025#32 ∧
      s.KeepsOutside t (s.regs.interiorByte .wlum) ∧
      ∀ x y : Nat, x < s.regs.w → y < s.regs.h →
        t.mem.read16 (s.regs.waddr .wlum (x + 1) (y + 1)) = byteAt s .lum x y)

/-- R138: with a zero border ring, CONV.V after PAD.V leaves in the interiors of WEDGE and WBLUR, at every pixel, the values
that CONV.I leaves in EDGE and BLUR. -/
def Obligations.ConvVAfterPadVEqualsConvI : Prop :=
  ∀ s : State, s.regs.status.err = false → rowConvI.Ready s → rowPadV.Ready s → rowConvV.Ready s → RingAtMost s 0 →
    ∃ t u, exec .convI s = .next t ∧ issueAll [.padV, .convV] s = some u ∧ u.regs.status.done = true ∧
      ∀ x y : Nat, x < s.regs.w → y < s.regs.h →
        wideAt u .wedge x y = byteAt t .edge x y ∧ wideAt u .wblur x y = byteAt t .blur x y

/-- R141: on a constant raster the interior responses are `k` and 0, rounded or truncated; CONV.V's too, on the raster's
widening. -/
def Obligations.ConstantRasterInteriorResponses : Prop :=
  (∀ (s : State) (k x y : Nat), ConstLum s k → 1 ≤ x → x + 2 ≤ s.regs.w → 1 ≤ y → y + 2 ≤ s.regs.h →
    edgeRound (accP s.regs s.mem kEdge x y) = 0 ∧ edgeTrunc (accP s.regs s.mem kEdge x y) = 0 ∧
    blurRound (accP s.regs s.mem kBlur x y) = k ∧ blurTrunc (accP s.regs s.mem kBlur x y) = k) ∧
  ∀ (s : State) (k x y : Nat), (∀ u v, u < s.regs.w → v < s.regs.h → wideAt s .wlum u v = k) →
    1 ≤ x → x + 2 ≤ s.regs.w → 1 ≤ y → y + 2 ≤ s.regs.h →
    edgeTrunc (accW s.regs s.mem kEdge x y) = 0 ∧ blurTrunc (accW s.regs s.mem kBlur x y) = k

/-! ### Blending -/

/-- R161: COMB.A, with the rule's binary32 pseudocode, its corner cases and example. ERR_ADDR follows R195's formula
also for 2^32-byte rasters at base 0, which is the model's choice (log entry 19). -/
def Obligations.CombAWritesTheRoundedBlend : Prop :=
  encode .combA = 0x00000006#32 ∧
  (∀ e o b : Nat, e ≤ 255 → o ≤ 255 → b ≤ 255 →
    blendFormula 0 o b = .fin b ∧ blendFormula 255 o b = .fin o ∧ rhaz (blendFormula e o o).val = o ∧
    0 ≤ rhaz (blendFormula e o b).val ∧ rhaz (blendFormula e o b).val ≤ 255 ∧
    (numFormula e o b : ℚ) / 255 - (⌊(numFormula e o b : ℚ) / 255⌋ : ℚ) ≠ 1 / 2) ∧
  numFormula 68 33 76 = 16456 ∧ rhaz (blendFormula 68 33 76).val = 65 ∧
  ∀ s : State, s.regs.status.err = false →
    rowCombA.StaticFaults .combA s ∧
    (rowCombA.Ready s → ∃ t, exec .combA s = .next t ∧ s.Completes t 0x00000006#32 ∧
      s.KeepsOutside t (s.regs.inRange .out) ∧
      ∀ x y : Nat, x < s.regs.w → y < s.regs.h → t.mem.read (s.regs.base .out + y * s.regs.w + x) =
        BitVec.ofInt 8 (rhaz (blendFormula (byteAt s .edge x y) (byteAt s .lum x y) (byteAt s .blur x y)).val))

/-- R161, D4: the binary32 pseudocode of COMB.A is, for all samples, the exact blend rounded to nearest. -/
def Obligations.CombABinary32EqualsExactRounding : Prop :=
  ∀ e o b : Nat, e ≤ 255 → o ≤ 255 → b ≤ 255 →
    rhaz (blendFormula e o b).val = (2 * numFormula e o b + 255) / 510

/-- R162: COMB.I, with the rule's corner cases and example. ERR_ADDR follows R195's formula also for 2^32-byte rasters
at base 0, which is the model's choice (log entry 19). -/
def Obligations.CombIWritesTheTruncatedBlend : Prop :=
  encode .combI = 0x00000016#32 ∧
  (∀ e o b : Nat, e ≤ 255 → o ≤ 255 → b ≤ 255 →
    numFormula 0 o b / 255 = b ∧ numFormula 255 o b / 255 = o ∧ 0 ≤ numFormula e o b ∧ numFormula e o b ≤ 65025) ∧
  numFormula 1 3 130 = 33023 ∧ numFormula 1 3 130 / 255 = 129 ∧ rhaz (blendFormula 1 3 130).val = 130 ∧
  ∀ s : State, s.regs.status.err = false →
    rowCombI.StaticFaults .combI s ∧
    (rowCombI.Ready s → ∃ t, exec .combI s = .next t ∧ s.Completes t 0x00000016#32 ∧
      s.KeepsOutside t (s.regs.inRange .out) ∧
      ∀ x y : Nat, x < s.regs.w → y < s.regs.h →
        ((t.mem.read (s.regs.base .out + y * s.regs.w + x)).toNat : Int) =
          numFormula (byteAt s .edge x y) (byteAt s .lum x y) (byteAt s .blur x y) / 255)

/-- R163: COMB.V, the lane formula in the row's lane-group body and the integer formula in its remainder; ERR_RANGE on an
interior sample above 255 of any source; and the rule's corner cases and example. The counter of the free values, which
`RangeFaults` says advances, is the model's choice (log entry 6). -/
def Obligations.CombVWritesLaneBodyThenRemainder : Prop :=
  encode .combV = 0x00000026#32 ∧
  (∀ e o b : Nat, e ≤ 255 → o ≤ 255 → b ≤ 255 →
    blendLane e o b = numFormula e o b / 256 ∧ blendLane e o b ≤ 254 ∧
    blendLane 255 o b = (o - 1 : Nat) ∧ blendLane 0 o b = (b - 1 : Nat)) ∧
  (∀ W n : Nat, (W < n → n * (W / n) = 0) ∧ (n ∣ W → n * (W / n) = W)) ∧
  numFormula 255 200 100 = 51000 ∧ blendLane 255 200 100 = 199 ∧ blendTrunc 255 200 100 = 200 ∧ 4 * (5 / 4) = 4 ∧
  ∀ s : State, s.regs.status.err = false →
    rowCombV.StaticFaults .combV s ∧
    (rowCombV.Ready s → InteriorSmall s .wlum ∧ InteriorSmall s .wedge ∧ InteriorSmall s .wblur →
      ∃ t, exec .combV s = .next t ∧ s.Completes t 0x00000026#32 ∧ s.KeepsOutside t (s.regs.inRange .out) ∧
      ∀ x y : Nat, x < s.regs.w → y < s.regs.h →
        let n := numFormula (wideAt s .wedge x y) (wideAt s .wlum x y) (wideAt s .wblur x y)
        ((t.mem.read (s.regs.base .out + y * s.regs.w + x)).toNat : Int) =
          if x < s.regs.laneCount * (s.regs.w / s.regs.laneCount) then n / 256 else n / 255) ∧
    (rowCombV.Ready s → ¬(InteriorSmall s .wlum ∧ InteriorSmall s .wedge ∧ InteriorSmall s .wblur) →
      ∃ t, exec .combV s = .next t ∧ s.RangeFaults t 0x00000026#32 6 ∧ s.KeepsOutside t (s.regs.inRange .out))

/-- R164, S5: how the three blends differ: the accurate one is at most 1 above the integer one, which is 1 above the lane
formula exactly when `num mod 255 < num div 255` and equal to it otherwise. -/
def Obligations.CombinerTiersDifferAsR164Says : Prop :=
  ∀ e o b : Nat, e ≤ 255 → o ≤ 255 → b ≤ 255 →
    (blendRound e o b = blendTrunc e o b ∨ blendRound e o b = blendTrunc e o b + 1) ∧
    (numFormula e o b % 255 < numFormula e o b / 255 → blendLane e o b = blendTrunc e o b - 1) ∧
    (¬numFormula e o b % 255 < numFormula e o b / 255 → blendLane e o b = blendTrunc e o b)

/-! ### The pipeline -/

/-- R180: from every state in which a command is accepted, a PIPE command leaves exactly what its stage commands issued one
by one leave, whether they complete or one of them faults (the later ones are then ignored), except that CMD holds the PIPE
word. That the bytes ERR_RANGE leaves in a destination are the same in the two runs is the model's choice, not R180's: they
share the free values (log entry 6). -/
def Obligations.PipesAreTheirStagesInSequence : Prop :=
  encode .pipeA = 0x00000007#32 ∧ encode .pipeI = 0x00000017#32 ∧ encode .pipeV = 0x00000027#32 ∧
  ∀ s : State, s.regs.status.err = false →
    (∃ t, issueAll [.grayA, .edgeA, .blurA, .combA] s = some t ∧ exec .pipeA s = .next (t.withCmd 0x00000007#32)) ∧
    (∃ t, issueAll [.grayI, .convI, .combI] s = some t ∧ exec .pipeI s = .next (t.withCmd 0x00000017#32)) ∧
    (∃ t, issueAll [.grayV, .padV, .convV, .combV] s = some t ∧ exec .pipeV s = .next (t.withCmd 0x00000027#32))

/-- R181 to R183: where the checks of every stage pass, a PIPE command completes with DONE set; for PIPE.V the only further
condition is that no border sample of WLUM is above 255 (R183). -/
def Obligations.PipesCompleteWhenEveryStageIsReady : Prop :=
  ∀ s : State, s.regs.status.err = false →
    (rowGrayA.Ready s → rowEdgeA.Ready s → rowBlurA.Ready s → rowCombA.Ready s →
      ∃ t, exec .pipeA s = .next t ∧ s.Completes t 0x00000007#32) ∧
    (rowGrayI.Ready s → rowConvI.Ready s → rowCombI.Ready s →
      ∃ t, exec .pipeI s = .next t ∧ s.Completes t 0x00000017#32) ∧
    (rowGrayV.Ready s → rowPadV.Ready s → rowConvV.Ready s → rowCombV.Ready s → RingAtMost s 255 →
      ∃ t, exec .pipeV s = .next t ∧ s.Completes t 0x00000027#32)

/-! ### Rules of the whole machine -/

/-- Every command answers a next state, in every state: a fault of the hardware is entered in STATUS and stops nothing
(R201). -/
def Obligations.EveryCommandAnswersANextState : Prop := ∀ (i : Instr) (s : State), ∃ t, exec i s = .next t

/-- R41, R118, R141: whatever a command does, completing or faulting, it writes no register but CMD and STATUS, nothing of
the platform or the host, and no byte outside the ranges of its destinations. -/
def Obligations.CommandsWriteOnlyStatusCmdAndDestinations : Prop :=
  ∀ (i : Instr) (s t : State), exec i s = .next t →
    t.regs = { s.regs with cmd := t.regs.cmd, status := t.regs.status } ∧ t.holes = s.holes ∧ t.host = s.host ∧
    t.replies = s.replies ∧ ∀ a, (∀ b ∈ destsOf i, ¬s.regs.inRange b a) → t.mem.read a = s.mem.read a

/-- R194: no command but those with a GRAY stage looks at the weights. After ERR_RANGE the two runs compared share the free
values (log entry 6). -/
def Obligations.OnlyGrayCommandsReadTheWeights : Prop :=
  ∀ (i : Instr) (s : State) (wr wg wb : Word),
    i ∉ [Instr.grayA, .grayI, .grayV, .pipeA, .pipeI, .pipeV] →
    ∀ t, exec i s = .next t →
      exec i { s with regs := { s.regs with wgtR := wr, wgtG := wg, wgtB := wb } } =
        .next { t with regs := { t.regs with wgtR := wr, wgtG := wg, wgtB := wb } }

/-- R164, R192: LANES is not an operand of the commands without a vector stage of 16-bit samples, whatever its value; and
PAD.V and CONV.V do the same for every legal value of it. After ERR_RANGE the two runs compared share the free values (log
entry 6). -/
def Obligations.LanesShowOnlyInCombV : Prop :=
  ∀ (i : Instr) (s : State) (n : BitVec 7) (t : State), exec i s = .next t →
    (i ∉ [Instr.padV, .convV, .combV, .pipeV] →
      exec i { s with regs := { s.regs with lanes := n } } = .next { t with regs := { t.regs with lanes := n } }) ∧
    (i = .padV ∨ i = .convV → 1 ≤ s.regs.lanes.toNat → s.regs.lanes.toNat ≤ 64 → 1 ≤ n.toNat → n.toNat ≤ 64 →
      exec i { s with regs := { s.regs with lanes := n } } = .next { t with regs := { t.regs with lanes := n } })

/-- S7, R118: a completed stage command, issued again at once, completes again and leaves every byte as it is. -/
def Obligations.StageCommandsAreIdempotent : Prop :=
  ∀ (i : Instr) (w : Row) (s t : State), rowOf i = some w → s.regs.status.err = false → exec i s = .next t →
    t.regs.status.done = true → ∃ u, exec i t = .next u ∧ u.regs = t.regs ∧ ∀ a, u.mem.read a = t.mem.read a

/-- The reset state meets the invariant. -/
def Obligations.ResetStateMeetsTheInvariant : Prop := State.reset.Inv

/-- Every step keeps the invariant: memory stays canonical and inside MEM, and STATUS stays one the rules can produce. -/
def Obligations.StepKeepsTheInvariant : Prop := ∀ s t : State, s.Inv → step s = .next t → t.Inv

/-- A machine with a well-formed script never stops, however long it runs: each step answers a next state with a
well-formed script. -/
def Obligations.WellFormedScriptsNeverStop : Prop :=
  ∀ (k : Nat) (s : State), s.scriptOk = true → ∃ t, Host.Core.run core k s = .next t ∧ t.scriptOk = true
end

