-- ==== Sys2Proof/Laws/Memory.lean ====
section
/-! SUPPORT. The laws of memory: what a read returns after writes, and that every write keeps the canonical form. -/

namespace Sys2Proof.Machine

/-! ### One byte -/

theorem lookupCell_insertCell (l : List Host.Cell) (a : Nat) (b : Byte) (x : Nat) :
    lookupCell (insertCell l a b) x = if a = x then some b else lookupCell l x := by
  induction l with
  | nil => rfl
  | cons c rest ih =>
    obtain ⟨k, v⟩ := c
    by_cases h1 : a < k
    · simp [insertCell, h1, lookupCell]
    · by_cases h2 : a = k
      · subst h2
        by_cases h3 : a = x <;> simp [insertCell, lookupCell, h3]
      · by_cases h3 : k = x
        · subst h3; simp [insertCell, h1, h2, lookupCell]
        · simp [insertCell, h1, h2, lookupCell, h3, ih]

theorem lookupCell_removeCell (l : List Host.Cell) (a x : Nat) :
    lookupCell (removeCell l a) x = if a = x then none else lookupCell l x := by
  induction l with
  | nil => simp [removeCell, lookupCell]
  | cons c rest ih =>
    obtain ⟨k, v⟩ := c
    by_cases h : k = a
    · subst h
      by_cases h3 : k = x
      · subst h3; simp [removeCell, ih]
      · simp [removeCell, lookupCell, ih, h3]
    · by_cases h3 : k = x
      · subst h3; simp [removeCell, lookupCell, h, Ne.symm h]
      · simp [removeCell, lookupCell, h, h3, ih]

@[simp] theorem Memory.write_fill (m : Memory) (a : Nat) (b : Byte) : (m.write a b).fill = m.fill := rfl

/-- The one law of reads and writes. -/
theorem Memory.read_write (m : Memory) (a : Nat) (b : Byte) (x : Nat) :
    (m.write a b).read x = if a = x then b else m.read x := by
  by_cases hb : b = m.fill
  · by_cases h : a = x <;> simp [Memory.read, Memory.write, hb, lookupCell_removeCell, h]
  · by_cases h : a = x <;> simp [Memory.read, Memory.write, hb, lookupCell_insertCell, h]

/-! ### Many bytes -/

@[simp] theorem Memory.writeAll_nil (m : Memory) : m.writeAll [] = m := rfl

@[simp] theorem Memory.writeAll_cons (m : Memory) (c : Host.Cell) (ws : List Host.Cell) :
    m.writeAll (c :: ws) = (m.write c.1 c.2).writeAll ws := rfl

theorem Memory.writeAll_append (m : Memory) (ws us : List Host.Cell) :
    m.writeAll (ws ++ us) = (m.writeAll ws).writeAll us := by
  simp [Memory.writeAll, List.foldl_append]

@[simp] theorem Memory.writeAll_fill (m : Memory) (ws : List Host.Cell) : (m.writeAll ws).fill = m.fill := by
  induction ws generalizing m with
  | nil => rfl
  | cons c ws ih => simp [ih]

/-- A byte that no write names reads as before. -/
theorem Memory.read_writeAll_of_notMem (m : Memory) (ws : List Host.Cell) (a : Nat) (h : ∀ c ∈ ws, c.1 ≠ a) :
    (m.writeAll ws).read a = m.read a := by
  induction ws generalizing m with
  | nil => rfl
  | cons c ws ih =>
    rw [Memory.writeAll_cons, ih _ fun d hd => h d (List.mem_cons_of_mem _ hd), Memory.read_write,
      if_neg (h c List.mem_cons_self)]

/-- A byte on whose value all the writes that name it agree, at least one, reads as that value. -/
theorem Memory.read_writeAll_of_mem (m : Memory) (ws : List Host.Cell) (a : Nat) (b : Byte) (hmem : (a, b) ∈ ws)
    (hall : ∀ c ∈ ws, c.1 = a → c.2 = b) : (m.writeAll ws).read a = b := by
  induction ws generalizing m with
  | nil => simp at hmem
  | cons c ws ih =>
    rw [Memory.writeAll_cons]
    by_cases hin : ∃ d ∈ ws, d.1 = a
    · obtain ⟨⟨da, db⟩, hd, rfl⟩ := hin
      have hv : db = b := hall _ (List.mem_cons_of_mem _ hd) rfl
      subst hv
      exact ih _ hd fun e he => hall e (List.mem_cons_of_mem _ he)
    · rw [Memory.read_writeAll_of_notMem _ _ _ fun d hd hda => hin ⟨d, hd, hda⟩, Memory.read_write]
      rcases List.mem_cons.1 hmem with rfl | hw
      · simp
      · exact absurd ⟨_, hw, rfl⟩ hin

/-- Every byte after the writes is the old one or the value of a write to it. -/
theorem Memory.read_writeAll_cases (m : Memory) (ws : List Host.Cell) (a : Nat) :
    (m.writeAll ws).read a = m.read a ∨ ∃ c ∈ ws, c.1 = a ∧ (m.writeAll ws).read a = c.2 := by
  induction ws generalizing m with
  | nil => exact .inl rfl
  | cons c ws ih =>
    rw [Memory.writeAll_cons]
    rcases ih (m.write c.1 c.2) with h | ⟨d, hd, hda, hv⟩
    · rw [Memory.read_write] at h
      by_cases hc : c.1 = a
      · rw [if_pos hc] at h
        exact .inr ⟨c, List.mem_cons_self, hc, h⟩
      · rw [if_neg hc] at h
        exact .inl h
    · exact .inr ⟨d, List.mem_cons_of_mem _ hd, hda, hv⟩

theorem mem_cellsAt (a : Nat) (bs : List Byte) (c : Host.Cell) :
    c ∈ cellsAt a bs ↔ ∃ k, a + k = c.1 ∧ bs[k]? = some c.2 := by
  induction bs generalizing a with
  | nil => simp [cellsAt]
  | cons b bs ih =>
    simp only [cellsAt, List.mem_cons, ih]
    constructor
    · rintro (rfl | ⟨k, hk, hb⟩)
      · exact ⟨0, by simp⟩
      · exact ⟨k + 1, by omega, by simpa using hb⟩
    · rintro ⟨k, hk, hb⟩
      cases k with
      | zero =>
        left
        have hb' : b = c.2 := by simpa using hb
        exact Prod.ext (by simpa using hk.symm) hb'.symm
      | succ k => exact .inr ⟨k, by omega, by simpa using hb⟩

/-! ### The canonical form -/

theorem risingFrom_mono {lo lo' : Nat} (h : lo' ≤ lo) : ∀ {l : List Host.Cell}, risingFrom lo l = true → risingFrom lo' l = true
  | [], _ => rfl
  | (k, _) :: _, hl => by
    simp only [risingFrom, Bool.and_eq_true, decide_eq_true_eq] at hl ⊢
    exact ⟨h.trans hl.1, hl.2⟩

theorem risingFrom_insertCell {a : Nat} {b : Byte} :
    ∀ {l : List Host.Cell} {lo : Nat}, lo ≤ a → risingFrom lo l = true → risingFrom lo (insertCell l a b) = true
  | [], lo, ha, _ => by simp [insertCell, risingFrom, ha]
  | (k, v) :: rest, lo, ha, hl => by
    simp only [risingFrom, Bool.and_eq_true, decide_eq_true_eq] at hl
    by_cases h1 : a < k
    · simp only [insertCell, if_pos h1, risingFrom, Bool.and_eq_true, decide_eq_true_eq]
      exact ⟨ha, h1, hl.2⟩
    · by_cases h2 : a = k
      · subst h2; simp [insertCell, risingFrom, hl]
      · simp only [insertCell, if_neg h1, if_neg h2, risingFrom, Bool.and_eq_true, decide_eq_true_eq]
        exact ⟨hl.1, risingFrom_insertCell (by omega) hl.2⟩

theorem risingFrom_removeCell {a : Nat} :
    ∀ {l : List Host.Cell} {lo : Nat}, risingFrom lo l = true → risingFrom lo (removeCell l a) = true
  | [], _, _ => rfl
  | (k, v) :: rest, lo, hl => by
    simp only [risingFrom, Bool.and_eq_true, decide_eq_true_eq] at hl
    by_cases h : k = a
    · rw [removeCell, if_pos h]
      exact risingFrom_mono (by omega) (risingFrom_removeCell hl.2)
    · simp only [removeCell, if_neg h, risingFrom, Bool.and_eq_true, decide_eq_true_eq]
      exact ⟨hl.1, risingFrom_removeCell hl.2⟩

theorem mem_insertCell {l : List Host.Cell} {a : Nat} {b : Byte} {c : Host.Cell} (h : c ∈ insertCell l a b) :
    c = (a, b) ∨ c ∈ l := by
  induction l with
  | nil => simpa [insertCell] using h
  | cons d rest ih =>
    obtain ⟨k, v⟩ := d
    by_cases h1 : a < k
    · simpa [insertCell, h1] using h
    · by_cases h2 : a = k
      · subst h2
        rcases List.mem_cons.1 (by simpa [insertCell] using h) with h | h
        · exact .inl h
        · exact .inr (List.mem_cons_of_mem _ h)
      · rcases List.mem_cons.1 (by simpa only [insertCell, if_neg h1, if_neg h2] using h) with h | h
        · exact .inr (by simp [h])
        · exact (ih h).imp_right (List.mem_cons_of_mem _)

theorem mem_removeCell {l : List Host.Cell} {a : Nat} {c : Host.Cell} (h : c ∈ removeCell l a) : c ∈ l := by
  induction l with
  | nil => exact h
  | cons d rest ih =>
    obtain ⟨k, v⟩ := d
    by_cases h1 : k = a
    · exact List.mem_cons_of_mem _ (ih (by simpa [removeCell, h1] using h))
    · rcases List.mem_cons.1 (by simpa only [removeCell, if_neg h1] using h) with h | h
      · simp [h]
      · exact List.mem_cons_of_mem _ (ih h)

theorem Memory.write_wf {m : Memory} (h : m.wf = true) (a : Nat) (b : Byte) : (m.write a b).wf = true := by
  simp only [Memory.wf, Bool.and_eq_true, List.all_eq_true, bne_iff_ne] at h ⊢
  obtain ⟨hr, hv⟩ := h
  by_cases hb : b = m.fill
  · simp only [Memory.write, if_pos hb]
    exact ⟨risingFrom_removeCell hr, fun c hc => hv c (mem_removeCell hc)⟩
  · simp only [Memory.write, if_neg hb]
    refine ⟨risingFrom_insertCell (Nat.zero_le _) hr, fun c hc => ?_⟩
    rcases mem_insertCell hc with rfl | hc
    · exact hb
    · exact hv c hc

theorem Memory.writeAll_wf {m : Memory} (h : m.wf = true) (ws : List Host.Cell) : (m.writeAll ws).wf = true := by
  induction ws generalizing m with
  | nil => exact h
  | cons c ws ih => exact ih (Memory.write_wf h _ _)

theorem Memory.write_inMem {m : Memory} (h : m.inMem = true) {a : Nat} (ha : a < Config.memSize) (b : Byte) :
    (m.write a b).inMem = true := by
  simp only [Memory.inMem, List.all_eq_true, decide_eq_true_eq] at h ⊢
  intro c hc
  by_cases hb : b = m.fill
  · exact h c (mem_removeCell (by simpa only [Memory.write, if_pos hb] using hc))
  · rcases mem_insertCell (by simpa only [Memory.write, if_neg hb] using hc) with rfl | hc
    · exact ha
    · exact h c hc

theorem Memory.writeAll_inMem {m : Memory} (h : m.inMem = true) {ws : List Host.Cell}
    (hw : ∀ c ∈ ws, c.1 < Config.memSize) : (m.writeAll ws).inMem = true := by
  induction ws generalizing m with
  | nil => exact h
  | cons c ws ih =>
    exact ih (Memory.write_inMem h (hw c List.mem_cons_self) _) fun d hd => hw d (List.mem_cons_of_mem _ hd)

/-- The memory of the reset state is canonical. -/
theorem reset_mem_wf : State.reset.mem.wf = true := rfl

end Sys2Proof.Machine
end

