-- ==== Sys2Proof/Laws/Operands.lean ====
section
/-! SUPPORT. The laws of the addressing forms: which addresses a raster's samples have, that two samples never share a
byte, and what a raster's writes leave in memory. -/

namespace Sys2Proof.Machine

@[simp] theorem mem_grid {w h x y : Nat} : (x, y) ∈ grid w h ↔ x < w ∧ y < h := by
  simp [grid]; tauto

@[simp] theorem Regs.mem_pixels {r : Regs} {x y : Nat} : (x, y) ∈ r.pixels ↔ x < r.w ∧ y < r.h := mem_grid

@[simp] theorem Regs.mem_widePixels {r : Regs} {x y : Nat} : (x, y) ∈ r.widePixels ↔ x < r.w + 2 ∧ y < r.h + 2 :=
  mem_grid

/-- A pixel's number is below the number of pixels. -/
theorem Regs.index_lt {r : Regs} {x y : Nat} (hx : x < r.w) (hy : y < r.h) : r.index x y < r.plainLen := by
  have h : (y + 1) * r.w ≤ r.h * r.w := Nat.mul_le_mul_right _ hy
  have h2 : r.w * r.h = r.h * r.w := Nat.mul_comm ..
  have h3 : (y + 1) * r.w = y * r.w + r.w := Nat.succ_mul ..
  simp only [Regs.index, Regs.plainLen]
  omega

/-- Column and row are recovered from `y·n + x`. -/
theorem rowMajor_inj {n x y x' y' : Nat} (hx : x < n) (hx' : x' < n) (h : y * n + x = y' * n + x') :
    x = x' ∧ y = y' := by
  have hn : 0 < n := Nat.lt_of_le_of_lt (Nat.zero_le _) hx
  have h1 : (y * n + x) % n = x := by rw [Nat.mul_comm, Nat.mul_add_mod, Nat.mod_eq_of_lt hx]
  have h2 : (y' * n + x') % n = x' := by rw [Nat.mul_comm, Nat.mul_add_mod, Nat.mod_eq_of_lt hx']
  have hxx : x = x' := by rw [← h1, ← h2, h]
  subst hxx
  exact ⟨rfl, Nat.eq_of_mul_eq_mul_right hn (Nat.add_right_cancel h)⟩

theorem Regs.paddr_inj {r : Regs} {b : Buffer} {x y x' y' : Nat} (hx : x < r.w) (hx' : x' < r.w)
    (h : r.paddr b x y = r.paddr b x' y') : x = x' ∧ y = y' :=
  rowMajor_inj hx hx' (by simpa [Regs.paddr, Regs.index] using h)

/-- A widened raster's sample lies wholly in its range. -/
theorem Regs.waddr_range {r : Regs} {b : Buffer} (hb : r.len b = r.wideLen) {X Y : Nat} (hX : X < r.w + 2)
    (hY : Y < r.h + 2) : r.base b ≤ r.waddr b X Y ∧ r.waddr b X Y + 1 < r.stop b := by
  have h : (Y + 1) * (r.w + 2) ≤ (r.h + 2) * (r.w + 2) := Nat.mul_le_mul_right _ hY
  have h3 : (Y + 1) * (r.w + 2) = Y * (r.w + 2) + (r.w + 2) := Nat.succ_mul ..
  have h4 : 2 * (r.w + 2) * (r.h + 2) = 2 * ((r.h + 2) * (r.w + 2)) := by ring
  simp only [Regs.waddr, Regs.stop, hb, Regs.wideLen]
  omega

/-- Two samples of one widened raster that share a byte are the same sample, and the byte is at the same place in it. -/
theorem Regs.waddr_inj {r : Regs} {b : Buffer} {X Y X' Y' i j : Nat} (hX : X < r.w + 2) (hX' : X' < r.w + 2)
    (hi : i < 2) (hj : j < 2) (h : r.waddr b X Y + i = r.waddr b X' Y' + j) : X = X' ∧ Y = Y' ∧ i = j := by
  simp only [Regs.waddr] at h
  have h1 : i = j ∧ Y * (r.w + 2) + X = Y' * (r.w + 2) + X' := by omega
  obtain ⟨hx, hy⟩ := rowMajor_inj hX hX' h1.2
  exact ⟨hx, hy, h1.1⟩

theorem Regs.paddr_range {r : Regs} {b : Buffer} (hb : r.len b = r.plainLen) {x y : Nat} (hx : x < r.w) (hy : y < r.h) :
    r.inRange b (r.paddr b x y) := by
  have := r.index_lt hx hy
  simp only [Regs.inRange, Regs.paddr, Regs.stop, hb]
  omega

theorem Regs.caddr_range {r : Regs} {x y c : Nat} (hx : x < r.w) (hy : y < r.h) (hc : c < 3) :
    r.inRange .rgb (r.caddr x y c) := by
  have := r.index_lt hx hy
  simp only [Regs.inRange, Regs.caddr, Regs.stop, Regs.len]
  omega

/-! ### A raster's writes -/

theorem mem_plainWrites {r : Regs} {b : Buffer} {f : Nat → Nat → Int} {c : Host.Cell} :
    c ∈ plainWrites r b f ↔ ∃ x y, x < r.w ∧ y < r.h ∧ c = (r.paddr b x y, BitVec.ofInt 8 (f x y)) := by
  simp only [plainWrites, List.mem_map, Prod.exists, Regs.mem_pixels]
  constructor
  · rintro ⟨x, y, ⟨hx, hy⟩, rfl⟩; exact ⟨x, y, hx, hy, rfl⟩
  · rintro ⟨x, y, hx, hy, rfl⟩; exact ⟨x, y, ⟨hx, hy⟩, rfl⟩

theorem mem_wideWrites {r : Regs} {b : Buffer} {f : Nat → Nat → Int} {c : Host.Cell} :
    c ∈ wideWrites r b f ↔ ∃ x y, x < r.w ∧ y < r.h ∧ c ∈ cells16 (r.waddr b (x + 1) (y + 1)) (BitVec.ofInt 16 (f x y)) := by
  simp only [wideWrites, List.mem_flatMap, Prod.exists, Regs.mem_pixels]
  constructor
  · rintro ⟨x, y, ⟨hx, hy⟩, h⟩; exact ⟨x, y, hx, hy, h⟩
  · rintro ⟨x, y, hx, hy, h⟩; exact ⟨x, y, ⟨hx, hy⟩, h⟩

theorem mem_wideWrites_addr {r : Regs} {b : Buffer} {f : Nat → Nat → Int} {c : Host.Cell} (h : c ∈ wideWrites r b f) :
    r.interiorByte b c.1 := by
  obtain ⟨x, y, hx, hy, hc⟩ := mem_wideWrites.1 h
  simp only [cells16, List.mem_cons, List.not_mem_nil, or_false] at hc
  rcases hc with rfl | rfl
  · exact ⟨x, y, 0, hx, hy, by decide, rfl⟩
  · exact ⟨x, y, 1, hx, hy, by decide, rfl⟩

theorem Regs.interiorByte_range {r : Regs} {b : Buffer} (hb : r.len b = r.wideLen) {a : Nat} (h : r.interiorByte b a) :
    r.inRange b a := by
  obtain ⟨x, y, i, hx, hy, hi, rfl⟩ := h
  have := Regs.waddr_range hb (X := x + 1) (Y := y + 1) (by omega) (by omega)
  exact ⟨by omega, by omega⟩

theorem mem_plainWrites_range {r : Regs} {b : Buffer} (hb : r.len b = r.plainLen) {f : Nat → Nat → Int} {c : Host.Cell}
    (h : c ∈ plainWrites r b f) : r.inRange b c.1 := by
  obtain ⟨x, y, hx, hy, rfl⟩ := mem_plainWrites.1 h
  exact Regs.paddr_range hb hx hy

/-- After a plain raster's writes each pixel's byte is its sample. -/
theorem read_plainWrites (r : Regs) (m : Memory) (b : Buffer) (f : Nat → Nat → Int) {x y : Nat} (hx : x < r.w)
    (hy : y < r.h) : (m.writeAll (plainWrites r b f)).read (r.paddr b x y) = BitVec.ofInt 8 (f x y) := by
  refine Memory.read_writeAll_of_mem _ _ _ _ (mem_plainWrites.2 ⟨x, y, hx, hy, rfl⟩) fun c hc ha => ?_
  obtain ⟨x', y', hx', hy', rfl⟩ := mem_plainWrites.1 hc
  obtain ⟨rfl, rfl⟩ := Regs.paddr_inj hx' hx ha
  rfl

/-- The two bytes of a 16-bit value, read back little-endian, are the value (R65). -/
theorem half_bytes (v : Half) : (v.extractLsb' 0 8).toNat + 256 * (v.extractLsb' 8 8).toNat = v.toNat := by
  have := v.isLt
  simp [BitVec.extractLsb'_toNat, Nat.shiftRight_eq_div_pow]
  omega

/-- After a widened raster's writes each interior sample is its pixel's. -/
theorem read16_wideWrites (r : Regs) (m : Memory) (b : Buffer) (f : Nat → Nat → Int) {x y : Nat} (hx : x < r.w)
    (hy : y < r.h) :
    (m.writeAll (wideWrites r b f)).read16 (r.waddr b (x + 1) (y + 1)) = (BitVec.ofInt 16 (f x y)).toNat := by
  have key : ∀ i < 2, ∀ v, (r.waddr b (x + 1) (y + 1) + i, v) ∈
      cells16 (r.waddr b (x + 1) (y + 1)) (BitVec.ofInt 16 (f x y)) →
      (m.writeAll (wideWrites r b f)).read (r.waddr b (x + 1) (y + 1) + i) = v := by
    intro i hi v hv
    refine Memory.read_writeAll_of_mem _ _ _ _ (mem_wideWrites.2 ⟨x, y, hx, hy, hv⟩) fun c hc ha => ?_
    obtain ⟨x', y', hx', hy', hc'⟩ := mem_wideWrites.1 hc
    simp only [cells16, List.mem_cons, List.not_mem_nil, or_false] at hc' hv
    rcases hc' with rfl | rfl
    · obtain ⟨hX, hY, rfl⟩ := Regs.waddr_inj (r := r) (b := b) (X := x' + 1) (Y := y' + 1) (X' := x + 1) (Y' := y + 1)
        (i := 0) (j := i) (by omega) (by omega) (by decide) hi ha
      obtain rfl : x' = x := by omega
      obtain rfl : y' = y := by omega
      rcases hv with hv | hv
      · exact (Prod.ext_iff.1 hv).2.symm
      · exact absurd (Prod.ext_iff.1 hv).1 (by simp)
    · obtain ⟨hX, hY, rfl⟩ := Regs.waddr_inj (r := r) (b := b) (X := x' + 1) (Y := y' + 1) (X' := x + 1) (Y' := y + 1)
        (i := 1) (j := i) (by omega) (by omega) (by decide) hi ha
      obtain rfl : x' = x := by omega
      obtain rfl : y' = y := by omega
      rcases hv with hv | hv
      · exact absurd (Prod.ext_iff.1 hv).1 (by simp)
      · exact (Prod.ext_iff.1 hv).2.symm
  have h0 := key 0 (by decide) _ (by simp only [cells16, Nat.add_zero]; exact List.mem_cons_self)
  have h1 := key 1 (by decide) _ (by simp only [cells16]; exact List.mem_cons_of_mem _ List.mem_cons_self)
  rw [Nat.add_zero] at h0
  simp only [Memory.read16, h0, h1]
  exact half_bytes _

end Sys2Proof.Machine
end

