-- ==== Sys2Proof/Laws/State.lean ====
section
/-! SUPPORT. One lemma per field per state update, each true by unfolding, so that no later proof unfolds one. -/

namespace Sys2Proof.Machine

section
variable (s : State) (r : Regs) (m : Memory) (t : Status) (ops : List HostOp) (p : Reply)

@[simp] theorem State.withRegs_regs : (s.withRegs r).regs = r := rfl
@[simp] theorem State.withRegs_mem : (s.withRegs r).mem = s.mem := rfl
@[simp] theorem State.withRegs_holes : (s.withRegs r).holes = s.holes := rfl
@[simp] theorem State.withRegs_host : (s.withRegs r).host = s.host := rfl
@[simp] theorem State.withRegs_replies : (s.withRegs r).replies = s.replies := rfl
@[simp] theorem State.withRegs_freeCount : (s.withRegs r).freeCount = s.freeCount := rfl

@[simp] theorem State.withMem_regs : (s.withMem m).regs = s.regs := rfl
@[simp] theorem State.withMem_mem : (s.withMem m).mem = m := rfl
@[simp] theorem State.withMem_holes : (s.withMem m).holes = s.holes := rfl
@[simp] theorem State.withMem_host : (s.withMem m).host = s.host := rfl
@[simp] theorem State.withMem_replies : (s.withMem m).replies = s.replies := rfl
@[simp] theorem State.withMem_freeCount : (s.withMem m).freeCount = s.freeCount := rfl

@[simp] theorem State.withStatus_regs : (s.withStatus t).regs = { s.regs with status := t } := rfl
@[simp] theorem State.withStatus_mem : (s.withStatus t).mem = s.mem := rfl
@[simp] theorem State.withStatus_holes : (s.withStatus t).holes = s.holes := rfl
@[simp] theorem State.withStatus_host : (s.withStatus t).host = s.host := rfl
@[simp] theorem State.withStatus_replies : (s.withStatus t).replies = s.replies := rfl
@[simp] theorem State.withStatus_freeCount : (s.withStatus t).freeCount = s.freeCount := rfl

@[simp] theorem State.withHost_regs : (s.withHost ops).regs = s.regs := rfl
@[simp] theorem State.withHost_mem : (s.withHost ops).mem = s.mem := rfl
@[simp] theorem State.withHost_holes : (s.withHost ops).holes = s.holes := rfl
@[simp] theorem State.withHost_host : (s.withHost ops).host = ops := rfl
@[simp] theorem State.withHost_replies : (s.withHost ops).replies = s.replies := rfl
@[simp] theorem State.withHost_freeCount : (s.withHost ops).freeCount = s.freeCount := rfl

@[simp] theorem State.reply_regs : (s.reply p).regs = s.regs := rfl
@[simp] theorem State.reply_mem : (s.reply p).mem = s.mem := rfl
@[simp] theorem State.reply_holes : (s.reply p).holes = s.holes := rfl
@[simp] theorem State.reply_host : (s.reply p).host = s.host := rfl
@[simp] theorem State.reply_replies : (s.reply p).replies = s.replies ++ [p] := rfl
@[simp] theorem State.reply_freeCount : (s.reply p).freeCount = s.freeCount := rfl

end

section
variable (t : Status) (f : ErrCode) (c : BitVec 4)

@[simp] theorem Status.started_done : t.started.done = false := rfl
@[simp] theorem Status.started_err : t.started.err = t.err := rfl
@[simp] theorem Status.started_ecode : t.started.ecode = t.ecode := rfl
@[simp] theorem Status.started_estage : t.started.estage = t.estage := rfl
@[simp] theorem Status.finished_done : t.finished.done = true := rfl
@[simp] theorem Status.finished_err : t.finished.err = t.err := rfl
@[simp] theorem Status.finished_ecode : t.finished.ecode = t.ecode := rfl
@[simp] theorem Status.finished_estage : t.finished.estage = t.estage := rfl
@[simp] theorem Status.raised_done : (t.raised f c).done = t.done := rfl
@[simp] theorem Status.raised_err : (t.raised f c).err = true := rfl
@[simp] theorem Status.raised_ecode : (t.raised f c).ecode = f.code := rfl
@[simp] theorem Status.raised_estage : (t.raised f c).estage = c := rfl

end

/-- The address functions read WIDTH, HEIGHT and the address registers only: a change of CMD or STATUS does not show. -/
@[simp] theorem Regs.w_cmdStatus (r : Regs) (c : Word) (t : Status) : { r with cmd := c, status := t }.w = r.w := rfl
@[simp] theorem Regs.h_cmdStatus (r : Regs) (c : Word) (t : Status) : { r with cmd := c, status := t }.h = r.h := rfl
@[simp] theorem Regs.laneCount_cmdStatus (r : Regs) (c : Word) (t : Status) :
    { r with cmd := c, status := t }.laneCount = r.laneCount := rfl
@[simp] theorem Regs.base_cmdStatus (r : Regs) (c : Word) (t : Status) (b : Buffer) :
    { r with cmd := c, status := t }.base b = r.base b := by cases b <;> rfl
@[simp] theorem Regs.len_cmdStatus (r : Regs) (c : Word) (t : Status) (b : Buffer) :
    { r with cmd := c, status := t }.len b = r.len b := by cases b <;> rfl

end Sys2Proof.Machine
end

