-- ==== Sys2Proof/Laws/Ops.lean ====
section
/-! SUPPORT. What the shared operations can do, each said once: the static checks as statements about addresses, the
running of stages, and the issue of a command. -/

namespace Sys2Proof.Machine

/-! ### The static checks -/

theorem Regs.lanesOk_iff (r : Regs) : r.lanesOk = true ↔ 1 ≤ r.laneCount ∧ r.laneCount ≤ 64 := by
  simp only [Regs.lanesOk, Bool.and_eq_true, decide_eq_true_eq]; rfl

theorem Regs.dimOk_iff (r : Regs) : r.dimOk = true ↔ 0 < r.w ∧ 0 < r.h := by
  simp [Regs.dimOk, Nat.pos_iff_ne_zero]

theorem Stage.addrOk_iff (st : Stage) (r : Regs) :
    st.addrOk r = true ↔ ∀ b ∈ st.buffers, r.base b + r.len b ≤ Config.memSize := by
  simp only [Stage.addrOk, List.all_eq_true, decide_eq_true_eq]; rfl

/-- The interval test of R196 is the emptiness of the intersection. -/
theorem Regs.apart_iff (r : Regs) (b c : Buffer) : r.apart b c = true ↔ ∀ a, ¬(r.inRange b a ∧ r.inRange c a) := by
  simp only [Regs.apart, decide_eq_true_eq, Regs.inRange]
  constructor
  · intro h a ha; omega
  · intro h
    by_contra hc
    exact h (max (r.base b) (r.base c)) (by omega)

/-- The hole test of R197 is the accessibility of every address of the range. -/
theorem Hole.misses_iff (h : Hole) (lo hi : Nat) :
    h.misses lo hi = true ↔ ∀ a, lo ≤ a → a < hi → ¬(h.lo ≤ a ∧ a < h.hi) := by
  simp only [Hole.misses, decide_eq_true_eq]
  constructor
  · intro h a ha; omega
  · intro h'
    by_contra hc
    exact h' (max h.lo lo) (by omega) (by omega) (by omega)

theorem State.accessible_iff (s : State) (a : Nat) :
    s.accessible a = true ↔ ∀ h ∈ s.holes, ¬(h.lo ≤ a ∧ a < h.hi) := by
  simp only [State.accessible, List.all_eq_true, Bool.not_eq_true', Bool.and_eq_false_iff, decide_eq_false_iff_not]
  exact ⟨fun h o ho hc => (h o ho).elim (· hc.1) (· hc.2), fun h o ho => not_and_or.1 (h o ho)⟩

theorem Stage.busOk_iff (st : Stage) (s : State) :
    st.busOk s.regs s.holes = true ↔ ∀ b ∈ st.buffers, ∀ a, s.regs.inRange b a → s.accessible a = true := by
  simp only [Stage.busOk, List.all_eq_true, Hole.misses_iff, State.accessible_iff, Regs.inRange, and_imp]
  exact ⟨fun h b hb a h1 h2 o ho => h b hb o ho a h1 h2, fun h b hb o ho a h1 h2 => h b hb a h1 h2 o ho⟩

theorem Stage.overlapOk_iff (st : Stage) (r : Regs) :
    st.overlapOk r = true ↔
      ∀ d ∈ st.dests, ∀ x ∈ st.buffers, x ≠ d → ∀ a, ¬(r.inRange d a ∧ r.inRange x a) := by
  simp only [Stage.overlapOk, List.all_eq_true, Bool.or_eq_true, decide_eq_true_eq, Regs.apart_iff]
  exact ⟨fun h d hd x hx hne => (h d hd x hx).resolve_left hne,
    fun h d hd x hx => Classical.or_iff_not_imp_left.2 (h d hd x hx)⟩

/-- A stage has no static fault exactly when all its checks pass (R200). -/
theorem Stage.staticFault_eq_none (st : Stage) (s : State) :
    st.staticFault s = none ↔
      (st.usesLanes = true → s.regs.lanesOk = true) ∧ s.regs.dimOk = true ∧ st.weightsOk s.regs = true ∧
        st.addrOk s.regs = true ∧ st.overlapOk s.regs = true ∧ st.busOk s.regs s.holes = true := by
  simp only [Stage.staticFault, Bool.and_eq_true, Bool.not_eq_true']
  split
  · rename_i h; simp [h.1, h.2]
  · rename_i h
    have h1 : st.usesLanes = true → s.regs.lanesOk = true := by
      intro hu; by_contra hc; exact h ⟨hu, by simpa using hc⟩
    split
    · simp_all
    · split
      · simp_all
      · split
        · simp_all
        · split
          · simp_all
          · split <;> simp_all

/-! ### Fault entry, acceptance -/

@[simp] theorem raise_regs (f : ErrCode) (c : BitVec 4) (s : State) :
    (raise f c s).regs = { s.regs with status := s.regs.status.raised f c } := rfl
@[simp] theorem raise_mem (f : ErrCode) (c : BitVec 4) (s : State) : (raise f c s).mem = s.mem := rfl
@[simp] theorem raise_holes (f : ErrCode) (c : BitVec 4) (s : State) : (raise f c s).holes = s.holes := rfl
@[simp] theorem raise_host (f : ErrCode) (c : BitVec 4) (s : State) : (raise f c s).host = s.host := rfl
@[simp] theorem raise_replies (f : ErrCode) (c : BitVec 4) (s : State) : (raise f c s).replies = s.replies := rfl
@[simp] theorem raise_freeCount (f : ErrCode) (c : BitVec 4) (s : State) : (raise f c s).freeCount = s.freeCount := rfl

@[simp] theorem accept_regs (c : Word) (s : State) :
    (accept c s).regs = { s.regs with cmd := c, status := s.regs.status.started } := rfl
@[simp] theorem accept_mem (c : Word) (s : State) : (accept c s).mem = s.mem := rfl
@[simp] theorem accept_holes (c : Word) (s : State) : (accept c s).holes = s.holes := rfl
@[simp] theorem accept_host (c : Word) (s : State) : (accept c s).host = s.host := rfl
@[simp] theorem accept_replies (c : Word) (s : State) : (accept c s).replies = s.replies := rfl
@[simp] theorem accept_freeCount (c : Word) (s : State) : (accept c s).freeCount = s.freeCount := rfl

/-! ### Stages -/

@[simp] theorem Stage.perform_regs (st : Stage) (s : State) : (st.perform s).regs = s.regs := rfl
@[simp] theorem Stage.perform_mem (st : Stage) (s : State) :
    (st.perform s).mem = s.mem.writeAll (st.writes s.regs s.mem) := rfl
@[simp] theorem Stage.perform_holes (st : Stage) (s : State) : (st.perform s).holes = s.holes := rfl
@[simp] theorem Stage.perform_host (st : Stage) (s : State) : (st.perform s).host = s.host := rfl
@[simp] theorem Stage.perform_replies (st : Stage) (s : State) : (st.perform s).replies = s.replies := rfl
@[simp] theorem Stage.perform_freeCount (st : Stage) (s : State) : (st.perform s).freeCount = s.freeCount := rfl

@[simp] theorem Stage.spoil_regs (st : Stage) (s : State) : (st.spoil s).regs = s.regs := rfl
@[simp] theorem Stage.spoil_mem (st : Stage) (s : State) : (st.spoil s).mem =
    s.mem.writeAll ((st.writes s.regs s.mem).map fun c => (c.1, Config.freeByte s.freeCount c.1)) := rfl
@[simp] theorem Stage.spoil_holes (st : Stage) (s : State) : (st.spoil s).holes = s.holes := rfl
@[simp] theorem Stage.spoil_host (st : Stage) (s : State) : (st.spoil s).host = s.host := rfl
@[simp] theorem Stage.spoil_replies (st : Stage) (s : State) : (st.spoil s).replies = s.replies := rfl
@[simp] theorem Stage.spoil_freeCount (st : Stage) (s : State) : (st.spoil s).freeCount = s.freeCount + 1 := rfl

/-- The three things that running a non-empty list of stages can do: a static fault of the first, its data fault, or its
completion and then the rest (R100, step 5). -/
theorem runStages_cons_cases (st : Stage) (rest : List Stage) (s : State) :
    (∃ f, st.staticFault s = some f ∧ runStages (st :: rest) s = raise f st.code s) ∨
    (st.staticFault s = none ∧ st.dataOk s.regs s.mem = false ∧
      runStages (st :: rest) s = raise .range st.code (st.spoil s)) ∨
    (st.staticFault s = none ∧ st.dataOk s.regs s.mem = true ∧
      runStages (st :: rest) s = runStages rest (st.perform s)) := by
  simp only [runStages]
  cases hf : st.staticFault s with
  | some f => exact .inl ⟨f, rfl, rfl⟩
  | none =>
    cases hd : st.dataOk s.regs s.mem with
    | false => exact .inr (.inl ⟨rfl, rfl, rfl⟩)
    | true => exact .inr (.inr ⟨rfl, rfl, rfl⟩)

/-- What running stages never changes. -/
theorem runStages_frame (l : List Stage) (s : State) :
    (runStages l s).regs = { s.regs with status := (runStages l s).regs.status } ∧
    (runStages l s).holes = s.holes ∧ (runStages l s).host = s.host ∧ (runStages l s).replies = s.replies ∧
    (runStages l s).mem.fill = s.mem.fill := by
  induction l generalizing s with
  | nil => exact ⟨rfl, rfl, rfl, rfl, rfl⟩
  | cons st rest ih =>
    obtain ⟨f, -, h⟩ | ⟨-, -, h⟩ | ⟨-, -, h⟩ := runStages_cons_cases st rest s
    · rw [h]; exact ⟨rfl, rfl, rfl, rfl, rfl⟩
    · rw [h]; exact ⟨rfl, rfl, rfl, rfl, by simp⟩
    · rw [h]
      obtain ⟨h1, h2, h3, h4, h5⟩ := ih (st.perform s)
      exact ⟨h1, h2, h3, h4, by simpa using h5⟩

/-- The canonical form survives any list of stages. -/
theorem runStages_wf (l : List Stage) {s : State} (h : s.mem.wf = true) : (runStages l s).mem.wf = true := by
  induction l generalizing s with
  | nil => exact h
  | cons st rest ih =>
    obtain ⟨f, -, he⟩ | ⟨-, -, he⟩ | ⟨-, -, he⟩ := runStages_cons_cases st rest s
    · rw [he]; exact h
    · rw [he]; exact Memory.writeAll_wf h _
    · rw [he]; exact ih (Memory.writeAll_wf h _)

/-! ### Issue -/

theorem issue_of_err (i : Instr) (l : List Stage) {s : State} (h : s.regs.status.err = true) : issue i l s = .next s := by
  simp [issue, h]

theorem issue_of_ready (i : Instr) (l : List Stage) {s : State} (h : s.regs.status.err = false) :
    issue i l s = .next (runStages l (accept (encode i) s)) := by
  simp [issue, h]

theorem issueIllegal_of_err (c : Word) {s : State} (h : s.regs.status.err = true) : issueIllegal c s = .next s := by
  simp [issueIllegal, h]

theorem issueIllegal_of_ready (c : Word) {s : State} (h : s.regs.status.err = false) :
    issueIllegal c s = .next (raise .cmd 0 (accept c s)) := by
  simp [issueIllegal, h]

/-! ### The register port -/

/-- The map of R32 from offsets to registers, read backwards. -/
theorem regAt_eq_some {k : Fin 64} {n : Reg} : regAt k = some n ↔ k = regIndex n := by
  constructor
  · revert k n; decide
  · rintro rfl; cases n <;> rfl

/-- The offsets above 0x40 are reserved. -/
theorem regAt_eq_none {k : Fin 64} : regAt k = none ↔ 16 < k.val := by revert k; decide

end Sys2Proof.Machine
end

