-- ==== Sys2Proof/Laws/Stages.lean ====
section
/-! SUPPORT. What is true of each of the eleven stages: where it writes, what it ignores, and which faults it can raise. -/

namespace Sys2Proof.Machine

/-- What every stage of the block satisfies. -/
structure Stage.Sound (st : Stage) : Prop where
  /-- it writes inside the ranges of its destinations only (R70, R79) -/
  writes_range : ∀ r m, ∀ c ∈ st.writes r m, ∃ b ∈ st.dests, r.inRange b c.1
  /-- it reads neither CMD nor STATUS -/
  writes_congr : ∀ r m c t, st.writes { r with cmd := c, status := t } m = st.writes r m
  dataOk_congr : ∀ r m c t, st.dataOk { r with cmd := c, status := t } m = st.dataOk r m
  weights_congr : ∀ r c t, st.weightsOk { r with cmd := c, status := t } = st.weightsOk r
  /-- its code is a STAGE code of R91, and tells which of the special faults of R190 it can raise -/
  code_range : 1 ≤ st.code.toNat ∧ st.code.toNat ≤ 6
  lanes_code : st.usesLanes = true → st.code = 4 ∨ st.code = 5 ∨ st.code = 6
  weights_code : ∀ r, st.weightsOk r = false → st.code = 1
  data_code : ∀ r m, st.dataOk r m = false → st.code = 4 ∨ st.code = 6

theorem grayStage_sound (valid : Regs → Bool) (y : Regs → Nat → Nat → Nat → Nat → Int)
    (hv : ∀ r c t, valid { r with cmd := c, status := t } = valid r)
    (hy : ∀ r c t, y { r with cmd := c, status := t } = y r) : (grayStage valid y).Sound where
  writes_range r m c hc := by
    simp only [grayStage] at hc
    exact ⟨.lum, List.mem_singleton.2 rfl, mem_plainWrites_range rfl hc⟩
  writes_congr r m c t := by
    simp only [grayStage, hy]; rfl
  dataOk_congr _ _ _ _ := rfl
  weights_congr := hv
  code_range := by simp [grayStage]
  lanes_code h := by simp [grayStage] at h
  weights_code _ _ := rfl
  data_code _ _ h := by simp [grayStage] at h

theorem stageGrayA_sound : stageGrayA.Sound := grayStage_sound _ _ (fun _ _ _ => rfl) fun _ _ _ => rfl
theorem stageGrayI_sound : stageGrayI.Sound := grayStage_sound _ _ (fun _ _ _ => rfl) fun _ _ _ => rfl
theorem stageGrayV_sound : stageGrayV.Sound := grayStage_sound _ _ (fun _ _ _ => rfl) fun _ _ _ => rfl

theorem stageEdgeA_sound : stageEdgeA.Sound where
  writes_range r m c hc := by
    simp only [stageEdgeA] at hc
    exact ⟨.edge, List.mem_singleton.2 rfl, mem_plainWrites_range rfl hc⟩
  writes_congr _ _ _ _ := rfl
  dataOk_congr _ _ _ _ := rfl
  weights_congr _ _ _ := rfl
  code_range := by decide
  lanes_code h := by simp [stageEdgeA] at h
  weights_code _ h := by simp [stageEdgeA] at h
  data_code _ _ h := by simp [stageEdgeA] at h

theorem stageBlurA_sound : stageBlurA.Sound where
  writes_range r m c hc := by
    simp only [stageBlurA] at hc
    exact ⟨.blur, List.mem_singleton.2 rfl, mem_plainWrites_range rfl hc⟩
  writes_congr _ _ _ _ := rfl
  dataOk_congr _ _ _ _ := rfl
  weights_congr _ _ _ := rfl
  code_range := by decide
  lanes_code h := by simp [stageBlurA] at h
  weights_code _ h := by simp [stageBlurA] at h
  data_code _ _ h := by simp [stageBlurA] at h

theorem stageConvI_sound : stageConvI.Sound where
  writes_range r m c hc := by
    rcases List.mem_append.1 hc with hc | hc
    · exact ⟨.edge, by decide, mem_plainWrites_range rfl hc⟩
    · exact ⟨.blur, by decide, mem_plainWrites_range rfl hc⟩
  writes_congr _ _ _ _ := rfl
  dataOk_congr _ _ _ _ := rfl
  weights_congr _ _ _ := rfl
  code_range := by decide
  lanes_code h := by simp [stageConvI] at h
  weights_code _ h := by simp [stageConvI] at h
  data_code _ _ h := by simp [stageConvI] at h

theorem stageConvV_sound : stageConvV.Sound where
  writes_range r m c hc := by
    rcases List.mem_append.1 hc with hc | hc
    · exact ⟨.wedge, by decide, Regs.interiorByte_range rfl (mem_wideWrites_addr hc)⟩
    · exact ⟨.wblur, by decide, Regs.interiorByte_range rfl (mem_wideWrites_addr hc)⟩
  writes_congr _ _ _ _ := rfl
  dataOk_congr _ _ _ _ := rfl
  weights_congr _ _ _ := rfl
  code_range := by decide
  lanes_code _ := .inl rfl
  weights_code _ h := by simp [stageConvV] at h
  data_code _ _ _ := .inl rfl

theorem stagePadV_sound : stagePadV.Sound where
  writes_range r m c hc := by
    simp only [stagePadV] at hc
    exact ⟨.wlum, List.mem_singleton.2 rfl, Regs.interiorByte_range rfl (mem_wideWrites_addr hc)⟩
  writes_congr _ _ _ _ := rfl
  dataOk_congr _ _ _ _ := rfl
  weights_congr _ _ _ := rfl
  code_range := by decide
  lanes_code _ := .inr (.inl rfl)
  weights_code _ h := by simp [stagePadV] at h
  data_code _ _ h := by simp [stagePadV] at h

theorem combPlainStage_sound (z : Nat → Nat → Nat → Int) : (combPlainStage z).Sound where
  writes_range r m c hc := by
    simp only [combPlainStage] at hc
    exact ⟨.out, List.mem_singleton.2 rfl, mem_plainWrites_range rfl hc⟩
  writes_congr _ _ _ _ := rfl
  dataOk_congr _ _ _ _ := rfl
  weights_congr _ _ _ := rfl
  code_range := by simp [combPlainStage]
  lanes_code h := by simp [combPlainStage] at h
  weights_code _ h := by simp [combPlainStage] at h
  data_code _ _ h := by simp [combPlainStage] at h

theorem stageCombA_sound : stageCombA.Sound := combPlainStage_sound _
theorem stageCombI_sound : stageCombI.Sound := combPlainStage_sound _

theorem stageCombV_sound : stageCombV.Sound where
  writes_range r m c hc := by
    simp only [stageCombV] at hc
    exact ⟨.out, List.mem_singleton.2 rfl, mem_plainWrites_range rfl hc⟩
  writes_congr _ _ _ _ := rfl
  dataOk_congr _ _ _ _ := rfl
  weights_congr _ _ _ := rfl
  code_range := by decide
  lanes_code _ := .inr (.inr rfl)
  weights_code _ h := by simp [stageCombV] at h
  data_code _ _ _ := .inr rfl

/-! ### Consequences -/

/-- A stage's static fault does not depend on CMD or STATUS. -/
theorem Stage.Sound.staticFault_congr {st : Stage} (h : st.Sound) {s t : State} {c : Word} {u : Status}
    (hr : t.regs = { s.regs with cmd := c, status := u }) (hh : t.holes = s.holes) :
    st.staticFault t = st.staticFault s := by
  have hb : t.regs.base = s.regs.base := funext fun b => by rw [hr, Regs.base_cmdStatus]
  have hl : t.regs.stop = s.regs.stop := funext fun b => by
    simp only [Regs.stop, hr, Regs.base_cmdStatus, Regs.len_cmdStatus]
  have hw : st.weightsOk t.regs = st.weightsOk s.regs := by rw [hr, h.weights_congr]
  have hd : t.regs.dimOk = s.regs.dimOk := by rw [hr]; rfl
  have hn : t.regs.lanesOk = s.regs.lanesOk := by rw [hr]; rfl
  unfold Stage.staticFault Stage.addrOk Stage.overlapOk Stage.busOk Regs.apart
  rw [hw, hd, hn, hh, hl, hb]

/-- The faults that a stage's static checks can raise, by its code (R190). -/
theorem Stage.Sound.staticFault_cases {st : Stage} (h : st.Sound) {s : State} {f : ErrCode}
    (hf : st.staticFault s = some f) :
    (f = .cfg ∧ (st.code = 4 ∨ st.code = 5 ∨ st.code = 6)) ∨ f = .dim ∨ (f = .weight ∧ st.code = 1) ∨ f = .addr ∨
      f = .overlap ∨ f = .bus := by
  simp only [Stage.staticFault, Bool.and_eq_true, Bool.not_eq_true'] at hf
  split at hf
  · rename_i hl; simp only [Option.some.injEq] at hf; exact .inl ⟨hf.symm, h.lanes_code hl.1⟩
  · split at hf
    · simp_all
    · split at hf
      · rename_i hw
        simp only [Option.some.injEq] at hf
        exact .inr (.inr (.inl ⟨hf.symm, h.weights_code _ hw⟩))
      · split at hf
        · simp_all
        · split at hf
          · simp_all
          · split at hf <;> simp_all

/-- A byte outside every destination range of the stages is unchanged, whether they complete or fault. -/
theorem runStages_read {l : List Stage} (hl : ∀ st ∈ l, st.Sound) {s : State} {a : Nat}
    (ha : ∀ st ∈ l, ∀ b ∈ st.dests, ¬s.regs.inRange b a) : (runStages l s).mem.read a = s.mem.read a := by
  induction l generalizing s with
  | nil => rfl
  | cons st rest ih =>
    have hst := hl st List.mem_cons_self
    have hout : ∀ c ∈ st.writes s.regs s.mem, c.1 ≠ a := by
      rintro c hc rfl
      obtain ⟨b, hb, hr⟩ := hst.writes_range _ _ c hc
      exact ha st List.mem_cons_self b hb hr
    obtain ⟨f, -, he⟩ | ⟨-, -, he⟩ | ⟨-, -, he⟩ := runStages_cons_cases st rest s
    · rw [he]; rfl
    · rw [he, raise_mem, Stage.spoil_mem]
      refine Memory.read_writeAll_of_notMem _ _ _ fun c hc => ?_
      obtain ⟨d, hd, rfl⟩ := List.mem_map.1 hc
      exact hout d hd
    · rw [he, ih (s := st.perform s) (fun t ht => hl t (List.mem_cons_of_mem _ ht))
        fun t ht b hb => ha t (List.mem_cons_of_mem _ ht) b hb]
      exact Memory.read_writeAll_of_notMem _ _ _ hout

/-- The stages of a command write addresses of MEM only: ERR_ADDR comes first (R195). -/
theorem runStages_inMem {l : List Stage} (hl : ∀ st ∈ l, st.Sound) {s : State} (h : s.mem.inMem = true) :
    (runStages l s).mem.inMem = true := by
  induction l generalizing s with
  | nil => exact h
  | cons st rest ih =>
    have hst := hl st List.mem_cons_self
    have hin : st.staticFault s = none → ∀ c ∈ st.writes s.regs s.mem, c.1 < Config.memSize := by
      intro hn c hc
      obtain ⟨b, hb, hr⟩ := hst.writes_range _ _ c hc
      have ha := (st.addrOk_iff s.regs).1 ((st.staticFault_eq_none s).1 hn).2.2.2.1 b (List.mem_append_right _ hb)
      exact Nat.lt_of_lt_of_le hr.2 ha
    obtain ⟨f, -, he⟩ | ⟨hn, -, he⟩ | ⟨hn, -, he⟩ := runStages_cons_cases st rest s
    · rw [he]; exact h
    · rw [he]
      refine Memory.writeAll_inMem h fun c hc => ?_
      obtain ⟨d, hd, rfl⟩ := List.mem_map.1 hc
      exact hin hn d hd
    · rw [he]
      exact ih (fun t ht => hl t (List.mem_cons_of_mem _ ht)) (Memory.writeAll_inMem h (hin hn))

end Sys2Proof.Machine
end

