-- ==== Sys2Proof/Laws/Step.lean ====
section
/-! SUPPORT. What a command, and what a step, can do, each said once. -/

namespace Sys2Proof.Machine

/-- The stages of each command (R180). -/
def stagesOf : Instr → List Stage
  | .grayA => [stageGrayA]
  | .grayI => [stageGrayI]
  | .grayV => [stageGrayV]
  | .edgeA => [stageEdgeA]
  | .blurA => [stageBlurA]
  | .convI => [stageConvI]
  | .convV => [stageConvV]
  | .padV  => [stagePadV]
  | .combA => [stageCombA]
  | .combI => [stageCombI]
  | .combV => [stageCombV]
  | .pipeA => [stageGrayA, stageEdgeA, stageBlurA, stageCombA]
  | .pipeI => [stageGrayI, stageConvI, stageCombI]
  | .pipeV => [stageGrayV, stagePadV, stageConvV, stageCombV]

/-- Every command is the issue of its stages. -/
theorem exec_eq_issue (i : Instr) (s : State) : exec i s = issue i (stagesOf i) s := by cases i <;> rfl

/-- Every stage of every command is sound. -/
theorem stagesOf_sound (i : Instr) : ∀ st ∈ stagesOf i, st.Sound := by
  cases i <;>
    simp [stagesOf, stageGrayA_sound, stageGrayI_sound, stageGrayV_sound, stageEdgeA_sound, stageBlurA_sound,
      stageConvI_sound, stageConvV_sound, stagePadV_sound, stageCombA_sound, stageCombI_sound, stageCombV_sound]

/-- A command ignored (R34) or run (R100). -/
theorem exec_cases (i : Instr) (s : State) :
    (s.regs.status.err = true ∧ exec i s = .next s) ∨
    (s.regs.status.err = false ∧ exec i s = .next (runStages (stagesOf i) (accept (encode i) s))) := by
  rw [exec_eq_issue]
  cases h : s.regs.status.err with
  | true => exact .inl ⟨rfl, issue_of_err _ _ h⟩
  | false => exact .inr ⟨rfl, issue_of_ready _ _ h⟩

/-- A write to CMD: ignored, an illegal word, or a command (R100). -/
theorem writeCmd_cases (c : Word) (s : State) :
    (s.regs.status.err = true ∧ writeCmd c s = .next s) ∨
    (s.regs.status.err = false ∧ (∃ e, decode c = .error e) ∧ writeCmd c s = .next (raise .cmd 0 (accept c s))) ∨
    (s.regs.status.err = false ∧ ∃ i, decode c = .ok i ∧
      writeCmd c s = .next (runStages (stagesOf i) (accept (encode i) s))) := by
  simp only [writeCmd]
  cases hd : decode c with
  | error e =>
    cases h : s.regs.status.err with
    | true => exact .inl ⟨rfl, issueIllegal_of_err c h⟩
    | false => exact .inr (.inl ⟨rfl, ⟨e, rfl⟩, issueIllegal_of_ready c h⟩)
  | ok i =>
    rcases exec_cases i s with ⟨h, he⟩ | ⟨h, he⟩
    · exact .inl ⟨h, he⟩
    · exact .inr (.inr ⟨h, i, rfl, he⟩)

/-- What the port and the platform can do, said once: everything `perform` answers (R31, R100, R102, R220). -/
theorem perform_cases (op : HostOp) (s : State) :
    (perform op s = .fault .hostAccessOutsideMem ∧ op.wellFormed = false) ∨
    (∃ v, perform op s = .next (s.reply v)) ∨
    (∃ r n v, regAt r = some n ∧ n ≠ .cmd ∧ op = .regWrite r v ∧ perform op s = .next (s.withRegs (s.regs.write n v))) ∨
    (∃ r v, regAt r = none ∧ op = .regWrite r v ∧ perform op s = .next s) ∨
    (∃ r v, regAt r = some .cmd ∧ op = .regWrite r v ∧ perform op s = writeCmd v s) ∨
    (∃ a bs, op = .memWrite a bs ∧ a + bs.length ≤ Config.memSize ∧
      perform op s = .next (s.withMem (s.mem.writeAll (cellsAt a bs)))) ∨
    (op = .reset ∧ perform op s = .next (s.withRegs Regs.reset)) := by
  cases op with
  | regRead i => exact .inr (.inl ⟨_, rfl⟩)
  | regWrite i v =>
    simp only [perform, regWrite]
    cases hi : regAt i with
    | none => exact .inr (.inr (.inr (.inl ⟨i, v, hi, rfl, rfl⟩)))
    | some n =>
      by_cases hn : n = .cmd
      · subst hn; exact .inr (.inr (.inr (.inr (.inl ⟨i, v, hi, rfl, by simp [writeReg]⟩))))
      · exact .inr (.inr (.inl ⟨i, n, v, hi, hn, rfl, by simp [writeReg, hn]⟩))
  | memWrite a bs =>
    simp only [perform, hostWrite]
    by_cases h : (HostOp.memWrite a bs).wellFormed = true
    · exact .inr (.inr (.inr (.inr (.inr (.inl ⟨a, bs, rfl, of_decide_eq_true h, if_pos h⟩)))))
    · exact .inl ⟨if_neg h, by simpa using h⟩
  | memRead a n =>
    simp only [perform, hostRead]
    by_cases h : (HostOp.memRead a n).wellFormed = true
    · exact .inr (.inl ⟨_, if_pos h⟩)
    · exact .inl ⟨if_neg h, by simpa using h⟩
  | reset => exact .inr (.inr (.inr (.inr (.inr (.inr ⟨rfl, rfl⟩)))))

/-- A step is the idle step or the performance of the next line of the script. -/
theorem step_cases (s : State) :
    (s.host = [] ∧ step s = .next s) ∨ ∃ op ops, s.host = op :: ops ∧ step s = perform op (s.withHost ops) := by
  simp only [step, hostStep]
  cases h : s.host with
  | nil => exact .inl ⟨rfl, rfl⟩
  | cons op ops => exact .inr ⟨op, ops, rfl, rfl⟩

/-- `CLRERR` is the return from a fault (R103, R202). -/
theorem perform_clrErr (s : State) : perform (wr .status 0x00000002#32) s = .next (acknowledge s) := rfl

end Sys2Proof.Machine
end

