-- ==== Sys2Proof/Laws/Commands.lean ====
section
/-! SUPPORT. Single-stage commands: the three things one can do, and that its model stage checks what its row lists. -/

namespace Sys2Proof.Machine

/-- What a completed stage leaves: the stage's writes, CMD and DONE. -/
def completed (st : Stage) (c : Word) (s : State) : State :=
  { s with
    regs := { s.regs with cmd := c, status := { s.regs.status with done := true } }
    mem := s.mem.writeAll (st.writes s.regs s.mem) }

/-- What a data fault leaves: free values in the stage's destination samples, CMD and the fault. -/
def dataFaulted (st : Stage) (c : Word) (s : State) : State :=
  { s with
    regs := { s.regs with cmd := c, status := ⟨false, true, 8, st.code⟩ }
    mem := s.mem.writeAll ((st.writes s.regs s.mem).map fun w => (w.1, Config.freeByte s.freeCount w.1))
    freeCount := s.freeCount + 1 }

/-- The three things an accepted command with one stage does. -/
theorem exec_single {i : Instr} {st : Stage} (hi : stagesOf i = [st]) {s : State} (he : s.regs.status.err = false) :
    (∀ f, st.staticFault s = some f → exec i s = .next (s.faulted (encode i) f.code st.code)) ∧
    (st.staticFault s = none → st.dataOk s.regs s.mem = false → exec i s = .next (dataFaulted st (encode i) s)) ∧
    (st.staticFault s = none → st.dataOk s.regs s.mem = true → exec i s = .next (completed st (encode i) s)) := by
  have hs : st.Sound := stagesOf_sound i st (by rw [hi]; exact List.mem_singleton.2 rfl)
  have hx : exec i s = .next (runStages [st] (accept (encode i) s)) := by
    rw [exec_eq_issue, hi, issue_of_ready _ _ he]
  have hf : st.staticFault (accept (encode i) s) = st.staticFault s := hs.staticFault_congr (accept_regs _ _) rfl
  have hd : st.dataOk (accept (encode i) s).regs (accept (encode i) s).mem = st.dataOk s.regs s.mem := by
    rw [accept_regs, accept_mem, hs.dataOk_congr]
  have hw : st.writes (accept (encode i) s).regs (accept (encode i) s).mem = st.writes s.regs s.mem := by
    rw [accept_regs, accept_mem, hs.writes_congr]
  rw [hx]
  refine ⟨fun f h => ?_, fun h1 h2 => ?_, fun h1 h2 => ?_⟩
  · rw [runStages, hf, h]; rfl
  · rw [runStages, hf, h1, hd, h2]
    simp only [raise, Stage.spoil, hw]
    rfl
  · rw [runStages, hf, h1, hd, h2]
    simp only [runStages, Stage.perform, hw]
    rfl

/-- A row says what a stage checks. -/
structure Row.Describes (w : Row) (i : Instr) (st : Stage) : Prop where
  stages  : stagesOf i = [st]
  word    : encode i = w.word
  code    : st.code = w.code
  lanes   : st.usesLanes = w.lanes
  weights : ∀ r, st.weightsOk r = true ↔ w.weights r
  buffers : ∀ b, b ∈ st.buffers ↔ b ∈ w.buffers
  apart   : ∀ r, st.overlapOk r = true ↔ w.Apart r

/-- Symmetric reading of the overlap check: a pair list that names each unordered pair of a destination once. -/
theorem overlapOk_iff_pairs (st : Stage) (pairs : List (Buffer × Buffer))
    (h1 : ∀ d ∈ st.dests, ∀ x ∈ st.buffers, x ≠ d → (d, x) ∈ pairs ∨ (x, d) ∈ pairs)
    (h2 : ∀ p ∈ pairs, (p.1 ∈ st.dests ∧ p.2 ∈ st.buffers ∧ p.2 ≠ p.1) ∨ (p.2 ∈ st.dests ∧ p.1 ∈ st.buffers ∧ p.1 ≠ p.2))
    (r : Regs) : st.overlapOk r = true ↔ ∀ p ∈ pairs, ∀ a, ¬(r.inRange p.1 a ∧ r.inRange p.2 a) := by
  rw [Stage.overlapOk_iff]
  constructor
  · intro h p hp a ha
    rcases h2 p hp with ⟨hd, hx, hne⟩ | ⟨hd, hx, hne⟩
    · exact h _ hd _ hx hne a ha
    · exact h _ hd _ hx hne a ha.symm
  · intro h d hd x hx hne a ha
    rcases h1 d hd x hx hne with hp | hp
    · exact h _ hp a ha
    · exact h _ hp a ha.symm

theorem rowGrayA_describes : rowGrayA.Describes .grayA stageGrayA where
  stages := rfl
  word := rfl
  code := rfl
  lanes := rfl
  weights _ := Iff.rfl
  buffers b := by cases b <;> decide
  apart := overlapOk_iff_pairs _ _ (by decide) (by decide)

theorem rowGrayI_describes : rowGrayI.Describes .grayI stageGrayI where
  stages := rfl
  word := rfl
  code := rfl
  lanes := rfl
  weights _ := Iff.rfl
  buffers b := by cases b <;> decide
  apart := overlapOk_iff_pairs _ _ (by decide) (by decide)

theorem rowGrayV_describes : rowGrayV.Describes .grayV stageGrayV where
  stages := rfl
  word := rfl
  code := rfl
  lanes := rfl
  weights _ := Iff.rfl
  buffers b := by cases b <;> decide
  apart := overlapOk_iff_pairs _ _ (by decide) (by decide)

theorem rowEdgeA_describes : rowEdgeA.Describes .edgeA stageEdgeA where
  stages := rfl
  word := rfl
  code := rfl
  lanes := rfl
  weights _ := ⟨fun _ => trivial, fun _ => rfl⟩
  buffers b := by cases b <;> decide
  apart := overlapOk_iff_pairs _ _ (by decide) (by decide)

theorem rowBlurA_describes : rowBlurA.Describes .blurA stageBlurA where
  stages := rfl
  word := rfl
  code := rfl
  lanes := rfl
  weights _ := ⟨fun _ => trivial, fun _ => rfl⟩
  buffers b := by cases b <;> decide
  apart := overlapOk_iff_pairs _ _ (by decide) (by decide)

theorem rowConvI_describes : rowConvI.Describes .convI stageConvI where
  stages := rfl
  word := rfl
  code := rfl
  lanes := rfl
  weights _ := ⟨fun _ => trivial, fun _ => rfl⟩
  buffers b := by cases b <;> decide
  apart := overlapOk_iff_pairs _ _ (by decide) (by decide)

theorem rowConvV_describes : rowConvV.Describes .convV stageConvV where
  stages := rfl
  word := rfl
  code := rfl
  lanes := rfl
  weights _ := ⟨fun _ => trivial, fun _ => rfl⟩
  buffers b := by cases b <;> decide
  apart := overlapOk_iff_pairs _ _ (by decide) (by decide)

theorem rowPadV_describes : rowPadV.Describes .padV stagePadV where
  stages := rfl
  word := rfl
  code := rfl
  lanes := rfl
  weights _ := ⟨fun _ => trivial, fun _ => rfl⟩
  buffers b := by cases b <;> decide
  apart := overlapOk_iff_pairs _ _ (by decide) (by decide)

theorem rowCombA_describes : rowCombA.Describes .combA stageCombA where
  stages := rfl
  word := rfl
  code := rfl
  lanes := rfl
  weights _ := ⟨fun _ => trivial, fun _ => rfl⟩
  buffers b := by cases b <;> decide
  apart := overlapOk_iff_pairs _ _ (by decide) (by decide)

theorem rowCombI_describes : rowCombI.Describes .combI stageCombI where
  stages := rfl
  word := rfl
  code := rfl
  lanes := rfl
  weights _ := ⟨fun _ => trivial, fun _ => rfl⟩
  buffers b := by cases b <;> decide
  apart := overlapOk_iff_pairs _ _ (by decide) (by decide)

theorem rowCombV_describes : rowCombV.Describes .combV stageCombV where
  stages := rfl
  word := rfl
  code := rfl
  lanes := rfl
  weights _ := ⟨fun _ => trivial, fun _ => rfl⟩
  buffers b := by cases b <;> decide
  apart := overlapOk_iff_pairs _ _ (by decide) (by decide)

/-- The stage's checks are the row's conditions. -/
theorem Row.Describes.checks {w : Row} {i : Instr} {st : Stage} (h : w.Describes i st) (s : State) :
    ((st.usesLanes && !s.regs.lanesOk) = false ↔ w.LanesOk s.regs) ∧ (s.regs.dimOk = true ↔ w.DimsOk s.regs) ∧
    (st.weightsOk s.regs = true ↔ w.weights s.regs) ∧ (st.addrOk s.regs = true ↔ w.Fits s.regs) ∧
    (st.overlapOk s.regs = true ↔ w.Apart s.regs) ∧ (st.busOk s.regs s.holes = true ↔ w.Reachable s) := by
  refine ⟨?_, s.regs.dimOk_iff, h.weights _, ?_, h.apart _, ?_⟩
  · rw [Row.LanesOk, ← Regs.lanesOk_iff, ← h.lanes]
    cases st.usesLanes <;> cases s.regs.lanesOk <;> simp
  · rw [Stage.addrOk_iff, Row.Fits]
    exact ⟨fun g b hb => g b ((h.buffers b).2 hb), fun g b hb => g b ((h.buffers b).1 hb)⟩
  · rw [Stage.busOk_iff, Row.Reachable]
    exact ⟨fun g b hb => g b ((h.buffers b).2 hb), fun g b hb => g b ((h.buffers b).1 hb)⟩

/-- A row is ready exactly when its stage has no static fault. -/
theorem Row.Describes.ready_iff {w : Row} {i : Instr} {st : Stage} (h : w.Describes i st) (s : State) :
    w.Ready s ↔ st.staticFault s = none := by
  obtain ⟨h1, h2, h3, h4, h5, h6⟩ := h.checks s
  rw [Stage.staticFault_eq_none, Row.Ready, ← h1, ← h2, ← h3, ← h4, ← h5, ← h6]
  cases st.usesLanes <;> cases s.regs.lanesOk <;> simp

/-- A command with one stage records the static faults its row lists, in the row's order (R200). -/
theorem Row.Describes.staticFaults {w : Row} {i : Instr} {st : Stage} (h : w.Describes i st) {s : State}
    (he : s.regs.status.err = false) : w.StaticFaults i s := by
  obtain ⟨hf, -, -⟩ := exec_single h.stages he
  obtain ⟨h1, h2, h3, h4, h5, h6⟩ := h.checks s
  have key : ∀ f, st.staticFault s = some f → exec i s = .next (w.faulted f.code s) := fun f hff => by
    rw [Row.faulted, ← h.word, ← h.code]; exact hf f hff
  rw [Row.StaticFaults, ← h1, ← h2, ← h3, ← h4, ← h5, ← h6]
  simp only [Stage.staticFault] at key
  exact ⟨fun a => key .cfg (by simp_all), fun a b => key .dim (by simp_all), fun a b c => key .weight (by simp_all),
    fun a b c d => key .addr (by simp_all), fun a b c d e => key .overlap (by simp_all),
    fun a b c d e f => key .bus (by simp_all)⟩

/-- Where the row's checks and the data check pass, the command completes. -/
theorem Row.Describes.completes {w : Row} {i : Instr} {st : Stage} (h : w.Describes i st) {s : State}
    (he : s.regs.status.err = false) (hr : w.Ready s) (hd : st.dataOk s.regs s.mem = true) :
    exec i s = .next (completed st w.word s) := by
  rw [← h.word]; exact (exec_single h.stages he).2.2 ((h.ready_iff s).1 hr) hd

/-- Where the row's checks pass and the data check fails, the command records ERR_RANGE. -/
theorem Row.Describes.rangeFaults {w : Row} {i : Instr} {st : Stage} (h : w.Describes i st) {s : State}
    (he : s.regs.status.err = false) (hr : w.Ready s) (hd : st.dataOk s.regs s.mem = false) :
    exec i s = .next (dataFaulted st w.word s) := by
  rw [← h.word]; exact (exec_single h.stages he).2.1 ((h.ready_iff s).1 hr) hd

end Sys2Proof.Machine
end

