-- ==== Sys2Proof/Laws/Decode.lean ====
section
/-! SUPPORT. A word is its fields, and its fields are those of the word they make (R90). -/

namespace Sys2Proof

theorem wordOf_fieldsOf (w : Word) : wordOf (fieldsOf w) = w := by
  apply BitVec.eq_of_getLsbD_eq
  intro k hk
  simp only [wordOf, fieldsOf, BitVec.getLsbD_append, BitVec.getLsbD_extractLsb']
  by_cases h1 : k < 4
  · simp [h1]
  · by_cases h2 : k - 4 < 2
    · simp [h1, h2, show 4 + (k - 4) = k by omega]
    · simp [h1, h2, show 6 + (k - 4 - 2) = k by omega, show k - 4 - 2 < 26 by omega]

theorem fieldsOf_wordOf (f : CmdFields) : fieldsOf (wordOf f) = f := by
  obtain ⟨z, t, g⟩ := f
  simp only [fieldsOf, wordOf, CmdFields.mk.injEq]
  refine ⟨?_, ?_, ?_⟩ <;> apply BitVec.eq_of_getLsbD_eq <;> intro k hk <;>
    simp only [BitVec.getLsbD_append, BitVec.getLsbD_extractLsb']
  · simp [hk, show ¬6 + k < 4 by omega, show ¬6 + k - 4 < 2 by omega, show 6 + k - 4 - 2 = k by omega]
  · simp [hk, show ¬4 + k < 4 by omega, show 4 + k - 4 = k by omega]
  · simp [hk]

theorem fieldsOf_inj {v w : Word} : fieldsOf v = fieldsOf w ↔ v = w :=
  ⟨fun h => by rw [← wordOf_fieldsOf v, h, wordOf_fieldsOf], fun h => by rw [h]⟩

end Sys2Proof
end

