-- ==== Sys2Proof/Laws/Formulas.lean ====
section
/-! SUPPORT. The machine's sums and samples are the ones the rules write (R111 to R115, R131, R136, R160, R161), and their
ranges. -/

namespace Sys2Proof.Machine

/-- `accP` of the edge kernel (R131). -/
theorem accP_edge (s : State) (x y : Nat) : accP s.regs s.mem kEdge x y = edgeSum (lumAt s) x y := by
  simp only [accP, tapSum, tapOffsets, kEdge, List.zip, List.zipWith, List.map, List.sum_cons, List.sum_nil, edgeSum,
    lumAt, plainSample, byteAt, Regs.paddr, Regs.index, ← Nat.add_assoc]
  simp only [← sub_eq_add_neg, Int.add_zero, mul_zero, mul_one, zero_add]
  ring

/-- `accP` of the blur kernel (R131). -/
theorem accP_blur (s : State) (x y : Nat) : accP s.regs s.mem kBlur x y = blurSum (lumAt s) x y := by
  simp only [accP, tapSum, tapOffsets, kBlur, List.zip, List.zipWith, List.map, List.sum_cons, List.sum_nil, blurSum,
    lumAt, plainSample, byteAt, Regs.paddr, Regs.index, ← Nat.add_assoc]
  simp only [← sub_eq_add_neg, Int.add_zero, mul_one]
  ring

/-- `accW` of the edge kernel (R136). -/
theorem accW_edge (s : State) (x y : Nat) : accW s.regs s.mem kEdge x y = edgeSum (wlumAt s) x y := by
  simp only [accW, tapSum, tapOffsets, kEdge, List.zip, List.zipWith, List.map, List.sum_cons, List.sum_nil, edgeSum,
    wlumAt, wideSample, Regs.waddr]
  simp only [← sub_eq_add_neg, Int.add_zero, mul_zero, mul_one, zero_add, add_right_comm _ (1 : Int), sub_add_eq_add_sub]
  ring

/-- `accW` of the blur kernel (R136). -/
theorem accW_blur (s : State) (x y : Nat) : accW s.regs s.mem kBlur x y = blurSum (wlumAt s) x y := by
  simp only [accW, tapSum, tapOffsets, kBlur, List.zip, List.zipWith, List.map, List.sum_cons, List.sum_nil, blurSum,
    wlumAt, wideSample, Regs.waddr]
  simp only [← sub_eq_add_neg, Int.add_zero, mul_one, add_right_comm _ (1 : Int), sub_add_eq_add_sub]
  ring

/-- A tap of LUM is a byte (R61). -/
theorem lumAt_range (s : State) (x y : Int) : 0 ≤ lumAt s x y ∧ lumAt s x y ≤ 255 := by
  unfold lumAt byteAt
  split
  · constructor
    · positivity
    · have := (s.mem.read (s.regs.base .lum + y.toNat * s.regs.w + x.toNat)).isLt
      omega
  · exact ⟨le_refl _, by decide⟩

/-- The edge sum of samples 0..255 (R140). -/
theorem edgeSum_range {f : Int → Int → Int} (hf : ∀ x y, 0 ≤ f x y ∧ f x y ≤ 255) (x y : Int) :
    -1020 ≤ edgeSum f x y ∧ edgeSum f x y ≤ 1020 := by
  have h1 := hf x (y - 1); have h2 := hf (x - 1) y; have h3 := hf (x + 1) y; have h4 := hf x (y + 1); have h5 := hf x y
  unfold edgeSum; omega

/-- The blur sum of samples 0..255 (R140). -/
theorem blurSum_range {f : Int → Int → Int} (hf : ∀ x y, 0 ≤ f x y ∧ f x y ≤ 255) (x y : Int) :
    0 ≤ blurSum f x y ∧ blurSum f x y ≤ 4080 := by
  have h1 := hf (x - 1) (y - 1); have h2 := hf x (y - 1); have h3 := hf (x + 1) (y - 1)
  have h4 := hf (x - 1) y; have h5 := hf x y; have h6 := hf (x + 1) y
  have h7 := hf (x - 1) (y + 1); have h8 := hf x (y + 1); have h9 := hf (x + 1) (y + 1)
  unfold blurSum; omega

/-- `v` of GRAY.A and GRAY.V (R112). -/
theorem grayValue_eq (r : Regs) (R G B : Nat) : r.grayValue R G B = grayFormula r R G B := rfl

/-- `acc` of GRAY.I (R114). -/
theorem grayAcc_eq (r : Regs) (R G B : Nat) : r.grayAcc R G B = accFormula r R G B := rfl

/-- `v` of COMB.A (R161). -/
theorem blendValue_eq (e o b : Nat) : blendValue e o b = blendFormula e o b := rfl

/-- `num` of the blender (R160). -/
theorem blendNum_eq (e o b : Nat) : blendNum e o b = numFormula e o b := rfl

/-- `num` of samples 0..255 (R166). -/
theorem numFormula_range {e o b : Nat} (he : e ≤ 255) (ho : o ≤ 255) (hb : b ≤ 255) :
    0 ≤ numFormula e o b ∧ numFormula e o b ≤ 65025 := by
  unfold numFormula
  have h1 : (e : Int) * o ≤ e * 255 := by gcongr; exact_mod_cast ho
  have h2 : (255 - (e : Int)) * b ≤ (255 - e) * 255 :=
    mul_le_mul_of_nonneg_left (by exact_mod_cast hb) (by omega)
  have h3 : 0 ≤ (255 - (e : Int)) * b := mul_nonneg (by omega) (by positivity)
  have h4 : 0 ≤ (e : Int) * o := by positivity
  constructor <;> linarith

/-- CONV.V's data check is the condition of R198. -/
theorem wlumSmall_iff (s : State) : WlumSmall s ↔ wlumAllOk s.regs s.mem = true := by
  simp only [WlumSmall, wlumAllOk, List.all_eq_true, Prod.forall, Regs.mem_widePixels, decide_eq_true_eq]
  exact ⟨fun h X Y g => h X Y g.1 g.2, fun h X Y hX hY => h X Y ⟨hX, hY⟩⟩

/-- COMB.V's data check is the condition of R198. -/
theorem interiorSmall_iff (s : State) :
    InteriorSmall s .wlum ∧ InteriorSmall s .wedge ∧ InteriorSmall s .wblur ↔ combWideOk s.regs s.mem = true := by
  simp only [InteriorSmall, combWideOk, List.all_eq_true, Prod.forall, Regs.mem_pixels, Bool.and_eq_true,
    decide_eq_true_eq]
  exact ⟨fun h x y g => ⟨⟨h.1 x y g.1 g.2, h.2.1 x y g.1 g.2⟩, h.2.2 x y g.1 g.2⟩,
    fun h => ⟨fun x y hx hy => (h x y ⟨hx, hy⟩).1.1, fun x y hx hy => (h x y ⟨hx, hy⟩).1.2,
      fun x y hx hy => (h x y ⟨hx, hy⟩).2⟩⟩

end Sys2Proof.Machine
end

