-- ==== Sys2Proof/Laws/Numeric.lean ====
section
/-! SUPPORT. The laws of the numeric primitives: how far `rne` and `fl32` are from the exact value, when `fl32` is exact,
and that its results lie on the binary32 grid. -/

namespace Sys2Proof.Machine

theorem pow2_eq_zpow (k : Int) : pow2 k = (2 : ℚ) ^ k := by
  cases k with
  | ofNat n => simp [pow2]
  | negSucc n => rw [zpow_negSucc, pow2, Rat.mkRat_eq_div]; push_cast; ring

theorem pow2_pos (k : Int) : 0 < pow2 k := by rw [pow2_eq_zpow]; positivity

theorem pow2_add (j k : Int) : pow2 (j + k) = pow2 j * pow2 k := by
  simp only [pow2_eq_zpow]; exact zpow_add₀ (by norm_num) j k

theorem pow2_le {j k : Int} (h : j ≤ k) : pow2 j ≤ pow2 k := by
  simp only [pow2_eq_zpow]; exact zpow_le_zpow_right₀ (by norm_num) h

theorem pow2_lt_iff {j k : Int} : pow2 j < pow2 k ↔ j < k := by
  simp only [pow2_eq_zpow]; exact zpow_lt_zpow_iff_right₀ (by norm_num)

/-- A quotient of two naturals lies within one binary place of the difference of their bit lengths. -/
theorem div_between (n d : Nat) (hn : n ≠ 0) (hd : d ≠ 0) :
    pow2 ((n.log2 : Int) - d.log2 - 1) ≤ (n : ℚ) / d ∧ (n : ℚ) / d < pow2 ((n.log2 : Int) - d.log2 + 1) := by
  have n1 : (2 : ℚ) ^ n.log2 ≤ n := by exact_mod_cast Nat.log2_self_le hn
  have n2 : (n : ℚ) < 2 ^ (n.log2 + 1) := by exact_mod_cast Nat.lt_log2_self
  have d1 : (2 : ℚ) ^ d.log2 ≤ d := by exact_mod_cast Nat.log2_self_le hd
  have d2 : (d : ℚ) < 2 ^ (d.log2 + 1) := by exact_mod_cast Nat.lt_log2_self
  have hdp : (0 : ℚ) < d := by exact_mod_cast Nat.pos_of_ne_zero hd
  constructor
  · have h : pow2 ((n.log2 : Int) - d.log2 - 1) = 2 ^ n.log2 / 2 ^ (d.log2 + 1) := by
      rw [pow2_eq_zpow, show (n.log2 : Int) - (d.log2 : Int) - 1 = (n.log2 : Int) - ((d.log2 + 1 : Nat) : Int) by
        push_cast; ring, zpow_sub₀ (by norm_num), zpow_natCast, zpow_natCast]
    rw [h, div_le_div_iff₀ (by positivity) hdp]
    exact mul_le_mul n1 d2.le (by positivity) (by positivity)
  · have h : pow2 ((n.log2 : Int) - d.log2 + 1) = 2 ^ (n.log2 + 1) / 2 ^ d.log2 := by
      rw [pow2_eq_zpow, show (n.log2 : Int) - (d.log2 : Int) + 1 = ((n.log2 + 1 : Nat) : Int) - (d.log2 : Int) by
        push_cast; ring, zpow_sub₀ (by norm_num), zpow_natCast, zpow_natCast]
    rw [h, div_lt_div_iff₀ hdp (by positivity)]
    exact mul_lt_mul n2 d1 (by positivity) (by positivity)

/-- `floorLog2` is the floor of the binary logarithm (R14). -/
theorem floorLog2_spec {a : ℚ} (ha : 0 < a) : pow2 (floorLog2 a) ≤ a ∧ a < pow2 (floorLog2 a + 1) := by
  have hq : (a.num.natAbs : ℚ) / a.den = a := by
    have h1 : (a.num.natAbs : ℚ) = a.num := by
      have h := Int.natAbs_of_nonneg (Rat.num_nonneg.2 ha.le)
      rw [← Int.cast_natCast, h]
    rw [h1, Rat.num_div_den]
  obtain ⟨down, up⟩ := div_between a.num.natAbs a.den (by simpa using ha.ne') a.den_nz
  rw [hq] at down up
  simp only [floorLog2]
  split
  · rename_i h; exact ⟨h, up⟩
  · rename_i h; exact ⟨down, by simpa using h⟩

/-! ### Rounding to an integer -/

/-- `rhaz` is within half a unit, the tie going up. -/
theorem rhaz_spec (q : ℚ) : (rhaz q : ℚ) - 1 / 2 ≤ q ∧ q < (rhaz q : ℚ) + 1 / 2 := by
  have h1 : ((q + 1 / 2).floor : ℚ) ≤ q + 1 / 2 := Rat.floor_le _
  have h2 : q + 1 / 2 < ((q + 1 / 2).floor : ℚ) + 1 := by exact_mod_cast Rat.lt_floor_add_one _
  simp only [rhaz]
  constructor <;> linarith

theorem rhaz_eq_iff (q : ℚ) (n : Int) : rhaz q = n ↔ (n : ℚ) - 1 / 2 ≤ q ∧ q < (n : ℚ) + 1 / 2 := by
  constructor
  · rintro rfl; exact rhaz_spec q
  · rintro ⟨h1, h2⟩
    obtain ⟨g1, g2⟩ := rhaz_spec q
    have a1 : (rhaz q : ℚ) < n + 1 := by linarith
    have a2 : (n : ℚ) < rhaz q + 1 := by linarith
    have b1 : rhaz q < n + 1 := by exact_mod_cast a1
    have b2 : n < rhaz q + 1 := by exact_mod_cast a2
    omega

/-- `rne` is one of the two neighbours, within half a unit. -/
theorem rne_near (q : ℚ) : |(rne q : ℚ) - q| ≤ 1 / 2 := by
  have h1 : ((q.floor : Int) : ℚ) ≤ q := Rat.floor_le _
  have h2 : q < ((q.floor : Int) : ℚ) + 1 := by exact_mod_cast Rat.lt_floor_add_one _
  simp only [rne]
  split
  · rename_i h
    rw [abs_le]
    push_cast
    rcases h with h | ⟨h, -⟩ <;> constructor <;> linarith
  · rename_i h
    have h3 : ¬1 / 2 < q - ((q.floor : Int) : ℚ) := fun h' => h (.inl h')
    rw [abs_le]
    constructor <;> linarith

@[simp] theorem rne_intCast (n : Int) : rne (n : ℚ) = n := by
  have h : (n : ℚ).floor = n := Rat.floor_intCast n
  simp [rne, h]

theorem rne_nonneg {q : ℚ} (h : 0 ≤ q) : 0 ≤ rne q := by
  have h1 : 0 ≤ q.floor := Rat.le_floor_iff.2 (by simpa using h)
  simp only [rne]
  split <;> omega

/-! ### The binary32 grid -/

theorem ulp_pos (a : ℚ) : 0 < ulp a := pow2_pos _

/-- A spacing is at most `2^-23` of the value, or is the smallest one. -/
theorem ulp_le {a : ℚ} (ha : 0 < a) : ulp a ≤ max (pow2 (-23) * a) (pow2 (-149)) := by
  simp only [ulp]
  rcases le_total (floorLog2 a) (-126) with h | h
  · rw [max_eq_right h]; exact le_max_right _ _
  · rw [max_eq_left h, sub_eq_add_neg, pow2_add, mul_comm]
    exact le_trans (mul_le_mul_of_nonneg_left (floorLog2_spec ha).1 (pow2_pos _).le) (le_max_left _ _)

/-- A multiple of the smallest binary32 spacing `2^-149`. -/
def OnGrid (q : ℚ) : Prop := ∃ n : Int, q = n * pow2 (-149)

theorem OnGrid.zero : OnGrid 0 := ⟨0, by simp⟩

theorem OnGrid.add {p q : ℚ} : OnGrid p → OnGrid q → OnGrid (p + q)
  | ⟨m, hm⟩, ⟨n, hn⟩ => ⟨m + n, by rw [hm, hn]; push_cast; ring⟩

theorem OnGrid.neg {p : ℚ} : OnGrid p → OnGrid (-p)
  | ⟨m, hm⟩ => ⟨-m, by rw [hm]; push_cast; ring⟩

theorem OnGrid.sub {p q : ℚ} (hp : OnGrid p) (hq : OnGrid q) : OnGrid (p - q) := by
  rw [sub_eq_add_neg]; exact hp.add hq.neg

theorem OnGrid.abs {p : ℚ} (hp : OnGrid p) : OnGrid |p| := by
  rcases abs_choice p with h | h <;> rw [h]
  · exact hp
  · exact hp.neg

/-- A multiple of a larger power of two is on the grid. -/
theorem onGrid_mul_pow2 (n : Int) {k : Int} (hk : -149 ≤ k) : OnGrid (n * pow2 k) := by
  obtain ⟨j, hj⟩ := Int.eq_ofNat_of_zero_le (show 0 ≤ k + 149 by omega)
  refine ⟨n * 2 ^ j, ?_⟩
  have : k = (j : Int) + (-149) := by omega
  rw [this, pow2_add, show pow2 (j : Int) = (2 : ℚ) ^ j by simp [pow2_eq_zpow]]
  push_cast
  ring

theorem onGrid_mul_ulp (n : Int) (a : ℚ) : OnGrid (n * ulp a) :=
  onGrid_mul_pow2 n (by have := le_max_right (floorLog2 a) (-126); omega)

/-- Every finite pattern's value is on the grid (R13). -/
theorem onGrid_decode {b : Word} {q : ℚ} (h : F32.decode b = .fin q) : OnGrid q := by
  simp only [F32.decode] at h
  split at h
  · split at h <;> simp at h
  · have key : ∀ e m : Nat, OnGrid (if e = 0 then (m : ℚ) * pow2 (-149)
        else ((2 ^ 23 + m : Nat) : ℚ) * pow2 ((e : Int) - 150)) := by
      intro e m
      split
      · exact onGrid_mul_pow2 m (le_refl _)
      · exact onGrid_mul_pow2 ((2 ^ 23 + m : Nat) : Int) (by omega)
    simp only [F32.fin.injEq] at h
    rw [← h]
    split
    · exact (key _ _).neg
    · exact key _ _

/-! ### `fl32` -/

/-- What `fl32` answers, said once: the signed rounded multiple of the spacing, or an infinity. -/
theorem fl32_cases {q : ℚ} (hq : q ≠ 0) :
    (pow2 128 ≤ (rne (|q| / ulp |q|) : ℚ) * ulp |q| ∧ fl32 q = .inf (decide (q < 0))) ∨
    ((rne (|q| / ulp |q|) : ℚ) * ulp |q| < pow2 128 ∧
      fl32 q = .fin (if q < 0 then -((rne (|q| / ulp |q|) : ℚ) * ulp |q|) else (rne (|q| / ulp |q|) : ℚ) * ulp |q|)) := by
  simp only [fl32, if_neg hq]
  by_cases h : pow2 128 ≤ (rne (|q| / ulp |q|) : ℚ) * ulp |q|
  · exact .inl ⟨h, by rw [if_pos h]⟩
  · exact .inr ⟨not_le.1 h, by rw [if_neg h]⟩

@[simp] theorem fl32_zero : fl32 0 = .fin 0 := rfl

theorem fl32_ne_nan (q : ℚ) : fl32 q ≠ .nan := by
  by_cases hq : q = 0
  · subst hq; simp
  · rcases fl32_cases hq with ⟨-, h⟩ | ⟨-, h⟩ <;> rw [h] <;> simp

theorem round_error (a : ℚ) : |(rne (a / ulp a) : ℚ) * ulp a - a| ≤ ulp a / 2 := by
  have hu := ulp_pos a
  have h : (rne (a / ulp a) : ℚ) * ulp a - a = ((rne (a / ulp a) : ℚ) - a / ulp a) * ulp a := by
    field_simp
  rw [h, abs_mul, abs_of_pos hu]
  have := mul_le_mul_of_nonneg_right (rne_near (a / ulp a)) hu.le
  linarith

/-- A finite result is within half a spacing of the exact value. -/
theorem fl32_near {q v : ℚ} (h : fl32 q = .fin v) : |v - q| ≤ ulp |q| / 2 := by
  by_cases hq : q = 0
  · subst hq
    rw [fl32_zero, F32.fin.injEq] at h
    rw [← h, sub_zero, abs_zero]
    have := ulp_pos 0
    linarith
  · rcases fl32_cases hq with ⟨-, h'⟩ | ⟨-, h'⟩
    · rw [h'] at h; simp at h
    · rw [h', F32.fin.injEq] at h
      have he := round_error |q|
      rw [← h]
      split
      · rename_i hn
        rw [abs_of_neg hn] at he ⊢
        rw [← abs_neg]
        simpa [sub_eq_add_neg, add_comm] using he
      · rename_i hn
        rw [abs_of_nonneg (not_lt.1 hn)] at he ⊢
        exact he

/-- The error of one rounding: `2^-24` of the value, or half of the smallest spacing (R117). -/
theorem fl32_error {q v : ℚ} (h : fl32 q = .fin v) : |v - q| ≤ max (pow2 (-24) * |q|) (pow2 (-150)) := by
  by_cases hq : q = 0
  · subst hq
    rw [fl32_zero, F32.fin.injEq] at h
    rw [← h, sub_zero, abs_zero, mul_zero]
    exact le_max_left _ _
  · have h1 := fl32_near h
    have h2 := ulp_le (abs_pos.2 hq)
    have e1 : pow2 (-23) = 2 * pow2 (-24) := by simp only [pow2_eq_zpow]; norm_num
    have e2 : pow2 (-149) = 2 * pow2 (-150) := by simp only [pow2_eq_zpow]; norm_num
    rcases le_total (pow2 (-23) * |q|) (pow2 (-149)) with h3 | h3
    · rw [max_eq_right h3] at h2; exact le_max_of_le_right (by linarith)
    · rw [max_eq_left h3] at h2; exact le_max_of_le_left (by rw [e1] at h2; linarith)

theorem fl32_onGrid {q v : ℚ} (h : fl32 q = .fin v) : OnGrid v := by
  by_cases hq : q = 0
  · subst hq
    rw [fl32_zero, F32.fin.injEq] at h
    rw [← h]; exact OnGrid.zero
  · rcases fl32_cases hq with ⟨-, h'⟩ | ⟨-, h'⟩
    · rw [h'] at h; simp at h
    · rw [h', F32.fin.injEq] at h
      rw [← h]
      split
      · exact (onGrid_mul_ulp _ _).neg
      · exact onGrid_mul_ulp _ _

/-- On the grid the rounding error is relative only: what would be subnormal is exact. -/
theorem fl32_error_grid {q v : ℚ} (hg : OnGrid q) (h : fl32 q = .fin v) : |v - q| ≤ pow2 (-24) * |q| := by
  by_cases hq : q = 0
  · subst hq
    rw [fl32_zero, F32.fin.injEq] at h
    rw [← h]; simp
  · have ha : 0 < |q| := abs_pos.2 hq
    rcases le_total (-126) (floorLog2 |q|) with hl | hl
    · have h1 := fl32_near h
      have e1 : pow2 (-23) = 2 * pow2 (-24) := by simp only [pow2_eq_zpow]; norm_num
      have h2 : ulp |q| ≤ pow2 (-23) * |q| := by
        rw [ulp, max_eq_left hl, sub_eq_add_neg, pow2_add, mul_comm]
        exact mul_le_mul_of_nonneg_left (floorLog2_spec ha).1 (pow2_pos _).le
      rw [e1] at h2; linarith
    · have hu : ulp |q| = pow2 (-149) := by rw [ulp, max_eq_right hl]; rfl
      obtain ⟨n, hn⟩ := hg.abs
      have hr : (rne (|q| / ulp |q|) : ℚ) * ulp |q| = |q| := by
        rw [hu, hn, mul_div_assoc, div_self (pow2_pos _).ne', mul_one, rne_intCast]
      have hv : v = q := by
        rcases fl32_cases hq with ⟨-, h'⟩ | ⟨-, h'⟩
        · rw [h'] at h; simp at h
        · rw [h', hr, F32.fin.injEq] at h
          rw [← h]
          split
          · rename_i hn; rw [abs_of_neg hn, neg_neg]
          · rename_i hn; rw [abs_of_nonneg (not_lt.1 hn)]
      rw [hv, sub_self, abs_zero]
      exact mul_nonneg (pow2_pos _).le ha.le

/-- A value below `2^127` does not overflow. -/
theorem fl32_finite {q : ℚ} (h : |q| < pow2 127) : ∃ v, fl32 q = .fin v := by
  by_cases hq : q = 0
  · exact ⟨0, by rw [hq, fl32_zero]⟩
  · have ha : 0 < |q| := abs_pos.2 hq
    rcases fl32_cases hq with ⟨h', -⟩ | ⟨-, h'⟩
    · exfalso
      have h1 := (abs_le.1 (round_error |q|)).2
      have h2 := ulp_le ha
      have e1 : pow2 128 = 2 * pow2 127 := by simp only [pow2_eq_zpow]; norm_num
      have e2 : pow2 (-149) < pow2 127 := pow2_lt_iff.2 (by norm_num)
      have e3 : pow2 (-23) ≤ 1 := by simp only [pow2_eq_zpow]; norm_num
      have h3 : pow2 (-23) * |q| ≤ |q| := by nlinarith
      have h4 : ulp |q| < pow2 127 := lt_of_le_of_lt h2 (max_lt (by linarith) e2)
      linarith
    · exact ⟨_, h'⟩

theorem fl32_nonneg {q v : ℚ} (hq : 0 ≤ q) (h : fl32 q = .fin v) : 0 ≤ v := by
  rcases hq.eq_or_lt with rfl | hp
  · rw [fl32_zero, F32.fin.injEq] at h; exact h.le
  · rcases fl32_cases hp.ne' with ⟨-, h'⟩ | ⟨-, h'⟩
    · rw [h'] at h; simp at h
    · rw [h', if_neg (not_lt.2 hq), F32.fin.injEq] at h
      rw [← h]
      have hu := ulp_pos |q|
      have h0 : 0 ≤ rne (|q| / ulp |q|) := rne_nonneg (div_nonneg (abs_nonneg q) hu.le)
      exact mul_nonneg (by exact_mod_cast h0) hu.le

/-! ### The operations on finite operands -/

@[simp] theorem fadd_fin (a b : ℚ) : fadd (.fin a) (.fin b) = fl32 (a + b) := rfl
@[simp] theorem fsub_fin (a b : ℚ) : fsub (.fin a) (.fin b) = fl32 (a - b) := rfl
@[simp] theorem fmul_fin (a b : ℚ) : fmul (.fin a) (.fin b) = fl32 (a * b) := rfl
theorem fdiv_fin (a : ℚ) {b : ℚ} (h : b ≠ 0) : fdiv (.fin a) (.fin b) = fl32 (a / b) := by
  simp [fdiv, F32.lift, h]

@[simp] theorem F32.val_fin (q : ℚ) : (F32.fin q).val = q := rfl
@[simp] theorem F32.isFinite_fin (q : ℚ) : (F32.fin q).isFinite = true := rfl

theorem F32.eq_fin_of_isFinite {x : F32} (h : x.isFinite = true) : x = .fin x.val := by
  cases x <;> simp_all [F32.isFinite, F32.val]

end Sys2Proof.Machine
end

