-- ==== Sys2Proof/Laws/PerInstr.lean ====
section
/-! SUPPORT. Statements made of every command, one lemma per constructor. -/

namespace Sys2Proof.Laws.EncodingFields

/-- A command's fields are legal and are the fields of its word, whose upper 26 bits are 0: `word = TIER·16 + STAGE` (R90,
R93). -/
def Statement (i : Instr) : Prop :=
  i.wellFormed = true ∧ fieldsOf (encode i) = i.fields ∧
    (encode i).toNat = i.fields.tier.toNat * 16 + i.fields.stage.toNat

theorem grayA : Statement .grayA := by unfold Statement; decide
theorem grayI : Statement .grayI := by unfold Statement; decide
theorem grayV : Statement .grayV := by unfold Statement; decide
theorem edgeA : Statement .edgeA := by unfold Statement; decide
theorem blurA : Statement .blurA := by unfold Statement; decide
theorem convI : Statement .convI := by unfold Statement; decide
theorem convV : Statement .convV := by unfold Statement; decide
theorem padV : Statement .padV := by unfold Statement; decide
theorem combA : Statement .combA := by unfold Statement; decide
theorem combI : Statement .combI := by unfold Statement; decide
theorem combV : Statement .combV := by unfold Statement; decide
theorem pipeA : Statement .pipeA := by unfold Statement; decide
theorem pipeI : Statement .pipeI := by unfold Statement; decide
theorem pipeV : Statement .pipeV := by unfold Statement; decide

end Sys2Proof.Laws.EncodingFields
end

