-- ==== Sys2Proof/Tests/Slice0.lean ====
section
/-! SUPPORT. Tests, each with the vector of spec/95_test_vectors.md (or the rule) its expected value was copied from, and
for every statement with hypotheses a concrete state and operands that meet them. -/

namespace Sys2Proof.Tests
set_option Elab.async false
open Sys2Proof Machine

/-! ### Helpers -/

/-- The state a command or a step leaves, if it leaves one. -/
def after : Outcome → Option State
  | .next s    => some s
  | .fault _   => none
  | .refused _ => none

/-- STATUS after a command or a step (R35), 32 bits. -/
def statusOf (o : Outcome) : Option Word := (after o).map fun s => s.regs.status.word

/-- `n` bytes of memory after a command. -/
def bytesOf (o : Outcome) (a n : Nat) : Option (List Nat) :=
  (after o).map fun s => (s.mem.readBytes a n).map BitVec.toNat

/-- What the host has received after a step. -/
def repliesOf (o : Outcome) : Option (List Reply) := (after o).map State.replies

/-- What a register reads after the one step of a script line. -/
def readsAfter (op : HostOp) (n : Reg) (s : State) : Option Word :=
  (after (step (s.withHost [op]))).map fun t => t.regs.read n

/-- The base state of D18 with chosen dimensions; the memory reads 0. -/
def base (w h : Word) : State :=
  { State.reset with
    regs := { Regs.reset with
      width := w, height := h, rgbAddr := 0x1000, lumAddr := 0x2000, edgeAddr := 0x3000, blurAddr := 0x4000,
      outAddr := 0x5000, wlumAddr := 0x6000, wedgeAddr := 0x7000, wblurAddr := 0x8000 } }

/-- The state with changed registers. -/
def tune (s : State) (f : Regs → Regs) : State := s.withRegs (f s.regs)

/-- Bytes stored by the host. -/
def poke (s : State) (a : Nat) (bs : List Nat) : State :=
  s.withMem (s.mem.writeAll (cellsAt a (bs.map (BitVec.ofNat 8))))

/-- The state with a memory of 0xAA (D11, P1 to P3). -/
def filled (s : State) : State := { s with mem := ⟨0xAA, []⟩ }

/-- Weights as patterns. -/
def weights (r g b : Word) (s : State) : State := tune s fun q => { q with wgtR := r, wgtG := g, wgtB := b }

/-- The state with a recorded fault, STATUS = 0x132 (D18, last line). -/
def stuck : State := tune (base 2 2) fun r => { r with status := ⟨false, true, 3, 1⟩ }

/-- The image of P1 to P3 at 0x1000. -/
def image (s : State) : State :=
  poke s 0x1000 [10, 10, 10, 10, 10, 10, 200, 200, 200, 10, 10, 10, 0, 41, 44, 200, 200, 200, 255, 0, 0, 0, 255, 0, 0, 0,
    255]

/-- The 4×3 raster of D9 at 0x2000. -/
def rasterD9 : State := poke (base 4 3) 0x2000 [10, 20, 30, 40, 50, 60, 70, 80, 90, 100, 110, 255]

/-- The RGB pixels of D3's grouping vector, weights (1, 1, 0). -/
def groupD3 : State :=
  weights 0x3F800000#32 0x3F800000#32 0 <|
    poke (base 3 2) 0x1000 [1, 0, 0, 2, 3, 0, 4, 1, 0, 6, 7, 0, 1, 0, 0, 2, 3, 0]

/-- The widening of {10, 20, 30, 40} at 0x6000, its border all zero (D12). -/
def paddedD12 : State := poke (poke (base 2 2) 0x600A [10, 0, 20]) 0x6012 [30, 0, 40]

/-- The fourteen triples (e, o, b) of D14 as three rasters of 14 × 1. -/
def blendD14 : State :=
  poke (poke (poke (base 14 1) 0x3000 [0, 255, 255, 255, 0, 128, 1, 64, 127, 128, 200, 255, 51, 68])
    0x2000 [200, 200, 255, 0, 0, 200, 3, 10, 255, 255, 17, 1, 100, 33])
    0x4000 [100, 100, 0, 255, 255, 100, 130, 250, 0, 0, 18, 0, 50, 76]

/-- The five pixels of D15: e = 255, o = 200, b = 100, widened. -/
def blendD15 : State :=
  poke (poke (poke (base 5 1) 0x7010 [255, 0, 255, 0, 255, 0, 255, 0, 255]) 0x6010 [200, 0, 200, 0, 200, 0, 200, 0, 200])
    0x8010 [100, 0, 100, 0, 100, 0, 100, 0, 100]

/-! ### WellFormed: each check refuses an ill-formed term (R94, R60) -/

theorem test_wf_reserved_bits : (CmdFields.mk 1 0 1).wellFormed = false := by decide
theorem test_wf_reserved_tier : (CmdFields.mk 0 3 1).wellFormed = false := by decide
theorem test_wf_stage_zero : (CmdFields.mk 0 0 0).wellFormed = false := by decide
theorem test_wf_stage_reserved : (CmdFields.mk 0 0 8).wellFormed = false := by decide
theorem test_wf_illegal_pairs : ∀ p ∈ [(2, 1), (2, 2), (3, 1), (3, 2), (4, 0), (5, 0), (5, 1)],
    (CmdFields.mk 0 (BitVec.ofNat 2 p.2) (BitVec.ofNat 4 p.1)).wellFormed = false := by decide
theorem test_wf_memWrite : (HostOp.memWrite 0xFFFFFFFF [1, 2]).wellFormed = false := by decide
theorem test_wf_memRead : (HostOp.memRead 0xFFFFFFFF 2).wellFormed = false := by decide
theorem test_wf_last_byte : (HostOp.memWrite 0xFFFFFFFF [1]).wellFormed = true := by decide

/-! ### Decoding: the words of R93, written out as ZERO, TIER, STAGE -/

theorem test_decode_grayA : decode 0b00000000000000000000000000_00_0001#32 = .ok .grayA := by decide
theorem test_decode_grayI : decode 0b00000000000000000000000000_01_0001#32 = .ok .grayI := by decide
theorem test_decode_grayV : decode 0b00000000000000000000000000_10_0001#32 = .ok .grayV := by decide
theorem test_decode_edgeA : decode 0b00000000000000000000000000_00_0010#32 = .ok .edgeA := by decide
theorem test_decode_blurA : decode 0b00000000000000000000000000_00_0011#32 = .ok .blurA := by decide
theorem test_decode_convI : decode 0b00000000000000000000000000_01_0100#32 = .ok .convI := by decide
theorem test_decode_convV : decode 0b00000000000000000000000000_10_0100#32 = .ok .convV := by decide
theorem test_decode_padV : decode 0b00000000000000000000000000_10_0101#32 = .ok .padV := by decide
theorem test_decode_combA : decode 0b00000000000000000000000000_00_0110#32 = .ok .combA := by decide
theorem test_decode_combI : decode 0b00000000000000000000000000_01_0110#32 = .ok .combI := by decide
theorem test_decode_combV : decode 0b00000000000000000000000000_10_0110#32 = .ok .combV := by decide
theorem test_decode_pipeA : decode 0b00000000000000000000000000_00_0111#32 = .ok .pipeA := by decide
theorem test_decode_pipeI : decode 0b00000000000000000000000000_01_0111#32 = .ok .pipeI := by decide
theorem test_decode_pipeV : decode 0b00000000000000000000000000_10_0111#32 = .ok .pipeV := by decide

/-- Illegal words are rejected by name (R94). -/
theorem test_decode_illegal :
    decode 0x00000041#32 = .error .reservedBits ∧ decode 0x80000001#32 = .error .reservedBits ∧
    decode 0x00000031#32 = .error .reservedTier ∧ decode 0x00000000#32 = .error .reservedStage ∧
    decode 0x0000000F#32 = .error .reservedStage ∧ decode 0x00000012#32 = .error .noSuchPair := by decide

/-- D16: each of these words leaves STATUS = 0x12. -/
theorem test_illegal_words_D16 :
    ([0x00#32, 0x04#32, 0x05#32, 0x12#32, 0x13#32, 0x15#32, 0x22#32, 0x23#32, 0x08#32, 0x0F#32, 0x31#32, 0x37#32,
      0x41#32, 0x101#32, 0x80000001#32, 0xFFFFFFFF#32].all fun w =>
        decide (statusOf (writeCmd w (base 2 2)) = some 0x12#32)) = true := by decide +kernel

/-! ### Numeric primitives (D1) -/

theorem test_fl32_literals :
    (fl32 (2126 / 10000)).bits = 0x3E59B3D0#32 ∧ (fl32 (7152 / 10000)).bits = 0x3F371759#32 ∧
    (fl32 (722 / 10000)).bits = 0x3D93DD98#32 ∧ (fl32 (1 / 10)).bits = 0x3DCCCCCD#32 ∧
    (fl32 (1 / 3)).bits = 0x3EAAAAAB#32 := by decide +kernel
theorem test_fl32_ties :
    (fl32 (2 ^ 24 + 1)).bits = 0x4B800000#32 ∧ (fl32 (2 ^ 24 + 3)).bits = 0x4B800002#32 ∧
    (fl32 (pow2 (-150))).bits = 0x00000000#32 ∧ (fl32 (3 * pow2 (-150))).bits = 0x00000002#32 := by decide +kernel
theorem test_fl32_overflow :
    (fl32 (2 ^ 128 - 2 ^ 104)).bits = 0x7F7FFFFF#32 ∧ (fl32 (2 ^ 128 - 2 ^ 103)).bits = 0x7F800000#32 := by
  decide +kernel
theorem test_rhaz : rhaz (1 / 2) = 1 ∧ rhaz (3 / 2) = 2 ∧ rhaz (5 / 2) = 3 ∧ rhaz (24999 / 10000) = 2 ∧ rhaz 0 = 0 := by
  decide +kernel
theorem test_rne : rne (1 / 2) = 0 ∧ rne (3 / 2) = 2 ∧ rne (5 / 2) = 2 ∧ rne (7 / 2) = 4 := by decide +kernel
theorem test_sat8 : sat8 (-1) = 0 ∧ sat8 256 = 255 ∧ sat8 255 = 255 := by decide
theorem test_default_weight_sum : Regs.reset.weightSum = .fin 1 := by decide +kernel

/-! ### The register port (D17) and the order of a script's lines -/

theorem test_read_id_is_constant : readsAfter (wr .id 0x12345678) .id State.reset = some 0x49444E07#32 := by decide
theorem test_cfg_keeps_seven_bits : readsAfter (wr .cfg 0xFFFFFFFF) .cfg State.reset = some 0x7F#32 := by decide
theorem test_width_keeps_all_bits : readsAfter (wr .width 0xFFFFFFFF) .width State.reset = some 0xFFFFFFFF#32 := by decide
theorem test_reserved_offsets_read_zero :
    repliesOf (step (State.reset.withHost [.regRead 17])) = some [.word 0] ∧
    repliesOf (step (State.reset.withHost [.regRead 63])) = some [.word 0] := by decide
theorem test_status_write_one_to_clear :
    readsAfter (wr .status 0xFFFFFFFF) .status stuck = some 0#32 ∧ readsAfter (wr .status 1) .status stuck = some 0x132#32 ∧
    readsAfter (wr .status 0) .status stuck = some 0x132#32 ∧ readsAfter (wr .status 2) .status stuck = some 0#32 := by
  decide
theorem test_command_ignored_while_err : readsAfter (command .grayA) .status stuck = some 0x132#32 := by decide
/-- P4, first command: ERR_DIM at the GRAY stage. -/
theorem test_first_command_after_reset : statusOf (step (State.reset.withFetchWord 32 0x07)) = some 0x132#32 := by decide
theorem test_host_store_and_load :
    bytesOf (step (State.reset.withHost [.memWrite 0xFFFFFFFE [1, 2]])) 0xFFFFFFFD 3 = some [0, 1, 2] ∧
    repliesOf (step ((poke State.reset 5 [7]).withHost [.memRead 4 3])) = some [.bytes [0, 7, 0]] := by decide

/-! ### Commands -/

/-- D3, grouping: ties round up. -/
theorem test_grayA_ties : bytesOf (exec .grayA groupD3) 0x2000 6 = some [1, 3, 3, 7, 1, 3] := by decide +kernel
/-- D18: an invalid weight is found after the dimensions and before the addresses. -/
theorem test_grayA_weight_fault :
    statusOf (exec .grayA (tune (weights 0x7FC00000#32 0 0 (base 2 2)) fun r => { r with lumAddr := 0xFFFFFFFE })) =
      some 0x142#32 := by decide +kernel
/-- D3: truncation. -/
theorem test_grayI_truncates : bytesOf (exec .grayI groupD3) 0x2000 6 = some [0, 2, 2, 6, 0, 2] := by decide +kernel
/-- D5: 2^125 overflows when multiplied by 1024; GRAY.A takes it. -/
theorem test_grayI_overflow_fault :
    let s := weights 0x7E000000#32 0x3F800000#32 0x3F800000#32 (base 1 1)
    statusOf (exec .grayI s) = some 0x142#32 ∧ statusOf (exec .grayA s) = some 0x1#32 := by decide +kernel
/-- D3, grouping: four ties to even, two pixels by the scalar formula. -/
theorem test_grayV_groups : bytesOf (exec .grayV groupD3) 0x2000 6 = some [0, 2, 2, 6, 1, 3] := by decide +kernel
/-- D18: GRAY.V ignores LANES. -/
theorem test_grayV_ignores_lanes : statusOf (exec .grayV (tune (base 2 2) fun r => { r with lanes := 0 })) = some 0x1#32 := by
  decide +kernel
/-- D9. -/
theorem test_edgeA_D9 : bytesOf (exec .edgeA rasterD9) 0x3000 12 = some [8, 5, 3, 13, 10, 0, 0, 11, 53, 35, 4, 208] := by
  decide +kernel
/-- D18: one shared byte is a fault; adjacent is none. -/
theorem test_edgeA_overlap :
    statusOf (exec .edgeA (tune (base 2 2) fun r => { r with edgeAddr := 0x2003 })) = some 0x262#32 ∧
    statusOf (exec .edgeA (tune (base 2 2) fun r => { r with edgeAddr := 0x2004 })) = some 0x1#32 := by decide +kernel
/-- D9. -/
theorem test_blurA_D9 :
    bytesOf (exec .blurA rasterD9) 0x4000 12 = some [15, 25, 33, 28, 40, 60, 78, 74, 45, 65, 89, 92] := by decide +kernel
/-- D18: W = H = 65536 passes the top of MEM. -/
theorem test_blurA_address_fault : statusOf (exec .blurA (base 65536 65536)) = some 0x352#32 := by decide +kernel
/-- D9. -/
theorem test_convI_D9 :
    bytesOf (exec .convI rasterD9) 0x3000 12 = some [7, 5, 2, 12, 10, 0, 0, 11, 52, 35, 3, 207] ∧
    bytesOf (exec .convI rasterD9) 0x4000 12 = some [15, 25, 32, 28, 40, 60, 78, 74, 45, 65, 89, 91] := by decide +kernel
/-- D18: the two destinations overlap. -/
theorem test_convI_overlap :
    statusOf (exec .convI (tune (base 2 2) fun r => { r with edgeAddr := 0x4000 })) = some 0x462#32 := by decide +kernel
/-- D13: border samples enter the sums. -/
theorem test_convV_border :
    let s := poke paddedD12 0x6000 [100, 0, 7, 0]
    bytesOf (exec .convV s) 0x700A 4 = some [4, 0, 7, 0] ∧ bytesOf (exec .convV s) 0x7012 4 = some [17, 0, 27, 0] ∧
    bytesOf (exec .convV s) 0x800A 4 = some [18, 0, 13, 0] ∧ bytesOf (exec .convV s) 0x8012 4 = some [15, 0, 16, 0] := by
  decide +kernel
/-- D13: a border sample of 256 is ERR_RANGE. -/
theorem test_convV_range_fault : statusOf (exec .convV (poke paddedD12 0x6006 [0, 1])) = some 0x482#32 := by decide +kernel
/-- D11: the interior is written, the border ring keeps its bytes. -/
theorem test_padV_D11 :
    let s := poke (filled (base 2 2)) 0x2000 [10, 20, 30, 40]
    bytesOf (exec .padV s) 0x6008 8 = some [0xAA, 0xAA, 10, 0, 20, 0, 0xAA, 0xAA] ∧
    bytesOf (exec .padV s) 0x6010 8 = some [0xAA, 0xAA, 30, 0, 40, 0, 0xAA, 0xAA] := by decide +kernel
/-- D18: LANES = 0. -/
theorem test_padV_lanes_fault : statusOf (exec .padV (tune (base 2 2) fun r => { r with lanes := 0 })) = some 0x522#32 := by
  decide +kernel
/-- D14. -/
theorem test_combA_D14 : bytesOf (exec .combA blendD14) 0x5000 14 =
    some [100, 200, 255, 0, 255, 150, 130, 190, 127, 128, 17, 1, 60, 65] := by decide +kernel
/-- D18: sources may overlap. -/
theorem test_combA_sources_overlap :
    statusOf (exec .combA (tune (base 2 2) fun r => { r with edgeAddr := 0x4000 })) = some 0x1#32 := by decide +kernel
/-- D14. -/
theorem test_combI_D14 : bytesOf (exec .combI blendD14) 0x5000 14 =
    some [100, 200, 255, 0, 255, 150, 129, 189, 127, 128, 17, 1, 60, 64] := by decide +kernel
/-- D5: the weights are not looked at. -/
theorem test_combI_ignores_weights :
    statusOf (exec .combI (weights 0x7FC00000#32 0x3F800000#32 0x3F800000#32 (base 1 1))) = some 0x1#32 := by
  decide +kernel
/-- D15: body and remainder. -/
theorem test_combV_D15 :
    bytesOf (exec .combV (tune blendD15 fun r => { r with lanes := 4 })) 0x5000 5 = some [199, 199, 199, 199, 200] ∧
    bytesOf (exec .combV blendD15) 0x5000 5 = some [200, 200, 200, 200, 200] := by decide +kernel
/-- D18: a byte that is not accessible; an interior sample of 256. -/
theorem test_combV_faults :
    statusOf (exec .combV { base 2 2 with holes := [⟨0x8000, 2 ^ 32⟩] }) = some 0x672#32 ∧
    statusOf (exec .combV (poke (base 2 2) 0x700B [1])) = some 0x682#32 := by decide +kernel
/-- P1. -/
theorem test_pipeA_P1 :
    bytesOf (exec .pipeA (image (base 3 3))) 0x5000 9 = some [7, 39, 149, 26, 65, 150, 40, 139, 43] := by decide +kernel
/-- D18: the fault of the last stage. -/
theorem test_pipeA_overlap :
    statusOf (exec .pipeA (tune (base 2 2) fun r => { r with outAddr := 0x2002 })) = some 0x662#32 := by decide +kernel
/-- P2. -/
theorem test_pipeI_P2 :
    bytesOf (exec .pipeI (image (base 3 3))) 0x5000 9 = some [7, 38, 148, 25, 63, 150, 39, 138, 43] := by decide +kernel
/-- D18: H = 0. -/
theorem test_pipeI_dim_fault : statusOf (exec .pipeI (base 2 0)) = some 0x132#32 := by decide +kernel
/-- P3, with LANES = 2. -/
theorem test_pipeV_P3 :
    bytesOf (exec .pipeV (tune (poke (image (filled (base 3 3))) 0x6000 (List.replicate 50 0)) fun r =>
      { r with lanes := 2 })) 0x5000 9 = some [7, 37, 148, 25, 63, 150, 39, 138, 43] := by decide +kernel
/-- D18: ERR_CFG at the PAD stage, LUM written already. -/
theorem test_pipeV_lanes_fault :
    let s := tune (poke (base 2 2) 0x1000 [255, 255, 255]) fun r => { r with lanes := 65 }
    statusOf (exec .pipeV s) = some 0x522#32 ∧ bytesOf (exec .pipeV s) 0x2000 2 = some [255, 0] := by decide +kernel

/-! ### Witnesses: each statement's hypotheses hold somewhere

`witness_<Name>` is about `Obligations.<Name>`; several clauses of one statement are met one by one, at the ends of their
ranges. -/

/-- The conditions under which a command's rule reports this static fault. -/
def Fails (w : Row) (s : State) : ErrCode → Prop
  | .cfg     => ¬w.LanesOk s.regs
  | .dim     => w.LanesOk s.regs ∧ ¬w.DimsOk s.regs
  | .weight  => w.LanesOk s.regs ∧ w.DimsOk s.regs ∧ ¬w.weights s.regs
  | .addr    => w.LanesOk s.regs ∧ w.DimsOk s.regs ∧ w.weights s.regs ∧ ¬w.Fits s.regs
  | .overlap => w.LanesOk s.regs ∧ w.DimsOk s.regs ∧ w.weights s.regs ∧ w.Fits s.regs ∧ ¬w.Apart s.regs
  | .bus     =>
    w.LanesOk s.regs ∧ w.DimsOk s.regs ∧ w.weights s.regs ∧ w.Fits s.regs ∧ w.Apart s.regs ∧ ¬w.Reachable s
  | .cmd     => False
  | .range   => False

theorem fails_of {w : Row} {i : Instr} {st : Stage} (h : w.Describes i st) {s : State} {f : ErrCode}
    (hf : st.staticFault s = some f) : Fails w s f := by
  obtain ⟨h1, h2, h3, h4, h5, h6⟩ := h.checks s
  simp only [Stage.staticFault] at hf
  split at hf
  · rename_i g; obtain rfl := Option.some.inj hf
    exact fun c => by rw [h1.2 c] at g; exact absurd g (by decide)
  rename_i g; have c1 := h1.1 (Bool.not_eq_true _ ▸ g); split at hf
  · rename_i g; obtain rfl := Option.some.inj hf
    exact ⟨c1, fun c => by simp [h2.2 c] at g⟩
  rename_i g; have c2 := h2.1 (by simpa using g); split at hf
  · rename_i g; obtain rfl := Option.some.inj hf
    exact ⟨c1, c2, fun c => by simp [h3.2 c] at g⟩
  rename_i g; have c3 := h3.1 (by simpa using g); split at hf
  · rename_i g; obtain rfl := Option.some.inj hf
    exact ⟨c1, c2, c3, fun c => by simp [h4.2 c] at g⟩
  rename_i g; have c4 := h4.1 (by simpa using g); split at hf
  · rename_i g; obtain rfl := Option.some.inj hf
    exact ⟨c1, c2, c3, c4, fun c => by simp [h5.2 c] at g⟩
  rename_i g; have c5 := h5.1 (by simpa using g); split at hf
  · rename_i g; obtain rfl := Option.some.inj hf
    exact ⟨c1, c2, c3, c4, c5, fun c => by simp [h6.2 c] at g⟩
  · simp at hf

/-- A run that leaves a state answers a next state. -/
theorem next_of {o : Outcome} (h : (after o).isSome = true) : ∃ t, o = .next t := by
  cases o with
  | next t => exact ⟨t, rfl⟩
  | fault f => simp [after] at h
  | refused r => simp [after] at h

/-- Every listed state accepts a command and meets the conditions of the fault listed with it. -/
theorem fails_all {w : Row} {i : Instr} {st : Stage} (h : w.Describes i st) (l : List (State × ErrCode))
    (hl : (l.all fun p => !p.1.regs.status.err && decide (st.staticFault p.1 = some p.2)) = true) :
    ∀ p ∈ l, p.1.regs.status.err = false ∧ Fails w p.1 p.2 := by
  intro p hp
  have := List.all_eq_true.1 hl p hp
  simp only [Bool.and_eq_true, Bool.not_eq_true', decide_eq_true_eq] at this
  exact ⟨this.1, fails_of h this.2⟩

/-- Every listed state accepts a command and passes its checks. -/
theorem ready_all {w : Row} {i : Instr} {st : Stage} (h : w.Describes i st) (l : List State)
    (hl : (l.all fun s => !s.regs.status.err && decide (st.staticFault s = none)) = true) :
    ∀ s ∈ l, s.regs.status.err = false ∧ w.Ready s := by
  intro s hs
  have := List.all_eq_true.1 hl s hs
  simp only [Bool.and_eq_true, Bool.not_eq_true', decide_eq_true_eq] at this
  exact ⟨this.1, (h.ready_iff s).2 this.2⟩

/-- States that pass every check of every stage: one pixel; a 2×2 raster with LANES at both ends of its range; LUM up to the
last byte of MEM. -/
def readyStates : List State :=
  [base 1 1, base 2 2, tune (base 2 2) fun r => { r with lanes := 1 }, tune (base 2 2) fun r => { r with lanes := 64 },
    tune (base 2 2) fun r => { r with lumAddr := 0xFFFFFFFC }]

/-- A change of a base register. -/
def rebase (b : Buffer) (a : Word) (s : State) : State := tune s fun r => r.write (addrReg b) a

/-- States for the faults that every stage has, given one of its buffers and one it must not meet: both dimensions, the top
of MEM passed by one byte, one shared byte, one byte not accessible. -/
def commonFaults (b c : Buffer) : List (State × ErrCode) :=
  let s := base 2 2
  [(base 0 2, .dim), (base 2 0, .dim), (rebase b (BitVec.ofNat 32 (2 ^ 32 - s.regs.len b + 1)) s, .addr),
    (rebase b (BitVec.ofNat 32 (s.regs.base c + s.regs.len c - 1)) s, .overlap),
    ({ s with holes := [⟨s.regs.base b + s.regs.len b - 1, s.regs.base b + s.regs.len b⟩] }, .bus)]

/-- States for ERR_CFG: the illegal values of LANES nearest the legal ones, and the largest. -/
def laneFaults : List (State × ErrCode) :=
  [0, 65, 127].map fun n => (tune (base 2 2) fun r => { r with lanes := n }, .cfg)

/-- States for ERR_WEIGHT (D5): a zero sum, minus zeros, a negative, an infinity, a NaN, an infinite sum. -/
def weightFaults : List (State × ErrCode) :=
  [weights 0 0 0, weights 0x80000000#32 0 0, weights 0xBF800000#32 0x40000000#32 0x40000000#32,
    weights 0x7F800000#32 0x3F800000#32 0x3F800000#32, weights 0x7FC00000#32 0x3F800000#32 0x3F800000#32,
    weights 0x7F7FFFFF#32 0x7F7FFFFF#32 0x3F800000#32].map fun f => (f (base 2 2), .weight)

theorem witness_GrayAWritesTheRoundedFloatSum :
    (∀ s ∈ readyStates, s.regs.status.err = false ∧ rowGrayA.Ready s) ∧
    ∀ p ∈ commonFaults .lum .rgb ++ weightFaults, p.1.regs.status.err = false ∧ Fails rowGrayA p.1 p.2 :=
  ⟨ready_all rowGrayA_describes _ (by decide +kernel), fails_all rowGrayA_describes _ (by decide +kernel)⟩

theorem witness_GrayIWritesTheTruncatedQuantisedSum :
    (∀ s ∈ readyStates, s.regs.status.err = false ∧ rowGrayI.Ready s) ∧
    ∀ p ∈ commonFaults .rgb .lum ++ weightFaults ++ [(weights 0x7E000000#32 0x3F800000#32 0x3F800000#32 (base 2 2), .weight)],
      p.1.regs.status.err = false ∧ Fails rowGrayI p.1 p.2 :=
  ⟨ready_all rowGrayI_describes _ (by decide +kernel), fails_all rowGrayI_describes _ (by decide +kernel)⟩

/-- In a 5×1 raster pixel 3 is the last of the group and pixel 4 the first of the remainder. -/
theorem witness_GrayVWritesLaneGroupsThenScalarRemainder :
    (∀ s ∈ base 5 1 :: readyStates, s.regs.status.err = false ∧ rowGrayV.Ready s) ∧
    (∀ p ∈ commonFaults .lum .rgb ++ weightFaults, p.1.regs.status.err = false ∧ Fails rowGrayV p.1 p.2) ∧
    0 * (base 5 1).regs.w + 3 < 4 * ((base 5 1).regs.w * (base 5 1).regs.h / 4) ∧
    ¬0 * (base 5 1).regs.w + 4 < 4 * ((base 5 1).regs.w * (base 5 1).regs.h / 4) :=
  ⟨ready_all rowGrayV_describes _ (by decide +kernel), fails_all rowGrayV_describes _ (by decide +kernel), by decide,
    by decide⟩

theorem witness_EdgeAWritesTheRoundedEdgeMagnitude :
    (∀ s ∈ readyStates, s.regs.status.err = false ∧ rowEdgeA.Ready s) ∧
    ∀ p ∈ commonFaults .edge .lum, p.1.regs.status.err = false ∧ Fails rowEdgeA p.1 p.2 :=
  ⟨ready_all rowEdgeA_describes _ (by decide +kernel), fails_all rowEdgeA_describes _ (by decide +kernel)⟩

theorem witness_BlurAWritesTheRoundedBlur :
    (∀ s ∈ readyStates, s.regs.status.err = false ∧ rowBlurA.Ready s) ∧
    ∀ p ∈ commonFaults .blur .lum, p.1.regs.status.err = false ∧ Fails rowBlurA p.1 p.2 :=
  ⟨ready_all rowBlurA_describes _ (by decide +kernel), fails_all rowBlurA_describes _ (by decide +kernel)⟩

theorem witness_ConvIWritesBothTruncatedResponses :
    (∀ s ∈ readyStates, s.regs.status.err = false ∧ rowConvI.Ready s) ∧
    ∀ p ∈ commonFaults .blur .edge ++ commonFaults .edge .lum, p.1.regs.status.err = false ∧ Fails rowConvI p.1 p.2 :=
  ⟨ready_all rowConvI_describes _ (by decide +kernel), fails_all rowConvI_describes _ (by decide +kernel)⟩

/-- WLUM all zero, and a border sample of 255, the largest legal value; and a border sample of 256. -/
theorem witness_ConvVWritesInteriorsOrFaultsOnLargeSamples :
    (∀ s ∈ readyStates, s.regs.status.err = false ∧ rowConvV.Ready s) ∧
    (∀ p ∈ commonFaults .wblur .wedge ++ laneFaults, p.1.regs.status.err = false ∧ Fails rowConvV p.1 p.2) ∧
    (let s := poke paddedD12 0x6000 [255]
     s.regs.status.err = false ∧ rowConvV.Ready s ∧ WlumSmall s) ∧
    (let s := poke paddedD12 0x6000 [0, 1]
     s.regs.status.err = false ∧ rowConvV.Ready s ∧ ¬WlumSmall s) :=
  ⟨ready_all rowConvV_describes _ (by decide +kernel), fails_all rowConvV_describes _ (by decide +kernel),
    ⟨rfl, (rowConvV_describes.ready_iff _).2 (by decide +kernel), (wlumSmall_iff _).2 (by decide +kernel)⟩,
    rfl, (rowConvV_describes.ready_iff _).2 (by decide +kernel), fun h => absurd ((wlumSmall_iff _).1 h) (by decide +kernel)⟩

theorem witness_PadVWidensTheInteriorOnly :
    (∀ s ∈ readyStates, s.regs.status.err = false ∧ rowPadV.Ready s) ∧
    ∀ p ∈ commonFaults .wlum .lum ++ laneFaults, p.1.regs.status.err = false ∧ Fails rowPadV p.1 p.2 :=
  ⟨ready_all rowPadV_describes _ (by decide +kernel), fails_all rowPadV_describes _ (by decide +kernel)⟩

theorem witness_CombAWritesTheRoundedBlend :
    (∀ s ∈ readyStates, s.regs.status.err = false ∧ rowCombA.Ready s) ∧
    ∀ p ∈ commonFaults .out .blur, p.1.regs.status.err = false ∧ Fails rowCombA p.1 p.2 :=
  ⟨ready_all rowCombA_describes _ (by decide +kernel), fails_all rowCombA_describes _ (by decide +kernel)⟩

theorem witness_CombIWritesTheTruncatedBlend :
    (∀ s ∈ readyStates, s.regs.status.err = false ∧ rowCombI.Ready s) ∧
    ∀ p ∈ commonFaults .out .lum, p.1.regs.status.err = false ∧ Fails rowCombI p.1 p.2 :=
  ⟨ready_all rowCombI_describes _ (by decide +kernel), fails_all rowCombI_describes _ (by decide +kernel)⟩

/-- With W = 5 and LANES = 4 column 3 is the last of the body and column 4 the remainder; one interior sample of 256. -/
theorem witness_CombVWritesLaneBodyThenRemainder :
    (∀ s ∈ readyStates, s.regs.status.err = false ∧ rowCombV.Ready s) ∧
    (∀ p ∈ commonFaults .out .wblur ++ laneFaults, p.1.regs.status.err = false ∧ Fails rowCombV p.1 p.2) ∧
    (let s := tune blendD15 fun r => { r with lanes := 4 }
     s.regs.status.err = false ∧ rowCombV.Ready s ∧ (InteriorSmall s .wlum ∧ InteriorSmall s .wedge ∧ InteriorSmall s .wblur) ∧
      3 < s.regs.laneCount * (s.regs.w / s.regs.laneCount) ∧ ¬4 < s.regs.laneCount * (s.regs.w / s.regs.laneCount)) ∧
    (let s := poke (base 2 2) 0x700B [1]
     s.regs.status.err = false ∧ rowCombV.Ready s ∧
      ¬(InteriorSmall s .wlum ∧ InteriorSmall s .wedge ∧ InteriorSmall s .wblur)) :=
  ⟨ready_all rowCombV_describes _ (by decide +kernel), fails_all rowCombV_describes _ (by decide +kernel),
    ⟨rfl, (rowCombV_describes.ready_iff _).2 (by decide +kernel), (interiorSmall_iff _).2 (by decide +kernel), by decide,
      by decide⟩,
    rfl, (rowCombV_describes.ready_iff _).2 (by decide +kernel),
    fun h => absurd ((interiorSmall_iff _).1 h) (by decide +kernel)⟩

/-- The ring of WLUM, computed. -/
def ringCheck (s : State) (n : Nat) : Bool :=
  s.regs.widePixels.all fun p =>
    !(decide (p.1 = 0) || decide (p.1 = s.regs.w + 1) || decide (p.2 = 0) || decide (p.2 = s.regs.h + 1)) ||
      decide (s.mem.read16 (s.regs.waddr .wlum p.1 p.2) ≤ n)

theorem ring_of {s : State} {n : Nat} (h : ringCheck s n = true) : RingAtMost s n := by
  intro X Y hX hY hr
  have := List.all_eq_true.1 h (X, Y) (Regs.mem_widePixels.2 ⟨hX, hY⟩)
  simp only [Bool.or_eq_true, Bool.not_eq_true', decide_eq_true_eq, Bool.or_eq_false_iff, decide_eq_false_iff_not] at this
  rcases this with h | h
  · rcases hr with hr | hr | hr | hr
    · exact absurd hr h.1.1.1
    · exact absurd hr h.1.1.2
    · exact absurd hr h.1.2
    · exact absurd hr h.2
  · exact h

theorem witness_ConvVAfterPadVEqualsConvI :
    let s := poke (base 2 2) 0x2000 [10, 20, 30, 40]
    s.regs.status.err = false ∧ rowConvI.Ready s ∧ rowPadV.Ready s ∧ rowConvV.Ready s ∧ RingAtMost s 0 ∧
      1 < s.regs.w ∧ 1 < s.regs.h :=
  ⟨rfl, (rowConvI_describes.ready_iff _).2 (by decide +kernel), (rowPadV_describes.ready_iff _).2 (by decide +kernel),
    (rowConvV_describes.ready_iff _).2 (by decide +kernel), ring_of (by decide +kernel), by decide, by decide⟩

/-- For PIPE.V a ring that holds 255 and nothing more. -/
theorem witness_PipesCompleteWhenEveryStageIsReady :
    let s := poke (image (base 3 3)) 0x6000 [255]
    s.regs.status.err = false ∧
    (rowGrayA.Ready s ∧ rowEdgeA.Ready s ∧ rowBlurA.Ready s ∧ rowCombA.Ready s) ∧
    (rowGrayI.Ready s ∧ rowConvI.Ready s ∧ rowCombI.Ready s) ∧
    (rowGrayV.Ready s ∧ rowPadV.Ready s ∧ rowConvV.Ready s ∧ rowCombV.Ready s ∧ RingAtMost s 255) :=
  ⟨rfl,
    ⟨(rowGrayA_describes.ready_iff _).2 (by decide +kernel), (rowEdgeA_describes.ready_iff _).2 (by decide +kernel),
      (rowBlurA_describes.ready_iff _).2 (by decide +kernel), (rowCombA_describes.ready_iff _).2 (by decide +kernel)⟩,
    ⟨(rowGrayI_describes.ready_iff _).2 (by decide +kernel), (rowConvI_describes.ready_iff _).2 (by decide +kernel),
      (rowCombI_describes.ready_iff _).2 (by decide +kernel)⟩,
    (rowGrayV_describes.ready_iff _).2 (by decide +kernel), (rowPadV_describes.ready_iff _).2 (by decide +kernel),
    (rowConvV_describes.ready_iff _).2 (by decide +kernel), (rowCombV_describes.ready_iff _).2 (by decide +kernel),
    ring_of (by decide +kernel)⟩

/-- The three PIPE statements assume ERR = 0 alone. -/
theorem witness_PipesAreTheirStagesInSequence : (image (base 3 3)).regs.status.err = false := rfl

/-- A 3×3 raster of 127s, plain and widened. -/
def flat : State :=
  poke (poke (poke (poke (base 3 3) 0x2000 (List.replicate 9 127)) 0x600C [127, 0, 127, 0, 127]) 0x6016
    [127, 0, 127, 0, 127]) 0x6020 [127, 0, 127, 0, 127]

/-- The constant rasters of the corner cases of EDGE.A, BLUR.A and CONV.I: 3×3, and one pixel of 255. -/
theorem witness_ConstLum :
    ConstLum flat 127 ∧ 2 < flat.regs.w ∧ 2 < flat.regs.h ∧
    let s := poke (base 1 1) 0x2000 [255]
    ConstLum s 255 ∧ s.regs.w = 1 ∧ s.regs.h = 1 := by
  have h : ∀ u < 3, ∀ v < 3, byteAt flat .lum u v = 127 := by decide +kernel
  have g : ∀ u < 1, ∀ v < 1, byteAt (poke (base 1 1) 0x2000 [255]) .lum u v = 255 := by decide +kernel
  exact ⟨fun u v hu hv => h u hu v hv, by decide, by decide, fun u v hu hv => g u hu v hv, rfl, rfl⟩

/-- The one interior pixel of the 3×3 raster. -/
theorem witness_ConstantRasterInteriorResponses :
    ConstLum flat 127 ∧ (∀ u v, u < flat.regs.w → v < flat.regs.h → wideAt flat .wlum u v = 127) ∧ 1 ≤ 1 ∧
      1 + 2 ≤ flat.regs.w ∧ 1 + 2 ≤ flat.regs.h := by
  have h : ∀ u < 3, ∀ v < 3, wideAt flat .wlum u v = 127 := by decide +kernel
  exact ⟨witness_ConstLum.1, fun u v hu hv => h u hu v hv, by decide, by decide, by decide⟩

/-- The decoder rejects the word. -/
def illegal (w : Word) : Bool :=
  match decode w with
  | .error _ => true
  | .ok _    => false

theorem witness_IllegalWordsRaiseErrCmd :
    ∀ w ∈ [0x00#32, 0x04#32, 0x05#32, 0x12#32, 0x13#32, 0x15#32, 0x22#32, 0x23#32, 0x08#32, 0x0F#32, 0x30#32, 0x3F#32,
      0x41#32, 0xFFFFFFFF#32],
    (∃ e, decode w = .error e) ∧ ((base 2 2).withHost [.regWrite 1 w]).host = .regWrite 1 w :: [] ∧
      ((base 2 2).withHost [.regWrite 1 w]).regs.status.err = false := by
  have key : ∀ w : Word, illegal w = true → ∃ e, decode w = .error e := by
    intro w h
    unfold illegal at h
    cases hd : decode w with
    | error e => exact ⟨e, rfl⟩
    | ok i => simp [hd] at h
  intro w hw
  exact ⟨key w (List.all_eq_true.1 (by decide +kernel : ([0x00#32, 0x04#32, 0x05#32, 0x12#32, 0x13#32, 0x15#32, 0x22#32,
    0x23#32, 0x08#32, 0x0F#32, 0x30#32, 0x3F#32, 0x41#32, 0xFFFFFFFF#32].all illegal) = true) w hw), rfl, rfl⟩

theorem witness_StepRunsTheDecodedCommand :
    ((base 2 2).withHost [command .edgeA]).host = .regWrite 1 0x02#32 :: [] ∧ decode 0x02#32 = .ok .edgeA ∧
    State.reset.host = [] := by decide

theorem witness_CmdWriteIsStoredOrIgnored :
    ((base 2 2).withHost [.regWrite 1 0x01#32]).host = .regWrite 1 0x01#32 :: [] ∧ (base 2 2).regs.status.err = false ∧
    decode 0x01#32 = .ok .grayA ∧ (stuck.withHost [.regWrite 1 0x01#32]).host = .regWrite 1 0x01#32 :: [] ∧ stuck.regs.status.err = true := by decide

theorem witness_ResetGivesEveryRegisterItsValue :
    (stuck.withHost [.reset]).host = .reset :: [] ∧ stuck.regs ≠ State.reset.regs := by decide

/-- Every offset's clause, the reserved ones at both ends. -/
theorem witness_RegReadHasNoSideEffect :
    ∀ k ∈ (List.range 18).map (Fin.ofNat 64) ++ [63], ((base 2 2).withHost [.regRead k]).host = .regRead k :: [] := by
  decide +kernel

/-- CFG, the last register, ID, the first reserved offset and the last. -/
theorem witness_RegWriteReadsBackAndTouchesNothingElse :
    (∀ k ∈ [(3 : Fin 64), 4, 16], 3 ≤ k.val ∧ k.val ≤ 16 ∧
      (stuck.withHost [.regWrite k 0xFFFFFFFF#32]).host = .regWrite k 0xFFFFFFFF#32 :: []) ∧
    ∀ k ∈ [(0 : Fin 64), 17, 63], (k = 0 ∨ 16 < k.val) ∧
      (stuck.withHost [.regWrite k 0xFFFFFFFF#32]).host = .regWrite k 0xFFFFFFFF#32 :: [] := by decide

theorem witness_StatusIsWriteOneToClear :
    (stuck.withHost [.regWrite 2 1#32]).host = .regWrite 2 1#32 :: [] ∧
    (stuck.withHost [.regWrite 2 2#32]).host = .regWrite 2 2#32 :: [] ∧ (2#32).getLsbD 1 = true ∧ (1#32).getLsbD 1 = false ∧ (1#32).getLsbD 0 = true ∧ (2#32).getLsbD 0 = false ∧ stuck.Inv :=
  ⟨rfl, rfl, by decide, by decide, by decide, by decide, by decide, by decide, by decide⟩

/-- One step with ERR = 1 of each kind: ignored, acknowledged, reset. -/
theorem witness_FaultStaysUntilAcknowledged :
    stuck.regs.status.err = true ∧ (∃ t, step (stuck.withHost [command .grayA]) = .next t) ∧
    (∃ t, step (stuck.withHost [.regWrite 2 2]) = .next t) ∧ ∃ t, step (stuck.withHost [.reset]) = .next t :=
  ⟨rfl, next_of (by decide +kernel), next_of (by decide +kernel), next_of (by decide +kernel)⟩

theorem witness_WidenedSamplesAreLittleEndian : (0 : Nat) ≠ 1 ∧ (0 : Nat) ≠ 1 + 1 ∧ (3 : Nat) ≠ 1 ∧ (3 : Nat) ≠ 1 + 1 := by
  decide

/-- Two memories made in different orders, one with a byte written and then erased. -/
theorem witness_CanonicalMemoriesThatReadAlikeAreEqual :
    let m := (Memory.mk 0 []).writeAll [(5, 1), (3, 2)]
    let n := (Memory.mk 0 []).writeAll [(3, 2), (4, 9), (5, 1), (4, 0)]
    m.wf = true ∧ n.wf = true ∧ m.fill = n.fill ∧ ∀ a, m.read a = n.read a := by
  have h : (Memory.mk 0 []).writeAll [(5, 1), (3, 2)] = (Memory.mk 0 []).writeAll [(3, 2), (4, 9), (5, 1), (4, 0)] := by
    decide
  exact ⟨by decide, by decide, rfl, fun a => by rw [h]⟩

/-- Up to the last byte of MEM. -/
theorem witness_HostStoresAndLoadsBytes :
    (State.reset.withHost [.memWrite 0xFFFFFFFE [1, 2]]).host = .memWrite 0xFFFFFFFE [1, 2] :: [] ∧
    0xFFFFFFFE + [(1 : Byte), 2].length ≤ 2 ^ 32 ∧
    (State.reset.withHost [.memRead 0xFFFFFFFE 2]).host = .memRead 0xFFFFFFFE 2 :: [] ∧ 0xFFFFFFFE + 2 ≤ 2 ^ 32 := by decide

/-- Both sides of the equivalence occur: one byte past the end stops, the last byte does not. -/
theorem witness_StepStopsOnlyOnHostAccessOutsideMem :
    step (State.reset.withHost [.memRead 0xFFFFFFFF 2]) = .fault .hostAccessOutsideMem ∧
    step (State.reset.withHost [.memWrite 0xFFFFFFFF [1, 2]]) = .fault .hostAccessOutsideMem ∧
    (∃ t, step (State.reset.withHost [.memRead 0xFFFFFFFF 1]) = .next t) ∧
    ∃ t, step (State.reset.withHost [.memWrite 0xFFFFFFFF [1]]) = .next t :=
  ⟨rfl, rfl, next_of (by decide +kernel), next_of (by decide +kernel)⟩

/-- A step of each of the three kinds. -/
theorem witness_MemoryChangesOnlyByCommandsAndHostStores :
    (∃ t, step ((base 2 2).withHost [.reset]) = .next t) ∧ (∃ t, step ((base 2 2).withHost [command .padV]) = .next t) ∧
    ∃ t, step ((base 2 2).withHost [.memWrite 0 [1]]) = .next t :=
  ⟨next_of (by decide +kernel), next_of (by decide +kernel), next_of (by decide +kernel)⟩

theorem witness_RhazOfQuartersAndSixteenths : (0 : ℚ) ≤ 0 ∧ (0 : ℚ) ≤ 5 / 2 := by decide +kernel

/-- A tie. -/
theorem witness_RneTakesTheEvenOfTwoNearest : |(rne (5 / 2) : ℚ) - 5 / 2| = 1 / 2 := by decide +kernel

/-- A tie with an even floor, a tie with an odd floor, no tie. -/
theorem witness_RneDiffersFromRhazOnlyOnEvenTies :
    ((5 / 2 : ℚ) - (⌊(5 / 2 : ℚ)⌋ : ℚ) = 1 / 2 ∧ ⌊(5 / 2 : ℚ)⌋ % 2 = 0) ∧
    ¬((3 / 2 : ℚ) - (⌊(3 / 2 : ℚ)⌋ : ℚ) = 1 / 2 ∧ ⌊(3 / 2 : ℚ)⌋ % 2 = 0) ∧
    ¬((9 / 4 : ℚ) - (⌊(9 / 4 : ℚ)⌋ : ℚ) = 1 / 2 ∧ ⌊(9 / 4 : ℚ)⌋ % 2 = 0) := by decide +kernel

/-- The smallest subnormal, the largest finite value, an infinity; both zeros. -/
theorem witness_Binary32PatternsRoundTrip :
    (F32.decode 0x00000001#32 ≠ .nan ∧ F32.decode 0x00000001#32 ≠ .fin 0 ∧ F32.decode 0x00000001#32 = .fin (pow2 (-149))) ∧
    (F32.decode 0x7F7FFFFF#32 ≠ .nan ∧ F32.decode 0x7F7FFFFF#32 ≠ .fin 0 ∧
      F32.decode 0x7F7FFFFF#32 = .fin (2 ^ 128 - 2 ^ 104)) ∧
    (F32.decode 0xFF800000#32 ≠ .nan ∧ F32.decode 0xFF800000#32 ≠ .fin 0) ∧
    (F32.decode 0x00000000#32 ≠ .nan ∧ F32.decode 0x00000000#32 = .fin 0) ∧
    (F32.decode 0x80000000#32 ≠ .nan ∧ F32.decode 0x80000000#32 = .fin 0) := by decide +kernel

/-- A subnormal tie, with the other value as near, and the largest finite value. -/
theorem witness_Fl32IsTheNearestBinary32Value :
    fl32 (3 * pow2 (-150)) = .fin (pow2 (-148)) ∧ F32.decode 0x00000001#32 = .fin (pow2 (-149)) ∧
    pow2 (-149) ≠ pow2 (-148) ∧ |pow2 (-148) - 3 * pow2 (-150)| = |pow2 (-149) - 3 * pow2 (-150)| ∧ fl32 (2 ^ 128 - 2 ^ 104) = .fin (2 ^ 128 - 2 ^ 104) := by decide +kernel

/-- The default literals (R103). -/
theorem witness_SetwStoresTheNearestBinary32Weights :
    (State.reset.withHost (setW (2126 / 10000) (7152 / 10000) 0)).host = setW (2126 / 10000) (7152 / 10000) 0 ++ [] ∧
    fl32 (2126 / 10000) = .fin (F32.decode 0x3E59B3D0#32).val ∧
    fl32 (7152 / 10000) = .fin (F32.decode 0x3F371759#32).val ∧ fl32 0 = .fin 0 := by decide +kernel

/-- Both sides of both equivalences occur. -/
theorem witness_WeightsAreValidExactlyAsR110Says :
    State.reset.regs.weightsValid = true ∧ (weights 0 0 0 State.reset).regs.weightsValid = false ∧
    State.reset.regs.weightsValidI = true ∧
    (weights 0x7E000000#32 0x3F800000#32 0x3F800000#32 State.reset).regs.weightsValidI = false ∧
    (let s := weights 0 0 0 (base 1 1)
     s.regs.status.err = false ∧ 0 < s.regs.w ∧ 0 < s.regs.h ∧ s.regs.weightsValid = false) := by decide +kernel

/-- For the corner case of GRAY.A: each weight zero in turn. -/
theorem witness_ZeroWeights :
    let one := 0x3F800000#32
    let r := (weights 0 one one State.reset).regs
    let g := (weights one 0 one State.reset).regs
    let b := (weights one one 0 State.reset).regs
    r.weightsValid = true ∧ F32.decode r.wgtR = .fin 0 ∧ g.weightsValid = true ∧ F32.decode g.wgtG = .fin 0 ∧
      b.weightsValid = true ∧ F32.decode b.wgtB = .fin 0 := by decide +kernel

theorem witness_GrayFloatSumsNeedNoClamp : State.reset.regs.weightsValid = true ∧ (255 : Nat) ≤ 255 := by decide +kernel

/-- Weights whose quantised sum is 1023, 1024 and 1025 (R113). -/
theorem witness_QuantisedWeightsAndSumsStayInRange :
    (weights 0x3F800000#32 0x3F800000#32 0x3F800000#32 State.reset).regs.weightsValidI = true ∧
    State.reset.regs.weightsValidI = true ∧
    (weights 0x3F000000#32 0x3F000000#32 0x447FC000#32 State.reset).regs.weightsValidI = true ∧ (255 : Nat) ≤ 255 := by
  decide +kernel

theorem witness_CombABinary32EqualsExactRounding : (255 : Nat) ≤ 255 ∧ (0 : Nat) ≤ 255 := by decide

/-- Both sides of the comparison of R164. -/
theorem witness_CombinerTiersDifferAsR164Says :
    (255 : Nat) ≤ 255 ∧ numFormula 255 200 100 % 255 < numFormula 255 200 100 / 255 ∧
    ¬numFormula 64 10 250 % 255 < numFormula 64 10 250 / 255 := by decide

/-- A completed command, a static fault and an address outside every destination. -/
theorem witness_CommandsWriteOnlyStatusCmdAndDestinations :
    (∃ t, exec .pipeV (base 2 2) = .next t) ∧ (∃ t, exec .combV (base 0 2) = .next t) ∧
    ∀ b ∈ destsOf .pipeV, ¬(base 2 2).regs.inRange b 0x1FFF :=
  ⟨next_of (by decide +kernel), next_of (by decide +kernel), by decide⟩

theorem witness_OnlyGrayCommandsReadTheWeights :
    Instr.combV ∉ [Instr.grayA, .grayI, .grayV, .pipeA, .pipeI, .pipeV] ∧ ∃ t, exec .combV (base 2 2) = .next t :=
  ⟨by decide, next_of (by decide +kernel)⟩

/-- A command of each kind, LANES from 8 to each end of its range. -/
theorem witness_LanesShowOnlyInCombV :
    (∃ t, exec .combI (base 2 2) = .next t) ∧ Instr.combI ∉ [Instr.padV, .convV, .combV, .pipeV] ∧
    (∃ t, exec .padV (base 2 2) = .next t) ∧ (∃ t, exec .convV (base 2 2) = .next t) ∧
    1 ≤ (base 2 2).regs.lanes.toNat ∧ (base 2 2).regs.lanes.toNat ≤ 64 ∧ 1 ≤ (1 : BitVec 7).toNat ∧
    (64 : BitVec 7).toNat ≤ 64 :=
  ⟨next_of (by decide +kernel), by decide, next_of (by decide +kernel), next_of (by decide +kernel), by decide⟩

/-- Every stage command completes on the base state. -/
theorem witness_StageCommandsAreIdempotent :
    ∀ i ∈ [Instr.grayA, .grayI, .grayV, .edgeA, .blurA, .convI, .convV, .padV, .combA, .combI, .combV],
      (rowOf i).isSome = true ∧ (base 2 2).regs.status.err = false ∧
        ((after (exec i (base 2 2))).map fun t => t.regs.status.done) = some true := by
  have h : ∀ i ∈ [Instr.grayA, .grayI, .grayV, .edgeA, .blurA, .convI, .convV, .padV, .combA, .combI, .combV],
      ((rowOf i).isSome && !(base 2 2).regs.status.err &&
        decide (((after (exec i (base 2 2))).map fun t => t.regs.status.done) = some true)) = true := by decide +kernel
  intro i hi
  have := h i hi
  simp only [Bool.and_eq_true, Bool.not_eq_true', decide_eq_true_eq] at this
  exact ⟨this.1.1, this.1.2, this.2⟩

theorem witness_StepKeepsTheInvariant :
    stuck.Inv ∧ ((poke (base 2 2) 0x2000 [1]).withHost [command .edgeA]).Inv ∧
    ∃ t, step ((poke (base 2 2) 0x2000 [1]).withHost [command .edgeA]) = .next t :=
  ⟨⟨by decide, by decide, by decide⟩, ⟨by decide, by decide, by decide⟩, next_of (by decide +kernel)⟩

theorem witness_WellFormedScriptsNeverStop :
    ((base 2 2).withHost (setDim 3 3 ++ [command .pipeA, .memRead 0x5000 9, .memWrite 0xFFFFFFFF [1], rd .status] ++
      clrErr)).scriptOk = true := by decide

end Sys2Proof.Tests
end

section
/-! PROOFS. The numeric primitives of spec/00_scope.md (R10, R11, R13, R14). A finite binary32 value is held in its normal
form `±k·2^x`: the patterns are exactly these forms, the spacing at such a value is `2^x`, and `fl32` rounds to the nearest
of them. -/

namespace Sys2Proof.Machine

/-! ### Rounding to an integer -/

/-- A half added before the division rounds to the nearest, a tie up (R10). -/
theorem rhaz_div_two_mul (a : Nat) {h : Nat} (hh : 0 < h) :
    rhaz ((a : ℚ) / (2 * h : Nat)) = ((a + h) / (2 * h) : Nat) := by
  have hp : (0 : ℚ) < (2 * h : Nat) := by exact_mod_cast Nat.mul_pos two_pos hh
  have lo : ((2 * h * ((a + h) / (2 * h)) : Nat) : ℚ) ≤ (a + h : Nat) := by exact_mod_cast Nat.mul_div_le _ _
  have hi : ((a + h : Nat) : ℚ) < (2 * h * ((a + h) / (2 * h) + 1) : Nat) := by
    exact_mod_cast Nat.lt_mul_div_succ _ (by omega)
  rw [rhaz_eq_iff, le_div_iff₀ hp, div_lt_iff₀ hp, Int.cast_natCast]
  push_cast at lo hi ⊢
  constructor <;> linarith

/-- Settles O17: `rhaz` is defined as that floor; on quarters and sixteenths the half is 2 and 8 (R10). -/
theorem rhazOfQuartersAndSixteenths : Obligations.RhazOfQuartersAndSixteenths := by
  refine ⟨fun q _ => rfl, fun a => ⟨?_, ?_⟩⟩
  · simpa [Nat.shiftRight_eq_div_pow] using rhaz_div_two_mul a (h := 2) (by decide)
  · simpa [Nat.shiftRight_eq_div_pow] using rhaz_div_two_mul a (h := 8) (by decide)

theorem rne_le_of_lt_add_half {q : ℚ} {n : Int} (h : q < n + 1 / 2) : rne q ≤ n := by
  have h1 := (abs_le.1 (rne_near q)).2
  have h2 : (rne q : ℚ) < n + 1 := by linarith
  exact Int.lt_add_one_iff.1 (by exact_mod_cast h2)

theorem le_rne_of_sub_half_lt {q : ℚ} {n : Int} (h : (n : ℚ) - 1 / 2 < q) : n ≤ rne q := by
  have h1 := (abs_le.1 (rne_near q)).1
  have h2 : (n : ℚ) < rne q + 1 := by linarith
  exact Int.lt_add_one_iff.1 (by exact_mod_cast h2)

/-- Any other integer is at least half a unit away. -/
theorem half_le_of_ne_rne {q : ℚ} {n : Int} (h : n ≠ rne q) : 1 / 2 ≤ |(n : ℚ) - q| := by
  rcases lt_or_gt_of_ne h with h | h
  · have h1 : (n : ℚ) + 1 / 2 ≤ q := not_lt.1 fun h' => absurd (rne_le_of_lt_add_half h') (by omega)
    rw [abs_of_nonpos (by linarith)]; linarith
  · have h1 : q ≤ (n : ℚ) - 1 / 2 := not_lt.1 fun h' => absurd (le_rne_of_sub_half_lt h') (by omega)
    rw [abs_of_nonneg (by linarith)]; linarith

theorem rne_nearest (q : ℚ) (n : Int) : |(rne q : ℚ) - q| ≤ |(n : ℚ) - q| := by
  rcases eq_or_ne n (rne q) with rfl | h
  · exact le_rfl
  · exact (rne_near q).trans (half_le_of_ne_rne h)

theorem rne_even_of_half {q : ℚ} (h : |(rne q : ℚ) - q| = 1 / 2) : rne q % 2 = 0 := by
  simp only [rne] at h ⊢
  split at h
  case isTrue hup =>
    rw [if_pos hup]
    rcases hup with hd | ⟨-, hodd⟩
    · have hlt := Rat.lt_floor_add_one q
      push_cast at h hlt
      rw [abs_of_pos (by linarith)] at h
      linarith
    · omega
  case isFalse hdown =>
    rw [if_neg hdown]
    have hd : q - (q.floor : ℚ) = 1 / 2 := by
      rw [abs_sub_comm, abs_of_nonneg (sub_nonneg.2 (Rat.floor_le q))] at h; exact h
    have : ¬q.floor % 2 = 1 := fun hodd => hdown (.inr ⟨hd, hodd⟩)
    omega

/-- Settles O18: another integer is half a unit away or more, and `rne` goes up from a half only where the floor is odd
(R11). -/
theorem rneTakesTheEvenOfTwoNearest : Obligations.RneTakesTheEvenOfTwoNearest :=
  fun q => ⟨rne_nearest q, rne_even_of_half⟩

/-- Where another integer is as near, `rne` answered the even one. -/
theorem rne_even_of_tie {q : ℚ} {n : Int} (hn : n ≠ rne q) (h : |(rne q : ℚ) - q| = |(n : ℚ) - q|) :
    rne q % 2 = 0 :=
  rne_even_of_half (le_antisymm (rne_near q) (h ▸ half_le_of_ne_rne hn))

theorem le_rne_iff_of_even {q : ℚ} {n : Int} (hn : n % 2 = 0) : n ≤ rne q ↔ (n : ℚ) - 1 / 2 ≤ q := by
  constructor
  · intro h
    have h1 : (n : ℚ) ≤ rne q := by exact_mod_cast h
    linarith [(abs_le.1 (rne_near q)).2]
  · intro h
    rcases h.lt_or_eq with h | rfl
    · exact le_rne_of_sub_half_lt h
    · by_contra hlt
      have h1 : n - 1 ≤ rne ((n : ℚ) - 1 / 2) := le_rne_of_sub_half_lt (by push_cast; linarith)
      have h2 : rne ((n : ℚ) - 1 / 2) = n - 1 := by omega
      have := rne_even_of_half (q := (n : ℚ) - 1 / 2) (by rw [h2]; push_cast; norm_num [abs_of_neg])
      omega

/-! ### Binary32 values in normal form -/

/-- `k·2^x` is a binary32 magnitude in normal form: 24 bits, the leading one set above the smallest spacing (R13). -/
structure Normal (k : Nat) (x : Int) : Prop where
  lo : -149 ≤ x
  hi : x ≤ 104
  lt : k < 2 ^ 24
  full : x = -149 ∨ 2 ^ 23 ≤ k

theorem normal_zero : Normal 0 (-149) := ⟨le_rfl, by norm_num, by norm_num, .inl rfl⟩

/-- The exponent of the spacing, `E - 23` (R14). -/
def ulpExp (a : ℚ) : Int := max (floorLog2 a) (-126) - 23

theorem ulp_eq_pow2 (a : ℚ) : ulp a = pow2 (ulpExp a) := rfl

/-- `2^n·2^x` is `2^(n+x)`. -/
theorem two_pow_mul_pow2 (n : Nat) (x : Int) : (2 : ℚ) ^ n * pow2 x = pow2 (n + x) := by
  rw [pow2_add]; simp [pow2_eq_zpow]

theorem floorLog2_eq {a : ℚ} (ha : 0 < a) {n : Int} (h1 : pow2 n ≤ a) (h2 : a < pow2 (n + 1)) : floorLog2 a = n := by
  obtain ⟨g1, g2⟩ := floorLog2_spec ha
  have := pow2_lt_iff.1 (g1.trans_lt h2)
  have := pow2_lt_iff.1 (h1.trans_lt g2)
  omega

theorem value_nonneg (k : Nat) (x : Int) : 0 ≤ (k : ℚ) * pow2 x := mul_nonneg (Nat.cast_nonneg k) (pow2_pos x).le

theorem value_pos {k : Nat} (hk : 0 < k) (x : Int) : 0 < (k : ℚ) * pow2 x := mul_pos (Nat.cast_pos.2 hk) (pow2_pos x)

theorem significand_pos_iff {k : Nat} {x : Int} {q : ℚ} (hq : |q| = k * pow2 x) : 0 < k ↔ q ≠ 0 := by
  rw [← abs_pos, hq, mul_pos_iff_of_pos_right (pow2_pos x), Nat.cast_pos]

theorem Normal.lt_pow2 {k : Nat} {x : Int} (h : Normal k x) : (k : ℚ) * pow2 x < pow2 128 := by
  have h1 : (k : ℚ) < 2 ^ 24 := by exact_mod_cast h.lt
  calc (k : ℚ) * pow2 x < 2 ^ 24 * pow2 x := mul_lt_mul_of_pos_right h1 (pow2_pos x)
    _ = pow2 (24 + x) := two_pow_mul_pow2 24 x
    _ ≤ pow2 128 := pow2_le (by have := h.hi; omega)

/-- At a value in normal form the spacing is that of its form. -/
theorem Normal.ulpExp_eq {k : Nat} {x : Int} (h : Normal k x) (hk : 0 < k) : ulpExp (k * pow2 x) = x := by
  have hx := pow2_pos x
  have hpos := value_pos hk x
  by_cases hf : 2 ^ 23 ≤ k
  · have h1 : (2 : ℚ) ^ 23 ≤ k := by exact_mod_cast hf
    have h2 : (k : ℚ) < 2 ^ 24 := by exact_mod_cast h.lt
    have e : floorLog2 (k * pow2 x) = 23 + x := by
      refine floorLog2_eq hpos ?_ ?_
      · exact (two_pow_mul_pow2 23 x).symm.trans_le (mul_le_mul_of_nonneg_right h1 hx.le)
      · exact (mul_lt_mul_of_pos_right h2 hx).trans_eq ((two_pow_mul_pow2 24 x).trans (by congr 1; norm_num; ring))
    have := h.lo
    rw [ulpExp, e]; omega
  · have hx149 : x = -149 := h.full.resolve_right hf
    have h2 : (k : ℚ) < 2 ^ 23 := by exact_mod_cast not_le.1 hf
    have h3 : (k : ℚ) * pow2 x < pow2 (23 + x) :=
      (mul_lt_mul_of_pos_right h2 hx).trans_eq (two_pow_mul_pow2 23 x)
    have := pow2_lt_iff.1 ((floorLog2_spec hpos).1.trans_lt h3)
    rw [ulpExp]; omega

/-- A value in normal form is a whole number of spacings. -/
theorem Normal.div_ulp {k : Nat} {x : Int} (h : Normal k x) (hk : 0 < k) :
    (k * pow2 x) / ulp (k * pow2 x) = (k : ℚ) := by
  rw [ulp_eq_pow2, h.ulpExp_eq hk, mul_div_assoc, div_self (pow2_pos x).ne', mul_one]

/-- `fl32` leaves a value in normal form alone (R14). -/
theorem Normal.fl32_eq {k : Nat} {x : Int} (h : Normal k x) {q : ℚ} (hq : |q| = k * pow2 x) : fl32 q = .fin q := by
  rcases eq_or_ne q 0 with rfl | h0
  · exact fl32_zero
  · have hk := (significand_pos_iff hq).2 h0
    have hr : (rne (|q| / ulp |q|) : ℚ) * ulp |q| = |q| := by
      rw [hq, h.div_ulp hk, ← Int.cast_natCast, rne_intCast, Int.cast_natCast, ulp_eq_pow2, h.ulpExp_eq hk]
    rcases fl32_cases h0 with ⟨h', -⟩ | ⟨-, h'⟩
    · rw [hr, hq] at h'; exact absurd h.lt_pow2 (not_lt.2 h')
    · rw [h', hr]
      split
      case isTrue hn => rw [abs_of_neg hn, neg_neg]
      case isFalse hn => rw [abs_of_nonneg (not_lt.1 hn)]

/-! ### Patterns by their fields -/

/-- The pattern of sign `s`, exponent field `e` and fraction `m` (R13). -/
def pattern (s : Bool) (e m : Nat) : Word := BitVec.ofNat 32 ((if s then 2 ^ 31 else 0) + e * 2 ^ 23 + m)

/-- A magnitude with the sign bit `s`. -/
def signed (s : Bool) (a : ℚ) : ℚ := if s then -a else a

theorem abs_signed (s : Bool) {a : ℚ} (ha : 0 ≤ a) : |signed s a| = a := by
  cases s
  · exact abs_of_nonneg ha
  · exact (abs_neg a).trans (abs_of_nonneg ha)

theorem signed_neg_iff (s : Bool) {a : ℚ} (ha : 0 < a) : decide (signed s a < 0) = s := by
  cases s
  · exact decide_eq_false (not_lt.2 ha.le)
  · exact decide_eq_true (neg_lt_zero.2 ha)

theorem signed_abs (v : ℚ) : signed (decide (v < 0)) |v| = v := by
  by_cases hn : v < 0
  · simp [signed, hn, abs_of_neg hn]
  · simp [signed, hn, abs_of_nonneg (not_lt.1 hn)]

/-- `k` of the normal form, from the fields. -/
def significand (e m : Nat) : Nat := if e = 0 then m else 2 ^ 23 + m

/-- `x` of the normal form, from the fields. -/
def exponent (e : Nat) : Int := if e = 0 then -149 else (e : Int) - 150

/-- The exponent field of a normal form. -/
def expField (k : Nat) (x : Int) : Nat := if k < 2 ^ 23 then 0 else (x + 150).toNat

theorem exists_pattern (b : Word) : ∃ s e m, e < 256 ∧ m < 2 ^ 23 ∧ b = pattern s e m := by
  refine ⟨decide (2 ^ 31 ≤ b.toNat), b.toNat / 2 ^ 23 % 256, b.toNat % 2 ^ 23, by omega, by omega, ?_⟩
  have := b.isLt
  apply BitVec.eq_of_toNat_eq
  rw [pattern, BitVec.toNat_ofNat]
  simp only [decide_eq_true_eq]
  split <;> omega

theorem toNat_pattern (s : Bool) {e m : Nat} (he : e < 256) (hm : m < 2 ^ 23) :
    (pattern s e m).toNat = (if s then 2 ^ 31 else 0) + e * 2 ^ 23 + m := by
  rw [pattern, BitVec.toNat_ofNat, Nat.mod_eq_of_lt]
  split <;> omega

theorem decode_pattern (s : Bool) {e m : Nat} (he : e < 256) (hm : m < 2 ^ 23) :
    F32.decode (pattern s e m) = if e = 255 then (if m = 0 then .inf s else .nan)
      else .fin (signed s (significand e m * pow2 (exponent e))) := by
  have hs : (pattern s e m).getLsbD 31 = s := by
    rw [BitVec.getLsbD, toNat_pattern s he hm, Nat.testBit_eq_decide_div_mod_eq]
    cases s
    · exact decide_eq_false (by simp only [Bool.false_eq_true, if_false]; omega)
    · exact decide_eq_true (by simp only [if_true]; omega)
  have hexp : ((pattern s e m).extractLsb' 23 8).toNat = e := by
    rw [BitVec.extractLsb'_toNat, toNat_pattern s he hm, Nat.shiftRight_eq_div_pow]
    split <;> omega
  have hfrac : ((pattern s e m).extractLsb' 0 23).toNat = m := by
    rw [BitVec.extractLsb'_toNat, toNat_pattern s he hm, Nat.shiftRight_zero]
    split <;> omega
  have hmag : (if e = 0 then (m : ℚ) * pow2 (-149) else ((2 ^ 23 + m : Nat) : ℚ) * pow2 ((e : Int) - 150)) =
      significand e m * pow2 (exponent e) := by
    simp only [significand, exponent]; split <;> rfl
  simp only [F32.decode, hs, hexp, hfrac, hmag, signed]

theorem normal_of_fields {e m : Nat} (he : e < 255) (hm : m < 2 ^ 23) : Normal (significand e m) (exponent e) := by
  unfold significand exponent
  split <;> constructor <;> omega

theorem expField_of_fields {e m : Nat} (hm : m < 2 ^ 23) : expField (significand e m) (exponent e) = e := by
  rcases Nat.eq_zero_or_pos e with rfl | he
  · exact if_pos hm
  · simp [expField, significand, exponent, he.ne']

theorem significand_mod {e m : Nat} (hm : m < 2 ^ 23) : significand e m % 2 ^ 23 = m := by
  unfold significand
  split <;> omega

theorem fields_eq_zero {e m : Nat} (h : significand e m = 0) : e = 0 ∧ m = 0 := by
  unfold significand at h
  split at h <;> omega

theorem Normal.expField_lt {k : Nat} {x : Int} (h : Normal k x) : expField k x < 255 := by
  obtain ⟨-, hi, -, -⟩ := h
  unfold expField
  split <;> omega

theorem Normal.significand_eq {k : Nat} {x : Int} (h : Normal k x) : significand (expField k x) (k % 2 ^ 23) = k := by
  obtain ⟨lo, -, lt, -⟩ := h
  unfold significand expField
  split <;> split <;> omega

theorem Normal.exponent_eq {k : Nat} {x : Int} (h : Normal k x) : exponent (expField k x) = x := by
  obtain ⟨lo, -, -, full⟩ := h
  unfold exponent expField
  split <;> split <;> omega

/-- A finite pattern's value is in normal form. -/
theorem exists_normal_of_decode {b : Word} {p : ℚ} (h : F32.decode b = .fin p) :
    ∃ k x, Normal k x ∧ |p| = k * pow2 x := by
  obtain ⟨s, e, m, he, hm, rfl⟩ := exists_pattern b
  rw [decode_pattern s he hm] at h
  split at h
  case isTrue => split at h <;> cases h
  case isFalse h255 =>
    refine ⟨significand e m, exponent e, normal_of_fields (by omega) hm, ?_⟩
    rw [← F32.fin.inj h]
    exact abs_signed s (value_nonneg _ _)

/-- Every value in normal form is the value of a pattern. -/
theorem Normal.decode_eq {k : Nat} {x : Int} (h : Normal k x) {v : ℚ} (hv : |v| = k * pow2 x) :
    F32.decode (pattern (decide (v < 0)) (expField k x) (k % 2 ^ 23)) = .fin v := by
  have he := h.expField_lt
  rw [decode_pattern _ (by omega) (Nat.mod_lt _ (by decide)), if_neg he.ne, h.significand_eq, h.exponent_eq, ← hv,
    signed_abs]

/-- `bits` of a value in normal form, field by field (R103). -/
theorem Normal.bits_eq {k : Nat} {x : Int} (h : Normal k x) (hk : 0 < k) {v : ℚ} (hv : |v| = k * pow2 x) :
    (F32.fin v).bits = pattern (decide (v < 0)) (expField k x) (k % 2 ^ 23) := by
  have h0 := (significand_pos_iff hv).1 hk
  have hfl : (|v| / ulp |v|).floor.toNat = k := by
    rw [hv, h.div_ulp hk, ← Int.cast_natCast, Rat.floor_intCast, Int.toNat_natCast]
  have hexp : max (floorLog2 |v|) (-126) + 127 = x + 150 := by
    have := h.ulpExp_eq hk
    rw [ulpExp, ← hv] at this; omega
  simp only [F32.bits, if_neg h0, hfl, hexp, pattern, expField, decide_eq_true_eq]

/-- The last bit of the pattern is the parity of the significand. -/
theorem Normal.bits_lastBit {k : Nat} {x : Int} (h : Normal k x) {v : ℚ} (hv : |v| = k * pow2 x) (heven : k % 2 = 0) :
    (F32.fin v).bits.getLsbD 0 = false := by
  rcases Nat.eq_zero_or_pos k with rfl | hk
  · have h0 : v = 0 := by simpa using hv
    rw [h0]; rfl
  · have he := h.expField_lt
    rw [h.bits_eq hk hv, BitVec.getLsbD, toNat_pattern _ (by omega) (Nat.mod_lt _ (by decide)), Nat.testBit_zero,
      decide_eq_false_iff_not]
    split <;> omega

/-- The round trip of one pattern that is not a NaN, by its fields: an infinity, or a value in normal form (R13). -/
theorem decode_pattern_cases (s : Bool) {e m : Nat} (he : e < 256) (hm : m < 2 ^ 23)
    (hnan : F32.decode (pattern s e m) ≠ .nan) :
    (e = 255 ∧ m = 0 ∧ F32.decode (pattern s e m) = .inf s) ∨
    (e < 255 ∧ F32.decode (pattern s e m) = .fin (signed s (significand e m * pow2 (exponent e)))) := by
  rw [decode_pattern s he hm] at hnan ⊢
  by_cases h255 : e = 255
  · by_cases h0 : m = 0
    · exact .inl ⟨h255, h0, by rw [if_pos h255, if_pos h0]⟩
    · simp [h255, h0] at hnan
  · exact .inr ⟨by omega, if_neg h255⟩

/-- Settles O20: the fields of a pattern and the normal form of its value give each other back, and `fl32` leaves normal
forms alone (R13, R14). -/
theorem binary32PatternsRoundTrip : Obligations.Binary32PatternsRoundTrip := by
  intro b hnan
  obtain ⟨s, e, m, he, hm, rfl⟩ := exists_pattern b
  rcases decode_pattern_cases s he hm hnan with ⟨rfl, rfl, hinf⟩ | ⟨he, hfin⟩
  · rw [hinf]
    refine ⟨fun _ => ?_, by simp, by simp⟩
    cases s <;> rfl
  · have hN := normal_of_fields he hm
    have habs := abs_signed s (value_nonneg (significand e m) (exponent e))
    rw [hfin]
    refine ⟨fun h0 => ?_, fun h0 => ?_, ?_⟩
    · have hk := (significand_pos_iff habs).2 fun h => h0 (congrArg F32.fin h)
      rw [hN.bits_eq hk habs, expField_of_fields hm, significand_mod hm, signed_neg_iff s (value_pos hk _)]
    · have hk : ¬0 < significand e m := fun hk => (significand_pos_iff habs).1 hk (F32.fin.inj h0)
      obtain ⟨rfl, rfl⟩ := fields_eq_zero (Nat.eq_zero_of_not_pos hk)
      cases s
      · exact .inl rfl
      · exact .inr rfl
    · intro q h
      rw [← F32.fin.inj h]
      exact hN.fl32_eq habs

/-! ### Rounding to a number of spacings -/

/-- `rne(a / u)` of R14. -/
def ulps (a : ℚ) : Int := rne (a / ulp a)

/-- `r = rne(a / u)·u` of R14. -/
def rounded (a : ℚ) : ℚ := ulps a * ulp a

theorem abs_mul_ulp_sub (a : ℚ) (n : Int) : |n * ulp a - a| = |n - a / ulp a| * ulp a := by
  have hu := ulp_pos a
  rw [← abs_of_pos hu, ← abs_mul, abs_of_pos hu, sub_mul, div_mul_cancel₀ _ hu.ne']

section
variable {a : ℚ} (ha : 0 < a)
include ha

theorem lt_spacings : a < 2 ^ 24 * ulp a :=
  calc a < pow2 (floorLog2 a + 1) := (floorLog2_spec ha).2
    _ ≤ pow2 (24 + ulpExp a) := pow2_le (by rw [ulpExp]; omega)
    _ = 2 ^ 24 * ulp a := (two_pow_mul_pow2 24 _).symm

theorem spacings_le (hx : ulpExp a ≠ -149) : 2 ^ 23 * ulp a ≤ a :=
  calc 2 ^ 23 * ulp a = pow2 (23 + ulpExp a) := two_pow_mul_pow2 23 _
    _ ≤ pow2 (floorLog2 a) := pow2_le (by rw [ulpExp] at hx ⊢; omega)
    _ ≤ a := (floorLog2_spec ha).1

theorem ulps_nonneg : 0 ≤ ulps a := rne_nonneg (div_nonneg ha.le (ulp_pos a).le)

theorem ulps_le : ulps a ≤ 2 ^ 24 := by
  have h := (div_lt_iff₀ (ulp_pos a)).2 (lt_spacings ha)
  exact rne_le_of_lt_add_half (by push_cast; linarith)

theorem le_ulps (hx : ulpExp a ≠ -149) : 2 ^ 23 ≤ ulps a := by
  have h := (le_div_iff₀ (ulp_pos a)).2 (spacings_le ha hx)
  exact le_rne_of_sub_half_lt (by push_cast; linarith)

theorem rounded_nonneg : 0 ≤ rounded a := mul_nonneg (Int.cast_nonneg (ulps_nonneg ha)) (ulp_pos a).le

/-- Below the overflow the rounded magnitude is in normal form, an even number of spacings with an even significand. The
one number that needs a bit more, `2^24`, is `2^23` of the next spacing. -/
theorem exists_normal_of_rounded (hlt : rounded a < pow2 128) :
    ∃ k x, Normal k x ∧ rounded a = k * pow2 x ∧ (ulps a % 2 = 0 → k % 2 = 0) := by
  obtain ⟨n, hn⟩ := Int.eq_ofNat_of_zero_le (ulps_nonneg ha)
  have hle := ulps_le ha
  have hlo : -149 ≤ ulpExp a := by rw [ulpExp]; omega
  have hr : rounded a = n * pow2 (ulpExp a) := by rw [rounded, hn, ulp_eq_pow2, Int.cast_natCast]
  have hfull : ulpExp a = -149 ∨ 2 ^ 23 ≤ n := by
    by_cases hx : ulpExp a = -149
    · exact .inl hx
    · have := le_ulps ha hx
      exact .inr (by omega)
  by_cases htop : n = 2 ^ 24
  · have hval : rounded a = (2 ^ 23 : Nat) * pow2 (1 + ulpExp a) := by
      rw [hr, htop, pow2_add]; norm_num [pow2_eq_zpow]; ring
    have hexp : pow2 (23 + (1 + ulpExp a)) < pow2 128 := by
      rw [hval] at hlt
      push_cast at hlt
      exact (two_pow_mul_pow2 23 _).symm.trans_lt hlt
    have := pow2_lt_iff.1 hexp
    exact ⟨2 ^ 23, 1 + ulpExp a, ⟨by omega, by omega, by norm_num, .inr le_rfl⟩, hval, fun _ => by norm_num⟩
  · have hhi : ulpExp a ≤ 104 := by
      rcases hfull with hx | hf
      · omega
      · have hexp : pow2 (23 + ulpExp a) < pow2 128 := by
          refine ((two_pow_mul_pow2 23 _).symm.trans_le ?_).trans_lt (hr ▸ hlt)
          exact mul_le_mul_of_nonneg_right (by exact_mod_cast hf) (pow2_pos _).le
        have := pow2_lt_iff.1 hexp
        omega
    exact ⟨n, ulpExp a, ⟨hlo, hhi, by omega, hfull⟩, hr, fun h => by omega⟩

/-! ### No value in normal form is nearer -/

/-- A value in normal form is a whole number of the spacings at `a`, or lies below `a`'s binade. -/
theorem Normal.spacings_or_below {k : Nat} {y : Int} (h : Normal k y) :
    (∃ j : Int, (k : ℚ) * pow2 y = j * ulp a) ∨ (k * pow2 y < 2 ^ 23 * ulp a ∧ 2 ^ 23 * ulp a ≤ a) := by
  rcases le_or_gt (ulpExp a) y with hy | hy
  · obtain ⟨j, hj⟩ := Int.eq_ofNat_of_zero_le (sub_nonneg.2 hy)
    refine .inl ⟨k * 2 ^ j, ?_⟩
    rw [show y = j + ulpExp a by omega, ← two_pow_mul_pow2, ulp_eq_pow2]
    push_cast
    ring
  · have hk : (k : ℚ) < 2 ^ 24 := by exact_mod_cast h.lt
    have hlo := h.lo
    refine .inr ⟨?_, spacings_le ha (by omega)⟩
    calc (k : ℚ) * pow2 y < 2 ^ 24 * pow2 y := mul_lt_mul_of_pos_right hk (pow2_pos y)
      _ = pow2 (24 + y) := two_pow_mul_pow2 24 y
      _ ≤ pow2 (23 + ulpExp a) := pow2_le (by omega)
      _ = 2 ^ 23 * ulp a := (two_pow_mul_pow2 23 _).symm

/-- A value in normal form is the rounded one, or is farther from `a`, or is as near and the rounded one is an even number
of spacings (R14). -/
theorem Normal.farther_or_tie {k : Nat} {y : Int} (h : Normal k y) :
    k * pow2 y = rounded a ∨ |rounded a - a| < |k * pow2 y - a| ∨
      (|rounded a - a| = |k * pow2 y - a| ∧ ulps a % 2 = 0) := by
  have hu := ulp_pos a
  rcases h.spacings_or_below ha with ⟨j, hj⟩ | ⟨hbelow, hbin⟩
  · rw [hj, rounded, abs_mul_ulp_sub, abs_mul_ulp_sub]
    rcases eq_or_ne j (ulps a) with rfl | hne
    · exact .inl rfl
    · rcases (rne_nearest (a / ulp a) j).lt_or_eq with hlt | htie
      · exact .inr (.inl (mul_lt_mul_of_pos_right hlt hu))
      · exact .inr (.inr ⟨congrArg (· * ulp a) htie, rne_even_of_tie hne htie⟩)
  · refine .inr (.inl ?_)
    calc |rounded a - a| ≤ |((2 ^ 23 : Int) : ℚ) * ulp a - a| := by
          rw [rounded, abs_mul_ulp_sub, abs_mul_ulp_sub]
          exact mul_le_mul_of_nonneg_right (rne_nearest _ _) hu.le
      _ = a - 2 ^ 23 * ulp a := by push_cast; rw [abs_of_nonpos (by linarith)]; ring
      _ < a - k * pow2 y := by linarith
      _ ≤ |k * pow2 y - a| := by rw [abs_sub_comm]; exact le_abs_self _

end

/-- A finite `fl32(q)` is the rounded magnitude of `q`, below the overflow, with the sign of `q`. -/
theorem fl32_fin_abs {q v : ℚ} (hq : q ≠ 0) (h : fl32 q = .fin v) :
    rounded |q| < pow2 128 ∧ |v| = rounded |q| ∧ |v - q| = |(rounded |q| - |q|)| := by
  have hnn := rounded_nonneg (abs_pos.2 hq)
  rcases fl32_cases hq with ⟨-, h'⟩ | ⟨hlt, h'⟩
  · rw [h'] at h; cases h
  · rw [h', F32.fin.injEq] at h
    refine ⟨hlt, ?_⟩
    rw [← h]
    change |(if q < 0 then -rounded |q| else rounded |q|)| = rounded |q| ∧
      |(if q < 0 then -rounded |q| else rounded |q|) - q| = |(rounded |q| - |q|)|
    by_cases hn : q < 0
    · rw [if_pos hn, abs_neg, abs_of_nonneg hnn]
      refine ⟨rfl, ?_⟩
      rw [← abs_neg, abs_of_neg hn]; congr 1; ring
    · rw [if_neg hn, abs_of_nonneg hnn]
      refine ⟨rfl, ?_⟩
      rw [abs_of_nonneg (not_lt.1 hn)]

/-- Two values opposite each other are as near to `q` only if both are 0. -/
theorem eq_zero_of_opposite_tie {q v : ℚ} (hq : q ≠ 0) (h : |v - q| = |-v - q|) : v = 0 := by
  rcases abs_eq_abs.1 h with h | h
  · linarith
  · exact absurd (by linarith) hq

/-- Settles O21: no normal form is nearer to `|q|` than the rounded one, and on a tie that one is an even number of
spacings, so that its significand, the last bits of the pattern, is even (R14). -/
theorem fl32IsTheNearestBinary32Value : Obligations.Fl32IsTheNearestBinary32Value := by
  intro q v h
  rcases eq_or_ne q 0 with rfl | hq
  · obtain rfl : 0 = v := by simpa using h
    refine ⟨⟨_, normal_zero.decode_eq (by simp)⟩, fun b p _ => ⟨by simp, fun hne ht => ?_⟩⟩
    exact absurd (by simpa using ht.symm) hne
  · have ha := abs_pos.2 hq
    obtain ⟨hlt, hv, hdist⟩ := fl32_fin_abs hq h
    obtain ⟨k, x, hN, hr, heven⟩ := exists_normal_of_rounded ha hlt
    rw [hr] at hv
    refine ⟨⟨_, hN.decode_eq hv⟩, fun b p hp => ?_⟩
    obtain ⟨j, y, hM, hpa⟩ := exists_normal_of_decode hp
    have htri : |(|p| - |q|)| ≤ |p - q| := abs_abs_sub_abs_le p q
    rw [hdist]
    rcases hpa ▸ hM.farther_or_tie ha with heq | hfar | ⟨htie, hev⟩
    · refine ⟨heq ▸ htri, fun hne ht => ?_⟩
      have hopp : p = -v := (abs_eq_abs.1 (by rw [heq, hr, hv])).resolve_left hne
      have hv0 := eq_zero_of_opposite_tie hq (hopp ▸ hdist.trans ht)
      exact absurd (by rw [hopp, hv0, neg_zero]) hne
    · exact ⟨(hfar.trans_le htri).le, fun _ ht => absurd ht (hfar.trans_le htri).ne⟩
    · exact ⟨htie.trans_le htri, fun _ _ => hN.bits_lastBit hv (heven hev)⟩

/-! ### Overflow -/

/-- The rounded magnitude reaches `2^128` exactly from the tie below it on. With the spacing `2^104` the tie is at
`2^24 - 1/2` spacings; a larger spacing is above both bounds and a smaller one below both. -/
theorem pow2_128_le_rounded_iff {a : ℚ} (ha : 0 < a) : pow2 128 ≤ rounded a ↔ (2 : ℚ) ^ 128 - 2 ^ 103 ≤ a := by
  have hu := ulp_pos a
  have e128 : pow2 128 = 2 ^ 128 := by rw [pow2_eq_zpow]; norm_cast
  rcases lt_trichotomy (ulpExp a) 104 with hx | hx | hx
  · have hsmall : 2 ^ 24 * ulp a ≤ (2 : ℚ) ^ 127 :=
      calc 2 ^ 24 * ulp a = pow2 (24 + ulpExp a) := two_pow_mul_pow2 24 _
        _ ≤ pow2 127 := pow2_le (by omega)
        _ = 2 ^ 127 := by rw [pow2_eq_zpow]; norm_cast
    have hr : rounded a ≤ 2 ^ 24 * ulp a := mul_le_mul_of_nonneg_right (by exact_mod_cast ulps_le ha) hu.le
    have ha' := lt_spacings ha
    have hbelow : (2 : ℚ) ^ 127 < 2 ^ 128 - 2 ^ 103 ∧ (2 : ℚ) ^ 127 < 2 ^ 128 := by norm_num
    exact iff_of_false (by rw [e128]; linarith) (by linarith)
  · have e104 : ulp a = 2 ^ 104 := by rw [ulp_eq_pow2, hx, pow2_eq_zpow]; norm_cast
    calc pow2 128 ≤ rounded a ↔ ((2 ^ 24 : Int) : ℚ) * ulp a ≤ ulps a * ulp a := by
          rw [e128, rounded, e104]; norm_num
      _ ↔ 2 ^ 24 ≤ ulps a := by rw [mul_le_mul_iff_left₀ hu, Int.cast_le]
      _ ↔ ((2 ^ 24 : Int) : ℚ) - 1 / 2 ≤ a / ulp a := le_rne_iff_of_even (by norm_num)
      _ ↔ (2 : ℚ) ^ 128 - 2 ^ 103 ≤ a := by rw [le_div_iff₀ hu, e104]; norm_num
  · have hbig : (2 : ℚ) ^ 128 ≤ 2 ^ 23 * ulp a :=
      calc (2 : ℚ) ^ 128 = pow2 128 := e128.symm
        _ ≤ pow2 (23 + ulpExp a) := pow2_le (by omega)
        _ = 2 ^ 23 * ulp a := (two_pow_mul_pow2 23 _).symm
    have hr : 2 ^ 23 * ulp a ≤ rounded a :=
      mul_le_mul_of_nonneg_right (by exact_mod_cast le_ulps ha (by omega)) hu.le
    have ha' := spacings_le ha (by omega)
    have hpos : (0 : ℚ) < 2 ^ 103 := by norm_num
    exact iff_of_true (by rw [e128]; linarith) (by linarith)

theorem fl32_eq_inf_iff {q : ℚ} {s : Bool} :
    fl32 q = .inf s ↔ decide (q < 0) = s ∧ (2 : ℚ) ^ 128 - 2 ^ 103 ≤ |q| := by
  rcases eq_or_ne q 0 with rfl | hq
  · rw [fl32_zero, abs_zero]
    exact iff_of_false (by simp) (by norm_num)
  · rw [← pow2_128_le_rounded_iff (abs_pos.2 hq)]
    rcases fl32_cases hq with ⟨hle, h⟩ | ⟨hlt, h⟩
    · simp [h, show pow2 128 ≤ rounded |q| from hle]
    · simp [h, show rounded |q| < pow2 128 from hlt]

/-- Settles O22: the magnitude overflows exactly from the tie on, and the infinity has the sign of `q` (R14). -/
theorem fl32OverflowsExactlyFromTheTie : Obligations.Fl32OverflowsExactlyFromTheTie := by
  intro q
  have hpos : (0 : ℚ) < 2 ^ 128 - 2 ^ 103 := by norm_num
  rw [fl32_eq_inf_iff, fl32_eq_inf_iff, decide_eq_false_iff_not, decide_eq_true_eq]
  generalize (2 : ℚ) ^ 128 - 2 ^ 103 = T at hpos ⊢
  rcases lt_or_ge q 0 with hq | hq
  · rw [abs_of_neg hq, le_neg]
    exact ⟨iff_of_false (fun h => h.1 hq) (by linarith), and_iff_right hq⟩
  · rw [abs_of_nonneg hq]
    exact ⟨and_iff_right (not_lt.2 hq), iff_of_false (fun h => not_lt.2 hq h.1) (by linarith)⟩

end Sys2Proof.Machine
end

section
/-! PROOFS. The registers (spec/10_state.md): what the port's reads and writes do, what a command leaves alone, and the
invariant that every step keeps. -/

namespace Sys2Proof.Machine

/-! ### One line of the script, one register -/

theorem step_of_host {s : State} {op : HostOp} {ops : List HostOp} (h : s.host = op :: ops) :
    step s = perform op (s.withHost ops) := by
  simp only [step, hostStep, h]

theorem regIndex_inj {m n : Reg} : regIndex m = regIndex n ↔ m = n :=
  ⟨fun h => Option.some.inj ((regAt_eq_some.2 rfl).symm.trans (regAt_eq_some.2 h)), congrArg regIndex⟩

theorem regRead_eq_read {k : Fin 64} {n : Reg} (h : k = regIndex n) (s : State) : regRead k s = s.regs.read n := by
  simp only [regRead, regAt_eq_some.2 h]

theorem regRead_reserved {k : Fin 64} (h : 16 < k.val) (s : State) : regRead k s = 0 := by
  simp only [regRead, regAt_eq_none.2 h]

theorem regWrite_eq_write {n : Reg} (hn : n ≠ .cmd) (v : Word) (s : State) :
    regWrite (regIndex n) v s = .next (s.withRegs (s.regs.write n v)) := by
  simp only [regWrite, regAt_eq_some.2 rfl, writeReg, if_neg hn]

theorem regWrite_reserved {k : Fin 64} (h : 16 < k.val) (v : Word) (s : State) : regWrite k v s = .next s := by
  simp only [regWrite, regAt_eq_none.2 h]

/-! ### Reset (R44, R220) -/

/-- Settles O49: the reset memory lists no byte, and the reset STATUS is 0 (R44). -/
theorem resetStateMeetsTheInvariant : Obligations.ResetStateMeetsTheInvariant where
  form := reset_mem_wf
  inMem := rfl
  status := rfl

/-- Settles O7: the reset line only replaces the registers, and their reset values are those of R44. -/
theorem resetGivesEveryRegisterItsValue : Obligations.ResetGivesEveryRegisterItsValue :=
  ⟨fun _ _ h => step_of_host h, by decide⟩

/-! ### Reads (R31, R32) -/

/-- Settles O8: a read answers the register at the offset, or 0 at a reserved one, and only the host's side changes. -/
theorem regReadHasNoSideEffect : Obligations.RegReadHasNoSideEffect := by
  intro s ops k h
  have reads : ∀ n, k = regIndex n → regRead k s = s.regs.read n := fun n hk => regRead_eq_read hk s
  have lanes : k = regIndex .cfg → (regRead k s).toNat = s.regs.lanes.toNat := fun hk => by
    rw [reads .cfg hk]
    exact BitVec.toNat_setWidth_of_le (by decide)
  exact ⟨regRead k s, step_of_host h, reads .id, reads .cmd, reads .status, lanes, reads .width, reads .height,
    reads .wgtR, reads .wgtG, reads .wgtB, reads .rgbAddr, reads .lumAddr, reads .edgeAddr, reads .blurAddr,
    reads .outAddr, reads .wlumAddr, reads .wedgeAddr, reads .wblurAddr, fun hk => regRead_reserved hk s⟩

/-! ### Writes to a register without side effects (R33, R36 to R39) -/

/-- A write changes what one register reads: each register is a field of its own. -/
theorem Regs.read_write_of_ne (r : Regs) {m n : Reg} (h : m ≠ n) (v : Word) : (r.write n v).read m = r.read m := by
  cases n <;> cases m <;> trivial

/-- Storing bits 6:0 and reading them zero-extended is a mask (R36). -/
theorem setWidth_extractLsb'_lanes (v : Word) : (v.extractLsb' 0 7).setWidth 32 = v &&& 0x0000007F#32 := by
  apply BitVec.eq_of_toNat_eq
  rw [BitVec.toNat_setWidth_of_le (by decide)]
  simpa using (Nat.and_two_pow_sub_one_eq_mod v.toNat 7).symm

theorem Regs.read_write_same (r : Regs) {n : Reg} (hid : n ≠ .id) (hst : n ≠ .status) (v : Word) :
    (r.write n v).read n = if n = .cfg then v &&& 0x0000007F#32 else v := by
  cases n with
  | id => contradiction
  | status => contradiction
  | cfg => exact setWidth_extractLsb'_lanes v
  | _ => rfl

/-- Every other offset, reserved or not, reads as before. -/
theorem regRead_of_write_ne {s t : State} {n : Reg} {v : Word} (ht : t.regs = s.regs.write n v) {k : Fin 64}
    (hk : k ≠ regIndex n) : regRead k t = regRead k s := by
  simp only [regRead]
  cases hm : regAt k with
  | none => rfl
  | some m =>
    have hmn : m ≠ n := fun e => hk (e ▸ regAt_eq_some.1 hm)
    simp only [ht, Regs.read_write_of_ne _ hmn]

/-- Settles O9: the offsets 3 to 16 are registers other than ID, CMD and STATUS, each a field of its own; ID and the
reserved offsets store nothing. -/
theorem regWriteReadsBackAndTouchesNothingElse : Obligations.RegWriteReadsBackAndTouchesNothingElse := by
  intro s ops k v h
  rw [show step s = regWrite k v (s.withHost ops) from step_of_host h]
  refine ⟨fun h3 h16 => ?_, ?_⟩
  · obtain ⟨n, hn⟩ : ∃ n, regAt k = some n :=
      Option.ne_none_iff_exists'.1 fun hk => absurd (regAt_eq_none.1 hk) (by omega)
    obtain rfl := regAt_eq_some.1 hn
    have hid : n ≠ .id := by rintro rfl; exact absurd h3 (by decide)
    have hcmd : n ≠ .cmd := by rintro rfl; exact absurd h3 (by decide)
    have hst : n ≠ .status := by rintro rfl; exact absurd h3 (by decide)
    have hcfg : regIndex n = 3 ↔ n = .cfg := regIndex_inj (n := .cfg)
    refine ⟨_, regWrite_eq_write hcmd v _, ?_, fun j hj => regRead_of_write_ne rfl hj, rfl, rfl, rfl, rfl, rfl⟩
    simp only [regRead_eq_read rfl, State.withRegs_regs, Regs.read_write_same _ hid hst, hcfg]
  · rintro (rfl | hk)
    · exact regWrite_eq_write (n := .id) (by decide) v _
    · exact regWrite_reserved hk v _

/-! ### STATUS (R35, R190) -/

theorem Status.legal_iff_of_noErr {t : Status} (h : t.err = false) : t.legal = true ↔ t.ecode = 0 ∧ t.estage = 0 := by
  simp [Status.legal, h]

theorem Status.legal_iff_of_err {t : Status} (h : t.err = true) :
    t.legal = true ↔ t.done = false ∧ (t.ecode, t.estage) ∈ faultPairs := by
  simp [Status.legal, h]

/-- The fields of the STATUS word, where R35 puts them: each is lowest once the fields to its right are cut off. -/
theorem Status.word_fields (t : Status) :
    t.word.getLsbD 0 = t.done ∧ t.word.getLsbD 1 = t.err ∧ t.word.extractLsb' 2 2 = 0 ∧
    t.word.extractLsb' 4 4 = t.ecode ∧ t.word.extractLsb' 8 4 = t.estage ∧ t.word.extractLsb' 12 20 = 0 := by
  unfold Status.word
  refine ⟨?_, ?_, ?_, ?_, ?_, ?_⟩
  · rw [BitVec.getLsbD_append]; simp
  · iterate 2 rw [BitVec.getLsbD_append]
    simp
  · iterate 2 rw [BitVec.extractLsb'_append_eq_of_le (by decide)]
    exact BitVec.extractLsb'_append_eq_right
  · iterate 3 rw [BitVec.extractLsb'_append_eq_of_le (by decide)]
    exact BitVec.extractLsb'_append_eq_right
  · iterate 4 rw [BitVec.extractLsb'_append_eq_of_le (by decide)]
    exact BitVec.extractLsb'_append_eq_right
  · iterate 5 rw [BitVec.extractLsb'_append_eq_of_le (by decide)]
    exact BitVec.extractLsb'_eq_self

/-- Settles O10: the word's fields, `writeW1C` by the two bits it looks at, and what a legal STATUS is. -/
theorem statusIsWriteOneToClear : Obligations.StatusIsWriteOneToClear := by
  refine ⟨fun s => s.regs.status.word_fields, fun s ops v h => ?_, fun s hs => ?_⟩
  · refine ⟨s.regs.status.writeW1C v, (step_of_host h).trans (regWrite_eq_write (n := .status) (by decide) v _), ?_⟩
    simp +contextual [Status.writeW1C]
  · cases he : s.regs.status.err with
    | false => exact ⟨by simp, fun _ => (Status.legal_iff_of_noErr he).1 hs.status⟩
    | true => simp [((Status.legal_iff_of_err he).1 hs.status).1]

/-! ### CMD (R34, R93) -/

theorem fields_of_ofStageTier {g t : Nat} {i : Instr} (h : ofStageTier g t = some i) :
    i.fields.zero = 0 ∧ i.fields.tier.toNat = t ∧ i.fields.stage.toNat = g := by
  unfold ofStageTier at h
  split at h
  all_goals cases h
  all_goals exact ⟨rfl, rfl, rfl⟩

theorem cmdFields_ext {f g : CmdFields} (hz : f.zero = g.zero) (ht : f.tier = g.tier) (hs : f.stage = g.stage) :
    f = g := by
  cases f; cases g; simp_all

theorem fieldsOf_of_decode {w : Word} {i : Instr} (h : decode w = .ok i) : fieldsOf w = i.fields := by
  simp only [decode] at h
  split_ifs at h with hz ht hg
  cases hi : ofStageTier (fieldsOf w).stage.toNat (fieldsOf w).tier.toNat with
  | none => simp [hi] at h
  | some j =>
    obtain rfl : j = i := by simpa [hi] using h
    obtain ⟨hzero, htier, hstage⟩ := fields_of_ofStageTier hi
    exact cmdFields_ext ((not_not.1 hz).trans hzero.symm) (BitVec.eq_of_toNat_eq htier.symm)
      (BitVec.eq_of_toNat_eq hstage.symm)

/-- A command's word is the only one that spells it (R93). -/
theorem encode_of_decode {w : Word} {i : Instr} (h : decode w = .ok i) : encode i = w := by
  rw [encode, ← fieldsOf_of_decode h, wordOf_fieldsOf]

theorem runStages_cmd (l : List Stage) (s : State) : (runStages l s).regs.cmd = s.regs.cmd := by
  rw [(runStages_frame l s).1]

theorem writeCmd_of_err (w : Word) {s : State} (h : s.regs.status.err = true) : writeCmd w s = .next s := by
  rcases writeCmd_cases w s with ⟨-, hx⟩ | ⟨he, -⟩ | ⟨he, -⟩
  · exact hx
  · simp [h] at he
  · simp [h] at he

theorem writeCmd_stores (w : Word) {s : State} (h : s.regs.status.err = false) :
    ∃ t, writeCmd w s = .next t ∧ t.regs.cmd = w := by
  rcases writeCmd_cases w s with ⟨he, -⟩ | ⟨-, -, hx⟩ | ⟨-, i, hi, hx⟩
  · simp [h] at he
  · exact ⟨_, hx, rfl⟩
  · exact ⟨_, hx, (runStages_cmd _ _).trans (encode_of_decode hi)⟩

/-- Settles O6: `writeCmd` looks at ERR first; an accepted word is stored before its command runs, and no stage writes
CMD (R34, R100). -/
theorem cmdWriteIsStoredOrIgnored : Obligations.CmdWriteIsStoredOrIgnored := by
  have hstep : ∀ {s ops w}, s.host = .regWrite 1 w :: ops → step s = writeCmd w (s.withHost ops) :=
    fun h => step_of_host h
  refine ⟨fun s ops w h he => ⟨?_, fun i hi => ?_⟩, fun s ops w h he => ?_, fun i s he => ?_⟩
  · obtain ⟨t, ht, hw⟩ := writeCmd_stores w (s := s.withHost ops) he
    exact ⟨t, (hstep h).trans ht, (regRead_eq_read (n := .cmd) rfl t).trans hw⟩
  · rw [hstep h, writeCmd, hi]
  · exact (hstep h).trans (writeCmd_of_err w he)
  · rw [exec_eq_issue, issue_of_err _ _ he]

/-! ### What a command leaves alone (R41, R79) -/

theorem dests_stagesOf (i : Instr) : (stagesOf i).flatMap Stage.dests = destsOf i := by cases i <;> rfl

/-- Settles O45: an ignored command changes nothing, and an accepted one is CMD and STATUS and then its stages, which
write in their destinations only. -/
theorem commandsWriteOnlyStatusCmdAndDestinations : Obligations.CommandsWriteOnlyStatusCmdAndDestinations := by
  intro i s t ht
  rcases exec_cases i s with ⟨-, hx⟩ | ⟨-, hx⟩ <;> obtain rfl := Host.Outcome.next.inj (hx.symm.trans ht)
  · exact ⟨rfl, rfl, rfl, rfl, fun _ _ => rfl⟩
  · obtain ⟨hregs, hholes, hhost, hreplies, -⟩ := runStages_frame (stagesOf i) (accept (encode i) s)
    refine ⟨by rw [hregs]; rfl, hholes, hhost, hreplies, fun a ha => ?_⟩
    refine runStages_read (stagesOf_sound i) fun st hst b hb => ?_
    have hdest : b ∈ destsOf i := dests_stagesOf i ▸ List.mem_flatMap.2 ⟨st, hst, hb⟩
    simpa [Regs.inRange, Regs.stop] using ha b hdest

/-! ### Legal STATUS values (R35, R190) -/

/-- DONE may take any value that does not stand beside ERR. -/
theorem Status.legal_withDone {t : Status} (h : t.legal = true) {d : Bool} (hd : t.err = true → d = false) :
    { t with done := d }.legal = true := by
  cases he : t.err with
  | false => simpa [Status.legal, he] using h
  | true => exact (legal_iff_of_err rfl).2 ⟨hd he, ((legal_iff_of_err he).1 h).2⟩

theorem Status.legal_writeW1C {t : Status} (h : t.legal = true) (v : Word) : (t.writeW1C v).legal = true := by
  cases hv : v.getLsbD 1 with
  | true => simp only [writeW1C, hv]; rfl
  | false =>
    have hd : t.err = true → (if v.getLsbD 0 then false else t.done) = false := fun he => by
      simp [((legal_iff_of_err he).1 h).1]
    simp only [writeW1C, hv, Bool.false_eq_true, if_false]
    exact legal_withDone h hd

theorem Status.legal_raised {t : Status} (hd : t.done = false) {f : ErrCode} {g : BitVec 4}
    (hp : (f.code, g) ∈ faultPairs) : (t.raised f g).legal = true :=
  (legal_iff_of_err (raised_err t f g)).2 ⟨hd, hp⟩

theorem Regs.legal_write {r : Regs} (h : r.status.legal = true) (n : Reg) (v : Word) :
    (r.write n v).status.legal = true := by
  cases n with
  | status => exact Status.legal_writeW1C h v
  | _ => exact h

/-- The faults that every stage can raise. -/
theorem mem_faultPairs_of_common {f : ErrCode} (hf : f ∈ [ErrCode.dim, .addr, .overlap, .bus]) {g : BitVec 4}
    (hg : 1 ≤ g.toNat ∧ g.toNat ≤ 6) : (f.code, g) ∈ faultPairs := by
  revert f g; decide

theorem Stage.Sound.staticFault_mem_faultPairs {st : Stage} (h : st.Sound) {s : State} {f : ErrCode}
    (hf : st.staticFault s = some f) : (f.code, st.code) ∈ faultPairs := by
  have common := fun {f} hf => mem_faultPairs_of_common (f := f) hf h.code_range
  rcases h.staticFault_cases hf with ⟨rfl, hg⟩ | rfl | ⟨rfl, hg⟩ | rfl | rfl | rfl
  · rcases hg with hg | hg | hg <;> rw [hg] <;> decide
  · exact common (by decide)
  · rw [hg]; decide
  · exact common (by decide)
  · exact common (by decide)
  · exact common (by decide)

theorem Stage.Sound.dataFault_mem_faultPairs {st : Stage} (h : st.Sound) {r : Regs} {m : Memory}
    (hd : st.dataOk r m = false) : (ErrCode.range.code, st.code) ∈ faultPairs := by
  rcases h.data_code r m hd with hg | hg <;> rw [hg] <;> decide

/-- Stages started without a fault leave a legal STATUS: the first fault ends the command, and DONE is set without one. -/
theorem runStages_legal {l : List Stage} (hl : ∀ st ∈ l, st.Sound) {s : State} (he : s.regs.status.err = false)
    (hd : s.regs.status.done = false) (h : s.regs.status.legal = true) :
    (runStages l s).regs.status.legal = true := by
  induction l generalizing s with
  | nil => exact Status.legal_withDone h fun hc => absurd hc (by simp [he])
  | cons st rest ih =>
    have hst := hl st List.mem_cons_self
    obtain ⟨f, hf, hx⟩ | ⟨-, hr, hx⟩ | ⟨-, -, hx⟩ := runStages_cons_cases st rest s <;> rw [hx]
    · exact Status.legal_raised hd (hst.staticFault_mem_faultPairs hf)
    · exact Status.legal_raised hd (hst.dataFault_mem_faultPairs hr)
    · exact ih (fun t ht => hl t (List.mem_cons_of_mem _ ht)) he hd h

/-! ### The invariant -/

theorem State.Inv.writeCmd_next {s t : State} (h : s.Inv) {w : Word} (ht : writeCmd w s = .next t) : t.Inv := by
  rcases writeCmd_cases w s with ⟨-, hx⟩ | ⟨-, -, hx⟩ | ⟨he, i, -, hx⟩ <;>
    obtain rfl := Host.Outcome.next.inj (hx.symm.trans ht)
  · exact h
  · exact ⟨h.form, h.inMem, Status.legal_raised rfl (by decide)⟩
  · exact ⟨runStages_wf _ h.form, runStages_inMem (stagesOf_sound i) h.inMem,
      runStages_legal (stagesOf_sound i) he rfl (Status.legal_withDone h.status fun _ => rfl)⟩

theorem cellsAt_lt {a n : Nat} {bs : List Byte} (h : a + bs.length ≤ n) : ∀ c ∈ cellsAt a bs, c.1 < n := by
  intro c hc
  obtain ⟨k, hk, hb⟩ := (mem_cellsAt a bs c).1 hc
  have hlt := (List.getElem?_eq_some_iff.1 hb).1
  omega

theorem State.Inv.perform_next {s t : State} (h : s.Inv) {op : HostOp} (ht : perform op s = .next t) : t.Inv := by
  rcases perform_cases op s with ⟨hx, -⟩ | ⟨p, hx⟩ | ⟨-, n, v, -, -, -, hx⟩ | ⟨-, -, -, -, hx⟩ | ⟨-, w, -, -, hx⟩ |
    ⟨a, bs, -, hlen, hx⟩ | ⟨-, hx⟩ <;> rw [hx] at ht
  · cases ht
  · cases ht; exact ⟨h.form, h.inMem, h.status⟩
  · cases ht; exact ⟨h.form, h.inMem, Regs.legal_write h.status n v⟩
  · cases ht; exact h
  · exact h.writeCmd_next ht
  · cases ht; exact ⟨Memory.writeAll_wf h.form _, Memory.writeAll_inMem h.inMem (cellsAt_lt hlen), h.status⟩
  · cases ht; exact ⟨h.form, h.inMem, rfl⟩

/-- Settles O50: the idle step changes nothing, and the performance of a line keeps the three parts: writes keep the
canonical form, ERR_ADDR and the host's bound keep memory inside MEM, and a fault enters one of R190's pairs. -/
theorem stepKeepsTheInvariant : Obligations.StepKeepsTheInvariant := by
  intro s t hs ht
  rcases step_cases s with ⟨-, hx⟩ | ⟨op, ops, -, hx⟩
  · obtain rfl := Host.Outcome.next.inj (hx.symm.trans ht)
    exact hs
  · have hs' : (s.withHost ops).Inv := ⟨hs.form, hs.inMem, hs.status⟩
    exact hs'.perform_next (hx.symm.trans ht)

end Sys2Proof.Machine
end

section
/-! PROOFS. Memory and the platform (spec/20_memory.md): 16-bit samples, the one canonical form, and which lines of the
script stop the machine or change memory. -/

namespace Sys2Proof.Machine

/-! ### 16-bit samples (R65) -/

theorem Memory.read_writeAll_cells16 (m : Memory) (a : Nat) (v : Half) (x : Nat) :
    (m.writeAll (cells16 a v)).read x =
      if x = a then v.extractLsb' 0 8 else if x = a + 1 then v.extractLsb' 8 8 else m.read x := by
  simp only [cells16, Memory.writeAll_cons, Memory.writeAll_nil, Memory.read_write]
  grind

theorem toNat_lowByte (v : Half) : (v.extractLsb' 0 8).toNat = v.toNat % 256 := BitVec.extractLsb'_toNat ..

/-- The bytes of a half recompose it, so the upper one is the quotient. -/
theorem toNat_highByte (v : Half) : (v.extractLsb' 8 8).toNat = v.toNat / 256 := by
  have hsum := half_bytes v
  rw [toNat_lowByte] at hsum
  omega

/-- Settles O12: the two bytes of a store are the remainder and the quotient by 256, and no other byte is written. -/
theorem widenedSamplesAreLittleEndian : Obligations.WidenedSamplesAreLittleEndian := by
  refine ⟨fun _ _ => rfl, fun m a v => ?_⟩
  have hlow : (m.writeAll (cells16 a v)).read a = v.extractLsb' 0 8 := by simp [Memory.read_writeAll_cells16]
  have hhigh : (m.writeAll (cells16 a v)).read (a + 1) = v.extractLsb' 8 8 := by simp [Memory.read_writeAll_cells16]
  refine ⟨by rw [hlow, toNat_lowByte], by rw [hhigh, toNat_highByte], ?_, fun x hx hx' => ?_⟩
  · rw [Memory.read16, hlow, hhigh, half_bytes]
  · rw [Memory.read_writeAll_cells16, if_neg hx, if_neg hx']

/-! ### The canonical form (R60) -/

theorem mem_of_lookupCell {l : List Host.Cell} {a : Nat} {b : Byte} (h : lookupCell l a = some b) : (a, b) ∈ l := by
  induction l with
  | nil => cases h
  | cons c rest ih =>
    obtain ⟨k, v⟩ := c
    by_cases hk : k = a
    · obtain rfl : v = b := by simpa [lookupCell, hk] using h
      exact hk ▸ List.mem_cons_self
    · exact List.mem_cons_of_mem _ (ih (by simpa [lookupCell, hk] using h))

theorem risingFrom_cons {lo k : Nat} {v : Byte} {rest : List Host.Cell} :
    risingFrom lo ((k, v) :: rest) = true ↔ lo ≤ k ∧ risingFrom (k + 1) rest = true := by
  simp [risingFrom]

theorem lookupCell_below {l : List Host.Cell} {lo a : Nat} (hl : risingFrom lo l = true) (ha : a < lo) :
    lookupCell l a = none := by
  induction l generalizing lo with
  | nil => rfl
  | cons c rest ih =>
    obtain ⟨k, v⟩ := c
    obtain ⟨hk, hrest⟩ := risingFrom_cons.1 hl
    rw [lookupCell, if_neg (by omega)]
    exact ih hrest (by omega)

theorem lookupCell_head (k : Nat) (v : Byte) (rest : List Host.Cell) : lookupCell ((k, v) :: rest) k = some v :=
  if_pos rfl

/-- The first address of a rising list is its least. -/
theorem head_le_of_lookupCell {lo k a : Nat} {v b : Byte} {rest : List Host.Cell}
    (hl : risingFrom lo ((k, v) :: rest) = true) (ha : lookupCell ((k, v) :: rest) a = some b) : k ≤ a := by
  by_contra hlt
  obtain ⟨-, hrest⟩ := risingFrom_cons.1 hl
  rw [lookupCell_below (risingFrom_cons.2 ⟨le_rfl, hrest⟩) (not_le.1 hlt)] at ha
  cases ha

/-- Rising lists are determined by what they look up: their first addresses agree, and so do their tails. -/
theorem cells_ext {l l' : List Host.Cell} {lo : Nat} (h : risingFrom lo l = true) (h' : risingFrom lo l' = true)
    (heq : ∀ a, lookupCell l a = lookupCell l' a) : l = l' := by
  induction l generalizing l' lo with
  | nil =>
    cases l' with
    | nil => rfl
    | cons c' rest' => simpa [lookupCell] using heq c'.1
  | cons c rest ih =>
    cases l' with
    | nil => simpa [lookupCell] using heq c.1
    | cons c' rest' =>
      obtain ⟨k, v⟩ := c
      obtain ⟨k', v'⟩ := c'
      obtain rfl : k = k' := le_antisymm (head_le_of_lookupCell h ((heq k').trans (lookupCell_head ..)))
        (head_le_of_lookupCell h' ((heq k).symm.trans (lookupCell_head ..)))
      obtain rfl : v = v' := by simpa [lookupCell] using heq k
      obtain ⟨-, hrest⟩ := risingFrom_cons.1 h
      obtain ⟨-, hrest'⟩ := risingFrom_cons.1 h'
      have htail : ∀ a, lookupCell rest a = lookupCell rest' a := fun a => by
        by_cases ha : k = a
        · rw [lookupCell_below hrest (by omega), lookupCell_below hrest' (by omega)]
        · simpa [lookupCell, ha] using heq a
      rw [ih hrest hrest' htail]

/-- A canonical memory lists exactly the bytes that differ from the fill. -/
theorem Memory.lookupCell_of_wf {m : Memory} (h : m.wf = true) (a : Nat) :
    lookupCell m.cells a = if m.read a = m.fill then none else some (m.read a) := by
  simp only [Memory.wf, Bool.and_eq_true, List.all_eq_true, bne_iff_ne] at h
  obtain ⟨-, hne⟩ := h
  cases hb : lookupCell m.cells a with
  | none => simp [Memory.read, hb]
  | some b => simp [Memory.read, hb, hne _ (mem_of_lookupCell hb)]

theorem Memory.risingFrom_of_wf {m : Memory} (h : m.wf = true) : risingFrom 0 m.cells = true :=
  (Bool.and_eq_true_iff.1 h).1

/-- Settles O13: what a canonical memory reads fixes what its list looks up, and so the list. -/
theorem canonicalMemoriesThatReadAlikeAreEqual : Obligations.CanonicalMemoriesThatReadAlikeAreEqual := by
  intro m n hm hn hfill hread
  have hcells : m.cells = n.cells := cells_ext (Memory.risingFrom_of_wf hm) (Memory.risingFrom_of_wf hn) fun a => by
    rw [Memory.lookupCell_of_wf hm, Memory.lookupCell_of_wf hn, hfill, hread]
  exact congrArg₂ Memory.mk hfill hcells

/-! ### Where a step stops (R60, R201) -/

theorem HostOp.not_wellFormed_iff {op : HostOp} :
    op.wellFormed = false ↔
      (∃ a bs, op = .memWrite a bs ∧ 2 ^ 32 < a + bs.length) ∨ ∃ a n, op = .memRead a n ∧ 2 ^ 32 < a + n := by
  have past : ∀ n, decide (n ≤ Config.memSize) = false ↔ 2 ^ 32 < n := fun n => decide_eq_false_iff_not.trans not_le
  cases op <;> simp [HostOp.wellFormed, past]

/-- No command stops the machine (R201). -/
theorem writeCmd_next (c : Word) (s : State) : ∃ t, writeCmd c s = .next t := by
  rcases writeCmd_cases c s with ⟨-, hx⟩ | ⟨-, -, hx⟩ | ⟨-, i, -, hx⟩ <;> exact ⟨_, hx⟩

theorem perform_of_not_wellFormed {op : HostOp} (h : op.wellFormed = false) (s : State) :
    perform op s = .fault .hostAccessOutsideMem := by
  cases op with
  | memWrite a bs => simp [perform, hostWrite, h]
  | memRead a n => simp [perform, hostRead, h]
  | regRead => cases h
  | regWrite => cases h
  | reset => cases h

theorem perform_of_wellFormed {op : HostOp} (h : op.wellFormed = true) (s : State) : ∃ t, perform op s = .next t := by
  rcases perform_cases op s with ⟨-, hw⟩ | ⟨p, hx⟩ | ⟨-, n, v, -, -, -, hx⟩ | ⟨-, -, -, -, hx⟩ | ⟨-, w, -, -, hx⟩ |
    ⟨a, bs, -, -, hx⟩ | ⟨-, hx⟩
  · simp [h] at hw
  · exact ⟨_, hx⟩
  · exact ⟨_, hx⟩
  · exact ⟨_, hx⟩
  · exact hx ▸ writeCmd_next w s
  · exact ⟨_, hx⟩
  · exact ⟨_, hx⟩

/-- A step stops at a line that is not well formed and goes on at every other line and with none pending. -/
theorem step_fault_or_next (s : State) :
    (∃ op ops, s.host = op :: ops ∧ op.wellFormed = false ∧ step s = .fault .hostAccessOutsideMem) ∨
    ((∀ op ops, s.host = op :: ops → op.wellFormed = true) ∧ ∃ t, step s = .next t) := by
  rcases step_cases s with ⟨h, hx⟩ | ⟨op, ops, h, hx⟩
  · exact .inr ⟨by simp [h], s, hx⟩
  · cases hw : op.wellFormed with
    | false => exact .inl ⟨op, ops, h, hw, hx.trans (perform_of_not_wellFormed hw _)⟩
    | true => exact .inr ⟨by simp [h, hw], hx ▸ perform_of_wellFormed hw _⟩

theorem step_fault_iff (s : State) :
    (∃ f, step s = .fault f) ↔ ∃ op ops, s.host = op :: ops ∧ op.wellFormed = false := by
  rcases step_fault_or_next s with ⟨op, ops, h, hw, hx⟩ | ⟨hall, t, hx⟩
  · exact iff_of_true ⟨_, hx⟩ ⟨op, ops, h, hw⟩
  · refine iff_of_false (by simp [hx]) ?_
    rintro ⟨op, ops, h, hw⟩
    simp [hall op ops h] at hw

/-- Settles O15: the only stop is a line that is not well formed, which is a MEMW or a MEMR past the end of MEM; nothing
is refused. -/
theorem stepStopsOnlyOnHostAccessOutsideMem : Obligations.StepStopsOnlyOnHostAccessOutsideMem := by
  refine fun s => ⟨?_, fun r hr => ?_⟩
  · rw [step_fault_iff]
    constructor
    · rintro ⟨op, ops, h, hw⟩
      rcases HostOp.not_wellFormed_iff.1 hw with ⟨a, bs, rfl, hlt⟩ | ⟨a, n, rfl, hlt⟩
      · exact .inl ⟨a, bs, ops, h, hlt⟩
      · exact .inr ⟨a, n, ops, h, hlt⟩
    · rintro (⟨a, bs, ops, h, hlt⟩ | ⟨a, n, ops, h, hlt⟩)
      · exact ⟨_, ops, h, HostOp.not_wellFormed_iff.2 (.inl ⟨a, bs, rfl, hlt⟩)⟩
      · exact ⟨_, ops, h, HostOp.not_wellFormed_iff.2 (.inr ⟨a, n, rfl, hlt⟩)⟩
  · rcases step_fault_or_next s with ⟨-, -, -, -, hx⟩ | ⟨-, t, hx⟩ <;> simp [hx] at hr

/-! ### What a step keeps of memory and the platform (R60, R78) -/

theorem State.accessible_congr {s t : State} (h : t.holes = s.holes) (a : Nat) : t.accessible a = s.accessible a := by
  simp only [State.accessible, h]

theorem writeCmd_keeps_holes_fill {c : Word} {s t : State} (ht : writeCmd c s = .next t) :
    t.holes = s.holes ∧ t.mem.fill = s.mem.fill := by
  rcases writeCmd_cases c s with ⟨-, hx⟩ | ⟨-, -, hx⟩ | ⟨-, i, -, hx⟩ <;>
    obtain rfl := Host.Outcome.next.inj (hx.symm.trans ht)
  · exact ⟨rfl, rfl⟩
  · exact ⟨rfl, rfl⟩
  · obtain ⟨-, hholes, -, -, hfill⟩ := runStages_frame (stagesOf i) (accept (encode i) s)
    exact ⟨hholes, hfill⟩

/-- Every line keeps the holes and the fill, and only a CMD write and a MEMW reach memory. -/
theorem perform_frame {op : HostOp} {s t : State} (ht : perform op s = .next t) :
    t.holes = s.holes ∧ t.mem.fill = s.mem.fill ∧
      (t.mem = s.mem ∨ (∃ v, op = .regWrite 1 v) ∨ ∃ a bs, op = .memWrite a bs) := by
  rcases perform_cases op s with ⟨hx, -⟩ | ⟨p, hx⟩ | ⟨-, n, v, -, -, -, hx⟩ | ⟨-, -, -, -, hx⟩ | ⟨k, w, hk, hop, hx⟩ |
    ⟨a, bs, hop, -, hx⟩ | ⟨-, hx⟩ <;> rw [hx] at ht
  · cases ht
  · cases ht; exact ⟨rfl, rfl, .inl rfl⟩
  · cases ht; exact ⟨rfl, rfl, .inl rfl⟩
  · cases ht; exact ⟨rfl, rfl, .inl rfl⟩
  · obtain ⟨hholes, hfill⟩ := writeCmd_keeps_holes_fill ht
    obtain rfl : k = 1 := regAt_eq_some.1 hk
    exact ⟨hholes, hfill, .inr (.inl ⟨w, hop⟩)⟩
  · cases ht; exact ⟨rfl, Memory.writeAll_fill _ _, .inr (.inr ⟨a, bs, hop⟩)⟩
  · cases ht; exact ⟨rfl, rfl, .inl rfl⟩

/-- Settles O16: the idle step changes nothing, and a line keeps what `perform_frame` says. -/
theorem memoryChangesOnlyByCommandsAndHostStores : Obligations.MemoryChangesOnlyByCommandsAndHostStores := by
  intro s t ht
  rcases step_cases s with ⟨-, hx⟩ | ⟨op, ops, h, hx⟩
  · obtain rfl := Host.Outcome.next.inj (hx.symm.trans ht)
    exact ⟨fun _ => rfl, rfl, .inl rfl⟩
  · obtain ⟨hholes, hfill, hmem⟩ := perform_frame (hx.symm.trans ht)
    refine ⟨State.accessible_congr hholes, hfill, ?_⟩
    rcases hmem with hmem | ⟨v, rfl⟩ | ⟨a, bs, rfl⟩
    · exact .inl hmem
    · exact .inr (.inl ⟨v, ops, h⟩)
    · exact .inr (.inr ⟨a, bs, ops, h⟩)

end Sys2Proof.Machine
end

section
/-! PROOFS. Command words and the host's script (spec/30_encoding.md): the decoder against the encoder, the illegal words,
what a CMD write does, and the lines MEMW, MEMR and SETW. -/

namespace Sys2Proof.Machine

/-! ### The decoder inverts the encoder (R93) -/

theorem encodingFields_hold (i : Instr) : Laws.EncodingFields.Statement i := by
  open Laws.EncodingFields in
  cases i
  exacts [grayA, grayI, grayV, edgeA, blurA, convI, convV, padV, combA, combI, combV, pipeA, pipeI, pipeV]

theorem decode_encode (i : Instr) : decode (encode i) = .ok i := by
  simp only [decode, encode, fieldsOf_wordOf]
  cases i <;> rfl

theorem decode_eq_ok_iff {w : Word} {i : Instr} : decode w = .ok i ↔ w = encode i :=
  ⟨fun h => (encode_of_decode h).symm, fun h => h ▸ decode_encode i⟩

theorem decode_eq_error_iff {w : Word} : (∃ e, decode w = .error e) ↔ ∀ i, w ≠ encode i := by
  simp only [ne_eq, ← decode_eq_ok_iff]
  cases decode w <;> simp

/-- The commands, in the order of R93's table. -/
def commands : List Instr :=
  [.grayA, .grayI, .grayV, .edgeA, .blurA, .convI, .convV, .padV, .combA, .combI, .combV, .pipeA, .pipeI, .pipeV]

theorem mem_commands (i : Instr) : i ∈ commands := by cases i <;> decide

/-- Settles O2: a word decodes to a command exactly when it is that command's word, and the fourteen listed words are the
commands' words in order. -/
theorem decodeAcceptsExactlyTheFourteenWords : Obligations.DecodeAcceptsExactlyTheFourteenWords := by
  refine ⟨fun i => ?_, fun w => ?_, fun w => ?_⟩
  · obtain ⟨-, -, hword⟩ := encodingFields_hold i
    exact hword
  · change _ ↔ w ∉ commands.map encode
    rw [decode_eq_error_iff]
    simp [mem_commands, eq_comm]
  · have spells : ∀ i, decode w = .ok i ↔ w = encode i := fun _ => decode_eq_ok_iff
    exact ⟨spells .grayA, spells .grayI, spells .grayV, spells .edgeA, spells .blurA, spells .convI, spells .convV,
      spells .padV, spells .combA, spells .combI, spells .combV, spells .pipeA, spells .pipeI, spells .pipeV⟩

/-- Settles O1: each of the six is the encoder's word. -/
theorem decodeReadsSpecWords : Obligations.DecodeReadsSpecWords :=
  ⟨decode_encode .grayV, decode_encode .edgeA, decode_encode .convI, decode_encode .padV, decode_encode .combI,
    decode_encode .pipeA⟩

/-- All 32 table bits of a word are the word. -/
theorem fetchWord_toNat (w : Word) : fetchWord 32 w.toNat = w := by
  rw [fetchWord, Nat.mod_eq_of_lt w.isLt, BitVec.ofNat_toNat, BitVec.setWidth_eq]

/-- Settles O3: the table's reading of a word is the decoder's. -/
theorem decodeInvertsEncode : Obligations.DecodeInvertsEncode :=
  fun i => ⟨decode_encode i, by simp only [decodeTableWord, fetchWord_toNat, decode_encode]⟩

/-! ### Illegal words (R94, R191) -/

theorem CmdFields.not_wellFormed_iff {f : CmdFields} :
    f.wellFormed = false ↔ f.zero ≠ 0 ∨ f.tier = 3 ∨ f.stage = 0 ∨ 8 ≤ f.stage.toNat ∨
      (f.stage, f.tier) ∈ CmdFields.illegalPairs := by
  simp [CmdFields.wellFormed, ← Bool.not_eq_true, not_and_or, or_assoc, -not_and]

/-- Legal fields are the fields of a command: those of the 64 pairs that R94 leaves are rows of R93. -/
theorem exists_fields_of_wellFormed {f : CmdFields} (h : f.wellFormed = true) : ∃ i : Instr, f = i.fields := by
  have hz : f.zero = 0 := by
    by_contra hne
    simp [CmdFields.not_wellFormed_iff.2 (.inl hne)] at h
  obtain ⟨z, t, g⟩ := f
  obtain rfl : z = 0 := hz
  have rows : ∀ (t : BitVec 2) (g : BitVec 4), (CmdFields.mk 0 t g).wellFormed = true →
      ∃ i ∈ commands, CmdFields.mk 0 t g = i.fields := by decide
  obtain ⟨i, -, hi⟩ := rows t g h
  exact ⟨i, hi⟩

theorem fieldsOf_eq_fields_iff {w : Word} {i : Instr} : fieldsOf w = i.fields ↔ w = encode i := by
  rw [encode, ← fieldsOf_inj (w := wordOf i.fields), fieldsOf_wordOf]

/-- The decoder rejects a word exactly when its fields fail R94's test. -/
theorem decode_eq_error_iff_not_wellFormed {w : Word} :
    (∃ e, decode w = .error e) ↔ (fieldsOf w).wellFormed = false := by
  rw [decode_eq_error_iff, ← Bool.not_eq_true]
  constructor
  · intro h hf
    obtain ⟨i, hi⟩ := exists_fields_of_wellFormed hf
    exact h i (fieldsOf_eq_fields_iff.1 hi)
  · rintro h i rfl
    obtain ⟨hwf, hfields, -⟩ := encodingFields_hold i
    exact h (hfields ▸ hwf)

/-- With bits 31:6 at 0 the seven pairs are seven words. -/
theorem mem_illegalPairs_iff {w : Word} (hz : (fieldsOf w).zero = 0) :
    ((fieldsOf w).stage, (fieldsOf w).tier) ∈ CmdFields.illegalPairs ↔
      w = 0x12#32 ∨ w = 0x22#32 ∨ w = 0x13#32 ∨ w = 0x23#32 ∨ w = 0x04#32 ∨ w = 0x05#32 ∨ w = 0x15#32 := by
  have word : ∀ g t, ((fieldsOf w).stage, (fieldsOf w).tier) = (g, t) ↔ w = wordOf ⟨0, t, g⟩ := fun g t => by
    rw [← fieldsOf_inj, fieldsOf_wordOf, Prod.mk.injEq]
    exact ⟨fun ⟨hg, ht⟩ => cmdFields_ext hz ht hg, fun h => by rw [h]; exact ⟨rfl, rfl⟩⟩
  simp only [CmdFields.illegalPairs, List.mem_cons, List.not_mem_nil, or_false, word]
  rfl

theorem writeCmd_of_decode {w : Word} {i : Instr} (h : decode w = .ok i) (s : State) : writeCmd w s = exec i s := by
  simp only [writeCmd, h]

/-- An accepted illegal word leaves ERR_CMD with ESTAGE 0 (R191). -/
theorem writeCmd_of_illegal {w : Word} (h : ∃ e, decode w = .error e) {s : State} (he : s.regs.status.err = false) :
    writeCmd w s = .next (s.faulted w 1 0) := by
  obtain ⟨e, hd⟩ := h
  simp only [writeCmd, hd]
  exact issueIllegal_of_ready w he

theorem step_of_cmdWrite {s : State} {ops : List HostOp} {w : Word} (h : s.host = .regWrite 1 w :: ops) :
    step s = writeCmd w (s.withHost ops) := step_of_host h

/-- Settles O4: the decoder rejects what R94's test rejects, clause by clause, and the write of such a word is the fault
entry of R191. -/
theorem illegalWordsRaiseErrCmd : Obligations.IllegalWordsRaiseErrCmd := by
  refine fun w => ⟨?_, fun s ops hill h he => (step_of_cmdWrite h).trans (writeCmd_of_illegal hill he)⟩
  rw [decode_eq_error_iff_not_wellFormed, CmdFields.not_wellFormed_iff]
  by_cases hz : (fieldsOf w).zero = 0
  · rw [mem_illegalPairs_iff hz]
    rfl
  · exact iff_of_true (.inl hz) (.inl hz)

/-! ### One line, one step (R31, R100) -/

/-- Settles O5: the next line is performed on the state without it; `withFetchWord` puts one such line in front. -/
theorem stepRunsTheDecodedCommand : Obligations.StepRunsTheDecodedCommand := by
  have runs : ∀ {s ops w i}, s.host = .regWrite 1 w :: ops → decode w = .ok i → step s = exec i (s.withHost ops) :=
    fun h hi => (step_of_cmdWrite h).trans (writeCmd_of_decode hi _)
  refine ⟨fun s ops w i => runs, fun s i => ?_, fun s h => ?_⟩
  · have hd : decode (fetchWord 32 (encode i).toNat) = .ok i := by rw [fetchWord_toNat, decode_encode]
    exact runs (s := s.withFetchWord 32 (encode i).toNat) rfl hd
  · simp only [step, hostStep, h]

/-! ### The host's stores and loads (R102) -/

theorem Memory.read_writeAll_cellsAt (m : Memory) (a : Nat) {bs : List Byte} {k : Nat} (h : k < bs.length) :
    (m.writeAll (cellsAt a bs)).read (a + k) = bs[k] := by
  refine Memory.read_writeAll_of_mem _ _ _ _ ((mem_cellsAt _ _ _).2 ⟨k, rfl, List.getElem?_eq_getElem h⟩) ?_
  intro c hc hca
  obtain ⟨j, hj, hb⟩ := (mem_cellsAt _ _ _).1 hc
  obtain rfl : j = k := by omega
  exact (Option.some.inj ((List.getElem?_eq_getElem h).symm.trans hb)).symm

theorem Memory.read_writeAll_cellsAt_outside (m : Memory) {a x : Nat} {bs : List Byte}
    (h : ¬(a ≤ x ∧ x < a + bs.length)) : (m.writeAll (cellsAt a bs)).read x = m.read x := by
  refine Memory.read_writeAll_of_notMem _ _ _ fun c hc hcx => h ?_
  obtain ⟨k, hk, hb⟩ := (mem_cellsAt _ _ _).1 hc
  have hlt := (List.getElem?_eq_some_iff.1 hb).1
  omega

theorem hostWrite_of_le {a : Nat} {bs : List Byte} (h : a + bs.length ≤ Config.memSize) (s : State) :
    hostWrite a bs s = .next (s.withMem (s.mem.writeAll (cellsAt a bs))) := if_pos (decide_eq_true h)

theorem hostRead_of_le {a n : Nat} (h : a + n ≤ Config.memSize) (s : State) :
    hostRead a n s = .next (s.reply (.bytes (s.mem.readBytes a n))) := if_pos (decide_eq_true h)

/-- Settles O14: a store writes one cell per listed byte, a load lists the reads. -/
theorem hostStoresAndLoadsBytes : Obligations.HostStoresAndLoadsBytes := by
  refine ⟨fun s ops a bs h hle => ⟨_, (step_of_host h).trans (hostWrite_of_le hle _), ?_, ?_⟩,
    fun s ops a n h hle => ⟨_, (step_of_host h).trans (hostRead_of_le hle _), ?_, ?_⟩⟩
  · exact fun k hk => Memory.read_writeAll_cellsAt _ a hk
  · exact fun x hx => Memory.read_writeAll_cellsAt_outside _ hx
  · simp [Memory.readBytes]
  · simp [Memory.readBytes]

/-! ### SETW (R103) -/

/-- The pattern that `bits` gives a rounded literal decodes to it. -/
theorem decode_bits_of_fl32 {q v : ℚ} (h : fl32 q = .fin v) : F32.decode (fl32 q).bits = .fin v := by
  rw [h]
  rcases eq_or_ne v 0 with rfl | hv
  · simp [F32.bits, F32.decode]
  · obtain ⟨⟨b, hb⟩, -⟩ := fl32IsTheNearestBinary32Value q v h
    obtain ⟨hbits, -⟩ := binary32PatternsRoundTrip b (by simp [hb])
    rw [← hb, hbits (by simp [hb, hv])]

theorem run_of_step (M : Host.Core) {s t : M.State} (h : M.step s = .next t) (k : Nat) :
    M.run (k + 1) s = M.run k t := by
  rw [Host.Core.run, h]

theorem run_of_wr {s : State} {n : Reg} {v : Word} {ops : List HostOp} (hn : n ≠ .cmd) (h : s.host = wr n v :: ops)
    (k : Nat) : Host.Core.run core (k + 1) s = Host.Core.run core k ((s.withHost ops).withRegs (s.regs.write n v)) :=
  run_of_step core ((step_of_host h).trans (regWrite_eq_write hn v _)) k

/-- Three steps perform the three lines of SETW, each a write of one weight register. -/
theorem run_weightWrites {s : State} {ops : List HostOp} {x y z : Word}
    (h : s.host = [wr .wgtR x, wr .wgtG y, wr .wgtB z] ++ ops) :
    Host.Core.run core 3 s =
      .next { s with regs := { s.regs with wgtR := x, wgtG := y, wgtB := z }, host := ops } := by
  rw [run_of_wr (by decide) h, run_of_wr (by decide) rfl, run_of_wr (by decide) rfl]
  rfl

/-- Settles O23: SETW writes patterns that decode to its rounded literals. -/
theorem setwStoresTheNearestBinary32Weights : Obligations.SetwStoresTheNearestBinary32Weights :=
  fun _ _ _ _ _ _ _ _ h hr hg hb =>
    ⟨_, run_weightWrites h, decode_bits_of_fl32 hr, decode_bits_of_fl32 hg, decode_bits_of_fl32 hb, rfl⟩

end Sys2Proof.Machine
end

section
/-! PROOFS. The weights and the grayscale values of spec/40_grayscale.md (R110 to R115, R117): what valid weights are, and how
far the binary32 operations on them stray from the exact weighted average. -/

namespace Sys2Proof.Machine

/-! ### The two roundings to an integer (R115) -/

/-- `rhaz` goes up from a fraction of a half on (R10). -/
theorem rhaz_eq_floor (q : ℚ) : rhaz q = if 1 / 2 ≤ q - (⌊q⌋ : ℚ) then ⌊q⌋ + 1 else ⌊q⌋ := by
  have lo := Int.floor_le q
  have hi := Int.lt_floor_add_one q
  rw [rhaz_eq_iff]
  split
  · push_cast; constructor <;> linarith
  · constructor <;> linarith

/-- `rne` goes up from a fraction above a half, and at a half from an odd floor (R11). -/
theorem rne_eq_floor (q : ℚ) :
    rne q = if 1 / 2 < q - (⌊q⌋ : ℚ) ∨ (q - (⌊q⌋ : ℚ) = 1 / 2 ∧ ⌊q⌋ % 2 = 1) then ⌊q⌋ + 1 else ⌊q⌋ := rfl

/-- Settles O19: both go up from above a half and down from below it; at a half `rhaz` goes up, and `rne` only from an odd
floor. -/
theorem rneDiffersFromRhazOnlyOnEvenTies : Obligations.RneDiffersFromRhazOnlyOnEvenTies := by
  intro q
  rw [rne_eq_floor, rhaz_eq_floor]
  generalize (1 : ℚ) / 2 = half, q - (⌊q⌋ : ℚ) = d
  rcases lt_trichotomy d half with h | rfl | h
  · simp [h.ne, h.not_gt, h.not_ge]
  · rcases Int.emod_two_eq_zero_or_one ⌊q⌋ with h2 | h2 <;> simp [h2]
  · simp [h.ne', h, h.le]

/-! ### Valid weights (R110) -/

theorem F32.weightLike_iff {x : F32} : x.weightLike = true ↔ ∃ q, x = .fin q ∧ 0 ≤ q := by
  cases x <;> simp [F32.weightLike]

theorem F32.isFinite_iff {x : F32} : x.isFinite = true ↔ ∃ q, x = .fin q := by
  cases x <;> simp [F32.isFinite]

/-- The weight registers hold the values `wr`, `wg`, `wb`, and these are valid with the sum `S` (R110). -/
structure ValidWeights (r : Regs) (wr wg wb S : ℚ) : Prop where
  red : F32.decode r.wgtR = .fin wr
  green : F32.decode r.wgtG = .fin wg
  blue : F32.decode r.wgtB = .fin wb
  red_nonneg : 0 ≤ wr
  green_nonneg : 0 ≤ wg
  blue_nonneg : 0 ≤ wb
  sum : fadd (fadd (.fin wr) (.fin wg)) (.fin wb) = .fin S
  pos : 0 < S

theorem weightsValid_iff {r : Regs} : r.weightsValid = true ↔ ∃ wr wg wb S, ValidWeights r wr wg wb S := by
  simp only [Regs.weightsValid, Regs.weightSum, Regs.weight, Bool.and_eq_true, F32.weightLike_iff, F32.isFinite_iff,
    decide_eq_true_eq]
  constructor
  · rintro ⟨⟨⟨⟨⟨wr, hr, r0⟩, wg, hg, g0⟩, wb, hb, b0⟩, S, hS⟩, hpos⟩
    rw [hS, F32.val_fin] at hpos
    exact ⟨wr, wg, wb, S, hr, hg, hb, r0, g0, b0, by rw [← hS, hr, hg, hb], hpos⟩
  · rintro ⟨wr, wg, wb, S, h⟩
    rw [h.red, h.green, h.blue, h.sum]
    exact ⟨⟨⟨⟨⟨wr, rfl, h.red_nonneg⟩, wg, rfl, h.green_nonneg⟩, wb, rfl, h.blue_nonneg⟩, S, rfl⟩, h.pos⟩

theorem forall_mem_three {α : Type} {P : α → Prop} {a b c : α} : (∀ x ∈ [a, b, c], P x) ↔ P a ∧ P b ∧ P c := by simp

/-- GRAY.I asks besides that no weight overflows when multiplied by 1024 (R113). -/
theorem weightsValidI_iff {r : Regs} : r.weightsValidI = true ↔ r.weightsValid = true ∧
    ∀ b ∈ [r.wgtR, r.wgtG, r.wgtB], ∃ t : ℚ, fmul (F32.decode b) (F32.ofNat 1024) = .fin t := by
  simp only [Regs.weightsValidI, Regs.scaledWeight, Regs.weight, Config.qScale, Bool.and_eq_true, F32.isFinite_iff,
    forall_mem_three, and_assoc]

/-- With `W, H ≥ 1` and weights that its row rejects a GRAY command records ERR_WEIGHT (R200). -/
theorem Row.Describes.weightFault {w : Row} {i : Instr} {st : Stage} (h : w.Describes i st) {s : State}
    (he : s.regs.status.err = false) (hl : w.lanes = false) (hw : 0 < s.regs.w) (hh : 0 < s.regs.h)
    (hbad : ¬w.weights s.regs) : exec i s = .next (w.faulted 4 s) := by
  obtain ⟨-, -, hweight, -⟩ := h.staticFaults he
  exact hweight (by simp [Row.LanesOk, hl]) ⟨hw, hh⟩ hbad

/-- Settles O24: the check is R110's list, clause by clause; the weight check comes second, before any write. -/
theorem weightsAreValidExactlyAsR110Says : Obligations.WeightsAreValidExactlyAsR110Says := by
  refine ⟨by decide +kernel, by decide +kernel, fun s he hw hh hbad => ?_, fun r => ?_, fun r => weightsValidI_iff⟩
  · have hI : ¬s.regs.weightsValidI = true := fun h => by simp [(weightsValidI_iff.1 h).1] at hbad
    have hA : ¬s.regs.weightsValid = true := by simp [hbad]
    exact ⟨rowGrayA_describes.weightFault he rfl hw hh hA, rowGrayI_describes.weightFault he rfl hw hh hI,
      rowGrayV_describes.weightFault he rfl hw hh hA⟩
  · rw [weightsValid_iff]
    exact ⟨fun ⟨wr, wg, wb, S, h⟩ => ⟨wr, wg, wb, S, h.red, h.green, h.blue, h.red_nonneg, h.green_nonneg, h.blue_nonneg,
      h.sum, h.pos⟩, fun ⟨wr, wg, wb, S, hr, hg, hb, r0, g0, b0, hS, pos⟩ =>
        ⟨wr, wg, wb, S, hr, hg, hb, r0, g0, b0, hS, pos⟩⟩

/-! ### The error of one rounding, in numerals -/

theorem pow2_neg_eq (n : Nat) : pow2 (-n) = 1 / 2 ^ n := by rw [pow2_eq_zpow]; simp

/-- A rounding of a grid value is relative: nothing is lost to underflow (R14). -/
theorem fl32_between_of_onGrid {q v : ℚ} (hg : OnGrid q) (h0 : 0 ≤ q) (h : fl32 q = .fin v) :
    (1 - 1 / 2 ^ 24) * q ≤ v ∧ v ≤ (1 + 1 / 2 ^ 24) * q := by
  have he := fl32_error_grid hg h
  rw [abs_of_nonneg h0, show pow2 (-24) = 1 / 2 ^ 24 from pow2_neg_eq 24, abs_le] at he
  constructor <;> linarith

/-- A rounding of a value of ordinary size is finite, and off by `2^-24` of the value and `2^-150` at most (R14, R117). -/
theorem exists_fl32_between {q : ℚ} (h0 : 0 ≤ q) (h : q ≤ 2 ^ 20) :
    ∃ v, fl32 q = .fin v ∧ 0 ≤ v ∧ (1 - 1 / 2 ^ 24) * q - 1 / 2 ^ 150 ≤ v ∧ v ≤ (1 + 1 / 2 ^ 24) * q + 1 / 2 ^ 150 := by
  have hlt : |q| < pow2 127 := by
    rw [abs_of_nonneg h0]
    exact h.trans_lt (by rw [pow2_eq_zpow]; norm_num)
  obtain ⟨v, hv⟩ := fl32_finite hlt
  have he := fl32_error hv
  rw [abs_of_nonneg h0, show pow2 (-24) = 1 / 2 ^ 24 from pow2_neg_eq 24,
    show pow2 (-150) = 1 / 2 ^ 150 from pow2_neg_eq 150] at he
  have hsum : |v - q| ≤ 1 / 2 ^ 24 * q + 1 / 2 ^ 150 :=
    he.trans (max_le_add_of_nonneg (by positivity) (by positivity))
  obtain ⟨lo, hi⟩ := abs_le.1 hsum
  exact ⟨v, hv, fl32_nonneg h0 hv, by linarith, by linarith⟩

theorem fadd_eq_fin {x y : F32} {v : ℚ} (h : fadd x y = .fin v) :
    ∃ a b, x = .fin a ∧ y = .fin b ∧ fl32 (a + b) = .fin v := by
  cases x <;> cases y <;> simp_all [fadd, F32.lift]

/-! ### The shares of the weights (R111, R117) -/

namespace ValidWeights
variable {r : Regs} {wr wg wb S : ℚ} (h : ValidWeights r wr wg wb S)
include h

theorem sumFormula_eq : sumFormula r = .fin S := by rw [sumFormula, h.red, h.green, h.blue, h.sum]

/-- `S` is two roundings away from the exact sum, both relative. -/
theorem total_between : (1 - 1 / 2 ^ 22) * S ≤ wr + wg + wb ∧ wr + wg + wb ≤ (1 + 1 / 2 ^ 22) * S := by
  obtain ⟨p, b, hp, hb, hS⟩ := fadd_eq_fin h.sum
  obtain rfl := F32.fin.inj hb
  have r0 := h.red_nonneg
  have g0 := h.green_nonneg
  have b0 := h.blue_nonneg
  have p0 : 0 ≤ p := fl32_nonneg (add_nonneg r0 g0) hp
  obtain ⟨lo, hi⟩ := fl32_between_of_onGrid ((onGrid_decode h.red).add (onGrid_decode h.green)) (add_nonneg r0 g0) hp
  obtain ⟨lo', hi'⟩ := fl32_between_of_onGrid ((fl32_onGrid hp).add (onGrid_decode h.blue)) (add_nonneg p0 b0) hS
  constructor <;> linarith

/-- The exact shares of the weights in `S` sum to 1 up to `2^-22`. -/
theorem shares_between : 1 - 1 / 2 ^ 22 ≤ wr / S + wg / S + wb / S ∧ wr / S + wg / S + wb / S ≤ 1 + 1 / 2 ^ 22 := by
  rw [← add_div, ← add_div, le_div_iff₀ h.pos, div_le_iff₀ h.pos]
  exact h.total_between

theorem shares_nonneg : 0 ≤ wr / S ∧ 0 ≤ wg / S ∧ 0 ≤ wb / S :=
  ⟨div_nonneg h.red_nonneg h.pos.le, div_nonneg h.green_nonneg h.pos.le, div_nonneg h.blue_nonneg h.pos.le⟩

end ValidWeights

/-! ### GRAY.A and GRAY.V: the binary32 sum (R112, R117 (a)) -/

/-- The normalised weights are finite, not negative, and sum to at most a little above 1 (R111, R117). -/
theorem ValidWeights.normalised {r : Regs} {wr wg wb S : ℚ} (h : ValidWeights r wr wg wb S) :
    ∃ nr ng nb : ℚ, fdiv (F32.decode r.wgtR) (sumFormula r) = .fin nr ∧
      fdiv (F32.decode r.wgtG) (sumFormula r) = .fin ng ∧ fdiv (F32.decode r.wgtB) (sumFormula r) = .fin nb ∧
      0 ≤ nr ∧ 0 ≤ ng ∧ 0 ≤ nb ∧ nr + ng + nb ≤ 1 + 1 / 2 ^ 21 := by
  obtain ⟨r0, g0, b0⟩ := h.shares_nonneg
  obtain ⟨-, hi⟩ := h.shares_between
  rw [h.red, h.green, h.blue, h.sumFormula_eq, fdiv_fin _ h.pos.ne', fdiv_fin _ h.pos.ne', fdiv_fin _ h.pos.ne']
  obtain ⟨nr, er, nr0, -, hr⟩ := exists_fl32_between r0 (by linarith)
  obtain ⟨ng, eg, ng0, -, hg⟩ := exists_fl32_between g0 (by linarith)
  obtain ⟨nb, eb, nb0, -, hb⟩ := exists_fl32_between b0 (by linarith)
  exact ⟨nr, ng, nb, er, eg, eb, nr0, ng0, nb0, by linarith⟩

/-- A sample times a normalised weight. -/
theorem exists_fmul_sample {n : ℚ} (h0 : 0 ≤ n) (h2 : n ≤ 2) {k : Nat} (hk : k ≤ 255) :
    ∃ p, fmul (F32.ofNat k) (.fin n) = .fin p ∧ 0 ≤ p ∧ p ≤ (1 + 1 / 2 ^ 24) * (255 * n) + 1 / 2 ^ 150 := by
  have hkn : (k : ℚ) * n ≤ 255 * n := mul_le_mul_of_nonneg_right (by exact_mod_cast hk) h0
  obtain ⟨p, hp, p0, -, hi⟩ := exists_fl32_between (mul_nonneg k.cast_nonneg h0) (by linarith : (k : ℚ) * n ≤ 2 ^ 20)
  exact ⟨p, hp, p0, by linarith⟩

/-- The binary32 sum of a pixel: three products and two sums, a rounding each (R112, R117 (a)). -/
theorem exists_grayFormula {r : Regs} (h : r.weightsValid = true) {R G B : Nat} (hR : R ≤ 255) (hG : G ≤ 255)
    (hB : B ≤ 255) : ∃ v : ℚ, grayFormula r R G B = .fin v ∧ 0 ≤ v ∧ v < 255001 / 1000 := by
  obtain ⟨wr, wg, wb, S, hw⟩ := weightsValid_iff.1 h
  obtain ⟨nr, ng, nb, er, eg, eb, nr0, ng0, nb0, hn⟩ := hw.normalised
  rw [grayFormula, er, eg, eb]
  obtain ⟨pr, hpr, pr0, hir⟩ := exists_fmul_sample nr0 (by linarith) hR
  obtain ⟨pg, hpg, pg0, hig⟩ := exists_fmul_sample ng0 (by linarith) hG
  obtain ⟨pb, hpb, pb0, hib⟩ := exists_fmul_sample nb0 (by linarith) hB
  obtain ⟨t, ht, t0, -, hit⟩ := exists_fl32_between (add_nonneg pr0 pg0) (by linarith)
  obtain ⟨v, hv, v0, -, hiv⟩ := exists_fl32_between (add_nonneg t0 pb0) (by linarith)
  refine ⟨v, ?_, v0, by linarith⟩
  rw [hpr, hpg, hpb, fadd_fin, ht, fadd_fin, hv]

/-- Settles O25: below 255.5 both roundings give at most 255. -/
theorem grayFloatSumsNeedNoClamp : Obligations.GrayFloatSumsNeedNoClamp := by
  intro r R G B h hR hG hB
  obtain ⟨v, hv, v0, hlt⟩ := exists_grayFormula h hR hG hB
  obtain ⟨lo, hi⟩ := rhaz_spec v
  have h1 : (-1 : ℚ) < rhaz v := by linarith
  have h2 : (rhaz v : ℚ) < 256 := by linarith
  have h3 : -1 < rhaz v := by exact_mod_cast h1
  have h4 : rhaz v < 256 := by exact_mod_cast h2
  exact ⟨v, hv, v0, hlt, by omega, by omega, rne_nonneg v0, rne_le_of_lt_add_half (by push_cast; linarith)⟩

/-! ### GRAY.I: the quantised weights (R113, R117 (b)) -/

theorem OnGrid.mul_natCast {q : ℚ} (k : Nat) : OnGrid q → OnGrid (q * k)
  | ⟨n, hn⟩ => ⟨n * k, by rw [hn]; push_cast; ring⟩

/-- A quantised weight is within half a unit and a little of 1024 times the weight's share in the sum. -/
theorem quantFormula_between {r : Regs} {b : Word} {w S : ℚ} (hb : F32.decode b = .fin w) (w0 : 0 ≤ w)
    (ht : ∃ t, fmul (F32.decode b) (F32.ofNat 1024) = .fin t) (hS : sumFormula r = .fin S) (S0 : 0 < S)
    (hw : w / S ≤ 2) :
    0 ≤ quantFormula r b ∧
      1024 * (w / S) - (1 / 2 + 1 / 2 ^ 12 * (w / S) + 1 / 2 ^ 150) ≤ quantFormula r b ∧
      quantFormula r b ≤ 1024 * (w / S) + (1 / 2 + 1 / 2 ^ 12 * (w / S) + 1 / 2 ^ 150) := by
  obtain ⟨t, ht⟩ := ht
  have hmul : fl32 (w * (1024 : Nat)) = .fin t := by rw [← ht, hb]; rfl
  have hw0 : 0 ≤ w * (1024 : Nat) := mul_nonneg w0 (Nat.cast_nonneg _)
  obtain ⟨lo, hi⟩ := fl32_between_of_onGrid ((onGrid_decode hb).mul_natCast 1024) hw0 hmul
  have hexact : w * (1024 : Nat) = 1024 * (w / S) * S := by
    rw [mul_assoc, div_mul_cancel₀ _ S0.ne', mul_comm]; norm_num
  have hlo : (1 - 1 / 2 ^ 24) * (1024 * (w / S)) ≤ t / S := by
    rw [le_div_iff₀ S0, mul_assoc, ← hexact]; exact lo
  have hhi : t / S ≤ (1 + 1 / 2 ^ 24) * (1024 * (w / S)) := by
    rw [div_le_iff₀ S0, mul_assoc, ← hexact]; exact hi
  have hs0 : 0 ≤ w / S := div_nonneg w0 S0.le
  obtain ⟨u, hu, u0, ulo, uhi⟩ :=
    exists_fl32_between (div_nonneg (fl32_nonneg hw0 hmul) S0.le) (by linarith : t / S ≤ 2 ^ 20)
  have hq : quantFormula r b = rhaz u := by rw [quantFormula, ht, hS, fdiv_fin _ S0.ne', hu, F32.val_fin]
  obtain ⟨rlo, rhi⟩ := rhaz_spec u
  have hneg : (-1 : ℚ) < rhaz u := by linarith
  have hneg' : -1 < rhaz u := by exact_mod_cast hneg
  rw [hq]
  exact ⟨by omega, by linarith, by linarith⟩

/-- The three quantised weights (R113): each is 0..1024, and their sum is 1024 or one off. -/
theorem quantFormula_ranges {r : Regs} (h : r.weightsValidI = true) :
    (∀ b ∈ [r.wgtR, r.wgtG, r.wgtB], 0 ≤ quantFormula r b ∧ quantFormula r b ≤ 1024) ∧
      1023 ≤ quantFormula r r.wgtR + quantFormula r r.wgtG + quantFormula r r.wgtB ∧
      quantFormula r r.wgtR + quantFormula r r.wgtG + quantFormula r r.wgtB ≤ 1025 := by
  obtain ⟨hv, ht⟩ := weightsValidI_iff.1 h
  obtain ⟨wr, wg, wb, S, hw⟩ := weightsValid_iff.1 hv
  rw [forall_mem_three] at ht ⊢
  obtain ⟨tr, tg, tb⟩ := ht
  obtain ⟨r0, g0, b0⟩ := hw.shares_nonneg
  obtain ⟨lo, hi⟩ := hw.shares_between
  obtain ⟨qr0, rlo, rhi⟩ := quantFormula_between hw.red hw.red_nonneg tr hw.sumFormula_eq hw.pos (by linarith)
  obtain ⟨qg0, glo, ghi⟩ := quantFormula_between hw.green hw.green_nonneg tg hw.sumFormula_eq hw.pos (by linarith)
  obtain ⟨qb0, blo, bhi⟩ := quantFormula_between hw.blue hw.blue_nonneg tb hw.sumFormula_eq hw.pos (by linarith)
  generalize quantFormula r r.wgtR = qr, quantFormula r r.wgtG = qg, quantFormula r r.wgtB = qb at *
  have below : ∀ n k : Int, (n : ℚ) < k + 1 → n ≤ k := fun n k hlt => Int.lt_add_one_iff.1 (by exact_mod_cast hlt)
  refine ⟨⟨⟨qr0, below _ _ ?_⟩, ⟨qg0, below _ _ ?_⟩, qb0, below _ _ ?_⟩, below _ _ ?_, below _ _ ?_⟩ <;>
    push_cast <;> linarith

/-- GRAY.I's accumulator is at most 255 times the sum of the quantised weights (R117 (b)). -/
theorem accFormula_ranges {r : Regs} (h : r.weightsValidI = true) {R G B : Nat} (hR : R ≤ 255) (hG : G ≤ 255)
    (hB : B ≤ 255) :
    0 ≤ accFormula r R G B ∧ accFormula r R G B ≤ 261375 ∧ accFormula r R G B / 1024 ≤ 255 := by
  obtain ⟨hq, -, hsum⟩ := quantFormula_ranges h
  rw [forall_mem_three] at hq
  obtain ⟨⟨r0, -⟩, ⟨g0, -⟩, b0, -⟩ := hq
  have term : ∀ {k : Nat} {q : Int}, k ≤ 255 → 0 ≤ q → 0 ≤ k * q ∧ k * q ≤ 255 * q := fun hk hq =>
    ⟨mul_nonneg (Int.natCast_nonneg _) hq, mul_le_mul_of_nonneg_right (by exact_mod_cast hk) hq⟩
  have hr := term hR r0
  have hg := term hG g0
  have hb := term hB b0
  rw [accFormula]
  omega

/-- Settles O26: the shares of the weights sum to 1 up to `2^-22`, so the sum of the quantised weights is less than 2 away
from 1024. -/
theorem quantisedWeightsAndSumsStayInRange : Obligations.QuantisedWeightsAndSumsStayInRange := by
  intro r h
  obtain ⟨hq, lo, hi⟩ := quantFormula_ranges h
  exact ⟨hq, by dsimp only; omega, fun R G B hR hG hB => accFormula_ranges h hR hG hB⟩

end Sys2Proof.Machine
end

section
/-! PROOFS. The three GRAY commands (spec/40_grayscale.md, R112, R114, R115): what a completed one leaves, and the corner
cases and examples of their rules. -/

namespace Sys2Proof.Machine

/-! ### What a completed GRAY command leaves -/

theorem completed_completes (st : Stage) (c : Word) (s : State) : s.Completes (completed st c s) c :=
  ⟨rfl, rfl, rfl, rfl, rfl⟩

/-- A completed stage changes no byte outside its destinations. -/
theorem Stage.Sound.read_completed_outside {st : Stage} (h : st.Sound) (c : Word) (s : State) {a : Nat}
    (ha : ∀ b ∈ st.dests, ¬s.regs.inRange b a) : (completed st c s).mem.read a = s.mem.read a := by
  refine Memory.read_writeAll_of_notMem _ _ _ fun w hw hwa => ?_
  obtain ⟨b, hb, hr⟩ := h.writes_range _ _ w hw
  exact ha b hb (hwa ▸ hr)

/-- A GRAY command whose row is ready completes, writes LUM only, and leaves in each pixel's byte the sample that its
formula makes of the pixel's number and its three colours (R61, R62). -/
theorem Row.Describes.grayResult {w : Row} {i : Instr} {valid : Regs → Bool} {y : Regs → Nat → Nat → Nat → Nat → Int}
    (h : w.Describes i (grayStage valid y)) {s : State} (he : s.regs.status.err = false) (hr : w.Ready s) :
    ∃ t, exec i s = .next t ∧ s.Completes t w.word ∧ s.KeepsOutside t (s.regs.inRange .lum) ∧
      ∀ px py, px < s.regs.w → py < s.regs.h → t.mem.read (s.regs.base .lum + py * s.regs.w + px) =
        BitVec.ofInt 8 (y s.regs (py * s.regs.w + px) (colourAt s px py 0) (colourAt s px py 1) (colourAt s px py 2)) := by
  have hs : (grayStage valid y).Sound := stagesOf_sound i _ (by rw [h.stages]; exact List.mem_singleton.2 rfl)
  refine ⟨_, h.completes he hr rfl, completed_completes _ _ _, fun a ha => ?_, fun px py hx hy => ?_⟩
  · exact hs.read_completed_outside _ _ (by simpa [grayStage] using ha)
  · have hbyte := read_plainWrites s.regs s.mem .lum (fun px py => y s.regs (s.regs.index px py)
      (rgbSample s.regs s.mem px py 0) (rgbSample s.regs s.mem px py 1) (rgbSample s.regs s.mem px py 2)) hx hy
    rw [Regs.paddr, Regs.index, ← Nat.add_assoc] at hbyte
    exact hbyte

/-! ### Corner cases and examples -/

/-- A tie goes up (R10). -/
theorem rhaz_natCast_add_half (k : Nat) : rhaz ((k : ℚ) + 1 / 2) = k + 1 := by
  rw [rhaz_eq_iff]
  push_cast
  constructor <;> linarith

/-- A channel adds nothing when its sample or its weight is 0. -/
theorem fmul_eq_zero {k : Nat} {n : ℚ} (h : k = 0 ∨ n = 0) : fmul (F32.ofNat k) (.fin n) = .fin 0 := by
  have h0 : (k : ℚ) * n = 0 := by rcases h with rfl | rfl <;> simp
  rw [F32.ofNat, fmul_fin, h0, fl32_zero]

/-- Black is 0 for any valid weights (R112). -/
theorem grayFormula_black {r : Regs} (h : r.weightsValid = true) : grayFormula r 0 0 0 = .fin 0 := by
  obtain ⟨wr, wg, wb, S, hw⟩ := weightsValid_iff.1 h
  obtain ⟨nr, ng, nb, er, eg, eb, -⟩ := hw.normalised
  rw [grayFormula, er, eg, eb, fmul_eq_zero (.inl rfl), fmul_eq_zero (.inl rfl), fmul_eq_zero (.inl rfl), fadd_fin,
    add_zero, fl32_zero, fadd_fin, add_zero, fl32_zero]

/-- The product of a channel whose weight is 0 does not depend on the sample. -/
theorem fmul_zero_weight {r : Regs} (h : r.weightsValid = true) {b : Word} (hb : F32.decode b = .fin 0) (k : Nat) :
    fmul (F32.ofNat k) (fdiv (F32.decode b) (sumFormula r)) = .fin 0 := by
  obtain ⟨wr, wg, wb, S, hw⟩ := weightsValid_iff.1 h
  rw [hb, hw.sumFormula_eq, fdiv_fin _ hw.pos.ne', zero_div, fl32_zero, fmul_eq_zero (.inr rfl)]

/-- Division by 1 leaves a pattern's value as it is. -/
theorem fdiv_decode_one {b : Word} (h : (F32.decode b).isFinite = true) : fdiv (F32.decode b) (.fin 1) = F32.decode b := by
  obtain ⟨q, hq⟩ := F32.isFinite_iff.1 h
  rw [hq, fdiv_fin _ one_ne_zero, div_one]
  exact (binary32PatternsRoundTrip b (by simp [hq])).2.2 q hq

theorem resetWeights_finite :
    ∀ b ∈ [Regs.reset.wgtR, Regs.reset.wgtG, Regs.reset.wgtB], (F32.decode b).isFinite = true := by
  rw [forall_mem_three]
  decide +kernel

/-- Settles O27: GRAY.A's stage is the row's, its samples are `rhaz` of the sum, and a channel with weight or sample 0 adds
the product 0. -/
theorem grayAWritesTheRoundedFloatSum : Obligations.GrayAWritesTheRoundedFloatSum := by
  refine ⟨rfl, fun s he => ⟨rowGrayA_describes.staticFaults he, fun hr => rowGrayA_describes.grayResult he hr⟩,
    rhaz_natCast_add_half, fun r h => ⟨grayFormula_black h, fun R G B => ⟨fun h0 => ?_, fun h0 => ?_, fun h0 => ?_⟩⟩,
    by decide +kernel, fun b hb => fdiv_decode_one (resetWeights_finite b hb), by decide +kernel⟩
  · simp only [grayFormula, fmul_zero_weight h h0]
  · simp only [grayFormula, fmul_zero_weight h h0]
  · simp only [grayFormula, fmul_zero_weight h h0]

/-- Of white GRAY.I makes 255 exactly when the quantised weights do not fall short of 1024 (R114). -/
theorem accFormula_white_iff {r : Regs} (h : r.weightsValidI = true) : accFormula r 255 255 255 / 1024 = 255 ↔
    1024 ≤ quantFormula r r.wgtR + quantFormula r r.wgtG + quantFormula r r.wgtB := by
  obtain ⟨-, lo, hi⟩ := quantFormula_ranges h
  rw [accFormula]
  omega

/-- Settles O28: GRAY.I's stage is the row's, its samples are the sum over 1024, and the ranges are those of R117. -/
theorem grayIWritesTheTruncatedQuantisedSum : Obligations.GrayIWritesTheTruncatedQuantisedSum :=
  ⟨rfl, fun s he => ⟨rowGrayI_describes.staticFaults he, fun hr => rowGrayI_describes.grayResult he hr⟩,
    fun r h => ⟨fun R G B hR hG hB => accFormula_ranges h hR hG hB, accFormula_white_iff h⟩, by decide +kernel⟩

theorem sat8_of_range {i : Int} (h0 : 0 ≤ i) (h : i ≤ 255) : sat8 i = i := by
  rw [sat8, if_neg (by omega), if_neg (by omega)]

/-- Settles O29: GRAY.V's stage is the row's, with the lane formula below `4·(N div 4)`; the two formulas differ as `rne` and
`rhaz` do. -/
theorem grayVWritesLaneGroupsThenScalarRemainder : Obligations.GrayVWritesLaneGroupsThenScalarRemainder := by
  refine ⟨rfl, fun s he => ⟨rowGrayV_describes.staticFaults he, fun hr => rowGrayV_describes.grayResult he hr⟩,
    fun r R G B h hR hG hB => ?_, by decide +kernel⟩
  obtain ⟨v, hv, -, -, -, -, lo, hi⟩ := grayFloatSumsNeedNoClamp r R G B h hR hG hB
  obtain ⟨htie, hsame⟩ := rneDiffersFromRhazOnlyOnEvenTies v
  simp only [hv, F32.val_fin]
  refine ⟨sat8_of_range lo hi, ?_⟩
  by_cases ht : v - (⌊v⌋ : ℚ) = 1 / 2 ∧ ⌊v⌋ % 2 = 0
  · exact .inl ⟨htie ht, ht⟩
  · exact .inr ⟨hsame ht, ht⟩

end Sys2Proof.Machine
end

section
/-! PROOFS. A completed stage command is idempotent (spec/95_test_vectors.md S7, R118, R141, R167): a stage reads its sources
only, its destinations share no byte with them, and the same writes made twice leave what they leave once. -/

namespace Sys2Proof.Machine

/-! ### The same writes made twice -/

/-- A byte that some write names reads after the writes as they say, whatever it was before. -/
theorem Memory.read_writeAll_congr (m m' : Memory) {ws : List Host.Cell} {a : Nat} (h : ∃ c ∈ ws, c.1 = a) :
    (m.writeAll ws).read a = (m'.writeAll ws).read a := by
  induction ws generalizing m m' with
  | nil => simp at h
  | cons c ws ih =>
    rw [Memory.writeAll_cons, Memory.writeAll_cons]
    by_cases hrest : ∃ d ∈ ws, d.1 = a
    · exact ih _ _ hrest
    · have hc : c.1 = a := by
        obtain ⟨d, hd, hda⟩ := h
        rcases List.mem_cons.1 hd with rfl | hd
        · exact hda
        · exact absurd ⟨d, hd, hda⟩ hrest
      rw [Memory.read_writeAll_of_notMem _ _ _ fun d hd hda => hrest ⟨d, hd, hda⟩,
        Memory.read_writeAll_of_notMem _ _ _ fun d hd hda => hrest ⟨d, hd, hda⟩, Memory.read_write, Memory.read_write,
        if_pos hc, if_pos hc]

theorem Memory.read_writeAll_twice (m : Memory) (ws : List Host.Cell) (a : Nat) :
    ((m.writeAll ws).writeAll ws).read a = (m.writeAll ws).read a := by
  by_cases h : ∃ c ∈ ws, c.1 = a
  · exact Memory.read_writeAll_congr _ _ h
  · exact Memory.read_writeAll_of_notMem _ _ _ fun c hc hca => h ⟨c, hc, hca⟩

/-! ### A stage reads its sources only (R70, R79) -/

/-- The two memories agree on the range of a buffer. -/
def Regs.AgreeOn (r : Regs) (m m' : Memory) (b : Buffer) : Prop := ∀ a, r.inRange b a → m.read a = m'.read a

section
variable {r : Regs} {m m' : Memory} {b : Buffer} {x y : Nat}

theorem Regs.AgreeOn.plainSample_eq (h : r.AgreeOn m m' b) (hb : r.len b = r.plainLen) (hx : x < r.w) (hy : y < r.h) :
    plainSample r m b x y = plainSample r m' b x y :=
  congrArg BitVec.toNat (h _ (Regs.paddr_range hb hx hy))

theorem Regs.AgreeOn.rgbSample_eq {c : Nat} (h : r.AgreeOn m m' .rgb) (hx : x < r.w) (hy : y < r.h) (hc : c < 3) :
    rgbSample r m x y c = rgbSample r m' x y c :=
  congrArg BitVec.toNat (h _ (Regs.caddr_range hx hy hc))

theorem Regs.AgreeOn.wideSample_eq (h : r.AgreeOn m m' b) (hb : r.len b = r.wideLen) (hx : x < r.w + 2)
    (hy : y < r.h + 2) : wideSample r m b x y = wideSample r m' b x y := by
  obtain ⟨lo, hi⟩ := Regs.waddr_range hb hx hy
  rw [wideSample, wideSample, Memory.read16, Memory.read16, h _ ⟨lo, by omega⟩, h _ ⟨by omega, hi⟩]

theorem Regs.AgreeOn.interior_eq (h : r.AgreeOn m m' b) (hb : r.len b = r.wideLen) (hx : x < r.w) (hy : y < r.h) :
    wideSample r m b (x + 1) (y + 1) = wideSample r m' b (x + 1) (y + 1) :=
  h.wideSample_eq hb (by omega) (by omega)

/-- The taps outside the raster are absent, so those that are read lie in LUM (R131). -/
theorem Regs.AgreeOn.accP_eq (h : r.AgreeOn m m' .lum) (K : List Int) (x y : Nat) :
    accP r m K x y = accP r m' K x y := by
  unfold accP
  congr 1
  funext dx dy
  dsimp only
  split
  case isTrue hin => rw [h.plainSample_eq rfl (by omega) (by omega)]
  case isFalse => rfl

theorem tapOffsets_near {t : (Int × Int) × Int} {K : List Int} (h : t ∈ tapOffsets.zip K) :
    -1 ≤ t.1.1 ∧ t.1.1 ≤ 1 ∧ -1 ≤ t.1.2 ∧ t.1.2 ≤ 1 :=
  (by decide : ∀ p ∈ tapOffsets, -1 ≤ p.1 ∧ p.1 ≤ 1 ∧ -1 ≤ p.2 ∧ p.2 ≤ 1) _ (List.of_mem_zip h).1

/-- All taps of an interior pixel lie in the widened raster (R136). -/
theorem Regs.AgreeOn.accW_eq (h : r.AgreeOn m m' .wlum) (K : List Int) (hx : x < r.w) (hy : y < r.h) :
    accW r m K x y = accW r m' K x y := by
  unfold accW tapSum
  congr 1
  refine List.map_congr_left fun t ht => ?_
  have := tapOffsets_near ht
  dsimp only
  rw [h.wideSample_eq rfl (by omega) (by omega)]

end

/-- Two lists of samples that agree on the raster make the same writes. -/
theorem plainWrites_congr {r : Regs} {b : Buffer} {f g : Nat → Nat → Int} (h : ∀ x y, x < r.w → y < r.h → f x y = g x y) :
    plainWrites r b f = plainWrites r b g :=
  List.map_congr_left fun p hp => by
    obtain ⟨hx, hy⟩ := Regs.mem_pixels.1 hp
    rw [h _ _ hx hy]

theorem wideWrites_congr {r : Regs} {b : Buffer} {f g : Nat → Nat → Int} (h : ∀ x y, x < r.w → y < r.h → f x y = g x y) :
    wideWrites r b f = wideWrites r b g := by
  unfold wideWrites
  refine List.flatMap_congr fun p hp => ?_
  obtain ⟨hx, hy⟩ := Regs.mem_pixels.1 hp
  rw [h _ _ hx hy]

theorem all_grid_congr {w h : Nat} {f g : Nat × Nat → Bool} (hfg : ∀ x y, x < w → y < h → f (x, y) = g (x, y)) :
    (grid w h).all f = (grid w h).all g := by
  rw [Bool.eq_iff_iff, List.all_eq_true, List.all_eq_true]
  refine forall₂_congr fun p hp => ?_
  obtain ⟨hx, hy⟩ := mem_grid.1 hp
  rw [hfg _ _ hx hy]

/-- Memories that agree on the stage's sources give the same data check and the same writes, and no source is a
destination. -/
structure Stage.ReadsSources (st : Stage) : Prop where
  writes_eq : ∀ {r m m'}, (∀ b ∈ st.sources, r.AgreeOn m m' b) → st.writes r m = st.writes r m'
  dataOk_eq : ∀ {r m m'}, (∀ b ∈ st.sources, r.AgreeOn m m' b) → st.dataOk r m = st.dataOk r m'
  disjoint  : ∀ b ∈ st.sources, b ∉ st.dests

theorem grayStage_readsSources (valid : Regs → Bool) (y : Regs → Nat → Nat → Nat → Nat → Int) :
    (grayStage valid y).ReadsSources where
  writes_eq h := by
    have hrgb := h .rgb (List.mem_singleton.2 rfl)
    simp only [grayStage]
    exact plainWrites_congr fun px py hx hy => by
      rw [hrgb.rgbSample_eq hx hy (by decide), hrgb.rgbSample_eq hx hy (by decide), hrgb.rgbSample_eq hx hy (by decide)]
  dataOk_eq _ := rfl
  disjoint := by simp [grayStage]

theorem stageEdgeA_readsSources : stageEdgeA.ReadsSources where
  writes_eq h := by
    have hlum := h .lum (by decide)
    simp only [stageEdgeA, hlum.accP_eq]
  dataOk_eq _ := rfl
  disjoint := by decide

theorem stageBlurA_readsSources : stageBlurA.ReadsSources where
  writes_eq h := by
    have hlum := h .lum (by decide)
    simp only [stageBlurA, hlum.accP_eq]
  dataOk_eq _ := rfl
  disjoint := by decide

theorem stageConvI_readsSources : stageConvI.ReadsSources where
  writes_eq h := by
    have hlum := h .lum (by decide)
    simp only [stageConvI, hlum.accP_eq]
  dataOk_eq _ := rfl
  disjoint := by decide

theorem stageConvV_readsSources : stageConvV.ReadsSources where
  writes_eq h := by
    have hwlum := h .wlum (by decide)
    exact congrArg₂ (· ++ ·) (wideWrites_congr fun x y hx hy => by rw [hwlum.accW_eq _ hx hy])
      (wideWrites_congr fun x y hx hy => by rw [hwlum.accW_eq _ hx hy])
  dataOk_eq h := all_grid_congr fun X Y hX hY => by
    rw [(h .wlum (by decide)).wideSample_eq rfl hX hY]
  disjoint := by decide

theorem stagePadV_readsSources : stagePadV.ReadsSources where
  writes_eq h := by
    have hlum := h .lum (by decide)
    simp only [stagePadV]
    exact wideWrites_congr fun x y hx hy => by rw [hlum.plainSample_eq rfl hx hy]
  dataOk_eq _ := rfl
  disjoint := by decide

theorem combPlainStage_readsSources (z : Nat → Nat → Nat → Int) : (combPlainStage z).ReadsSources where
  writes_eq h := by
    have hlum := h .lum (by simp [combPlainStage])
    have hedge := h .edge (by simp [combPlainStage])
    have hblur := h .blur (by simp [combPlainStage])
    simp only [combPlainStage]
    exact plainWrites_congr fun x y hx hy => by
      rw [hlum.plainSample_eq rfl hx hy, hedge.plainSample_eq rfl hx hy, hblur.plainSample_eq rfl hx hy]
  dataOk_eq _ := rfl
  disjoint := by simp [combPlainStage]

theorem stageCombV_readsSources : stageCombV.ReadsSources where
  writes_eq h := by
    have hlum := h .wlum (by decide)
    have hedge := h .wedge (by decide)
    have hblur := h .wblur (by decide)
    simp only [stageCombV]
    exact plainWrites_congr fun x y hx hy => by
      rw [hlum.interior_eq rfl hx hy, hedge.interior_eq rfl hx hy, hblur.interior_eq rfl hx hy]
  dataOk_eq h := all_grid_congr fun x y hx hy => by
    rw [(h .wlum (by decide)).interior_eq rfl hx hy, (h .wedge (by decide)).interior_eq rfl hx hy,
      (h .wblur (by decide)).interior_eq rfl hx hy]
  disjoint := by decide

theorem stagesOf_readsSources (i : Instr) : ∀ st ∈ stagesOf i, st.ReadsSources := by
  cases i <;>
    simp [stagesOf, stageGrayA, stageGrayI, stageGrayV, stageCombA, stageCombI, grayStage_readsSources,
      combPlainStage_readsSources, stageEdgeA_readsSources, stageBlurA_readsSources, stageConvI_readsSources,
      stageConvV_readsSources, stagePadV_readsSources, stageCombV_readsSources]

/-! ### Issuing a completed command again -/

/-- A completed stage has left its sources alone: no destination meets them (R196). -/
theorem agreeOn_sources_of_completed {st : Stage} (hs : st.Sound) (hr : st.ReadsSources) {s : State}
    (hf : st.staticFault s = none) (c : Word) : ∀ b ∈ st.sources, s.regs.AgreeOn (completed st c s).mem s.mem b := by
  obtain ⟨-, -, -, -, hover, -⟩ := (st.staticFault_eq_none s).1 hf
  intro b hb a ha
  refine hs.read_completed_outside c s fun d hd hda => ?_
  have hne : b ≠ d := fun h => hr.disjoint b hb (h ▸ hd)
  exact (st.overlapOk_iff s.regs).1 hover d hd b (List.mem_append_left _ hb) hne a ⟨hda, ha⟩

/-- What a completed stage command has done: no check failed, and its writes were made. -/
theorem completed_of_done {i : Instr} {st : Stage} (hi : stagesOf i = [st]) {s t : State}
    (he : s.regs.status.err = false) (hx : exec i s = .next t) (hd : t.regs.status.done = true) :
    st.staticFault s = none ∧ st.dataOk s.regs s.mem = true ∧ t = completed st (encode i) s := by
  obtain ⟨hfault, hrange, hdone⟩ := exec_single hi he
  cases hf : st.staticFault s with
  | some f =>
    obtain rfl := Host.Outcome.next.inj (hx.symm.trans (hfault f hf))
    cases hd
  | none =>
    cases hok : st.dataOk s.regs s.mem with
    | false =>
      obtain rfl := Host.Outcome.next.inj (hx.symm.trans (hrange hf hok))
      cases hd
    | true => exact ⟨rfl, rfl, Host.Outcome.next.inj (hx.symm.trans (hdone hf hok))⟩

theorem exists_stage_of_rowOf {i : Instr} {w : Row} (h : rowOf i = some w) : ∃ st, stagesOf i = [st] := by
  cases i with
  | pipeA | pipeI | pipeV => cases h
  | _ => exact ⟨_, rfl⟩

/-- Settles O48: the checks and the writes of the second run are those of the first, since the sources read as before. -/
theorem stageCommandsAreIdempotent : Obligations.StageCommandsAreIdempotent := by
  intro i w s t hw he hx hd
  obtain ⟨st, hi⟩ := exists_stage_of_rowOf hw
  have hs : st.Sound := stagesOf_sound i st (by rw [hi]; exact List.mem_singleton.2 rfl)
  have hr : st.ReadsSources := stagesOf_readsSources i st (by rw [hi]; exact List.mem_singleton.2 rfl)
  obtain ⟨hf, hok, rfl⟩ := completed_of_done hi he hx hd
  have hagree := agreeOn_sources_of_completed hs hr hf (encode i)
  have hregs : (completed st (encode i) s).regs =
    { s.regs with cmd := encode i, status := { s.regs.status with done := true } } := rfl
  have hf' : st.staticFault (completed st (encode i) s) = none := (hs.staticFault_congr hregs rfl).trans hf
  have hok' : st.dataOk (completed st (encode i) s).regs (completed st (encode i) s).mem = true := by
    rw [hregs, hs.dataOk_congr, hr.dataOk_eq hagree, hok]
  have hwrites : st.writes (completed st (encode i) s).regs (completed st (encode i) s).mem = st.writes s.regs s.mem := by
    rw [hregs, hs.writes_congr, hr.writes_eq hagree]
  refine ⟨_, (exec_single (s := completed st (encode i) s) hi he).2.2 hf' hok', rfl, fun a => ?_⟩
  rw [completed, hwrites]
  exact Memory.read_writeAll_twice s.mem _ a

end Sys2Proof.Machine
end

section
/-! PROOFS. The 3×3 convolutions (spec/41_convolver.md, R130 to R141): the sums around a pixel, what the four commands
leave, and that CONV.V on the zero-bordered widening is CONV.I. -/

namespace Sys2Proof.Machine

/-! ### What a command's writes leave -/

theorem natCast_toNat_ofInt {n : Nat} {i : Int} (h0 : 0 ≤ i) (h : i < 2 ^ n) : ((BitVec.ofInt n i).toNat : Int) = i := by
  rw [BitVec.toNat_ofInt, Int.toNat_of_nonneg (Int.emod_nonneg _ (by positivity))]
  exact Int.emod_eq_of_lt h0 (by exact_mod_cast h)

/-- A plain raster's writes store samples 0..255 as they are (R61). -/
theorem byte_plainWrites (r : Regs) (m : Memory) (b : Buffer) {f : Nat → Nat → Int} {x y : Nat} (hx : x < r.w)
    (hy : y < r.h) (h0 : 0 ≤ f x y) (h : f x y ≤ 255) :
    (((m.writeAll (plainWrites r b f)).read (r.base b + y * r.w + x)).toNat : Int) = f x y := by
  have hbyte := read_plainWrites r m b f hx hy
  rw [Regs.paddr, Regs.index, ← Nat.add_assoc] at hbyte
  rw [hbyte, natCast_toNat_ofInt h0 (by omega)]

/-- A widened raster's writes store samples of 16 bits as they are (R63). -/
theorem half_wideWrites (r : Regs) (m : Memory) (b : Buffer) {f : Nat → Nat → Int} {x y : Nat} (hx : x < r.w)
    (hy : y < r.h) (h0 : 0 ≤ f x y) (h : f x y ≤ 65535) :
    ((m.writeAll (wideWrites r b f)).read16 (r.waddr b (x + 1) (y + 1)) : Int) = f x y := by
  rw [read16_wideWrites r m b f hx hy, natCast_toNat_ofInt h0 (by omega)]

theorem completed_keepsOutside {st : Stage} {s : State} {P : Nat → Prop}
    (h : ∀ w ∈ st.writes s.regs s.mem, P w.1) (c : Word) : s.KeepsOutside (completed st c s) P := fun _ ha =>
  Memory.read_writeAll_of_notMem _ _ _ fun w hw hwa => ha (hwa ▸ h w hw)

theorem dataFaulted_keepsOutside {st : Stage} {s : State} {P : Nat → Prop}
    (h : ∀ w ∈ st.writes s.regs s.mem, P w.1) (c : Word) : s.KeepsOutside (dataFaulted st c s) P := fun _ ha =>
  Memory.read_writeAll_of_notMem _ _ _ fun w hw hwa => by
    obtain ⟨v, hv, rfl⟩ := List.mem_map.1 hw
    exact ha (hwa ▸ h v hv)

theorem dataFaulted_rangeFaults (st : Stage) (c : Word) (s : State) : s.RangeFaults (dataFaulted st c s) c st.code :=
  ⟨rfl, rfl, rfl, rfl, rfl⟩

theorem Memory.read_writeAll_append_left (m : Memory) {ws us : List Host.Cell} {a : Nat} (h : ∀ c ∈ us, c.1 ≠ a) :
    (m.writeAll (ws ++ us)).read a = (m.writeAll ws).read a := by
  rw [Memory.writeAll_append, Memory.read_writeAll_of_notMem _ _ _ h]

theorem State.Completes.byteAt_eq {s t : State} {c : Word} (h : s.Completes t c) (b : Buffer) (x y : Nat) :
    byteAt t b x y = (t.mem.read (s.regs.base b + y * s.regs.w + x)).toNat := by
  rw [byteAt, h.1, Regs.base_cmdStatus, Regs.w_cmdStatus]

theorem State.Completes.waddr_eq {s t : State} {c : Word} (h : s.Completes t c) (b : Buffer) (X Y : Nat) :
    t.regs.waddr b X Y = s.regs.waddr b X Y := by
  rw [Regs.waddr, h.1, Regs.base_cmdStatus, Regs.w_cmdStatus, Regs.waddr]

theorem State.Completes.wideAt_eq {s t : State} {c : Word} (h : s.Completes t c) (b : Buffer) (x y : Nat) :
    wideAt t b x y = t.mem.read16 (s.regs.waddr b (x + 1) (y + 1)) :=
  congrArg t.mem.read16 (h.waddr_eq b (x + 1) (y + 1))

/-- A command that writes one plain raster, samples 0..255, completes where its checks pass, writes that raster only, and
leaves each sample in its pixel's byte. -/
theorem Row.Describes.plainResult {w : Row} {i : Instr} {st : Stage} (h : w.Describes i st) {s : State}
    (he : s.regs.status.err = false) (hr : w.Ready s) (hd : st.dataOk s.regs s.mem = true) {b : Buffer}
    {f : Nat → Nat → Int} (hwrites : st.writes s.regs s.mem = plainWrites s.regs b f) (hb : s.regs.len b = s.regs.plainLen)
    (hf : ∀ x y, 0 ≤ f x y ∧ f x y ≤ 255) :
    ∃ t, exec i s = .next t ∧ s.Completes t w.word ∧ s.KeepsOutside t (s.regs.inRange b) ∧
      ∀ x y, x < s.regs.w → y < s.regs.h →
        ((t.mem.read (s.regs.base b + y * s.regs.w + x)).toNat : Int) = f x y := by
  refine ⟨_, h.completes he hr hd, completed_completes _ _ _,
    completed_keepsOutside (fun c hc => mem_plainWrites_range hb (hwrites ▸ hc)) _, fun x y hx hy => ?_⟩
  rw [completed, hwrites]
  exact byte_plainWrites s.regs s.mem b hx hy (hf x y).1 (hf x y).2

/-- A row that is ready stays so when a command has completed: CMD and STATUS are no operands. -/
theorem Row.Describes.ready_of_completes {w : Row} {i : Instr} {st : Stage} (h : w.Describes i st) {s t : State}
    {c : Word} (hc : s.Completes t c) (hr : w.Ready s) : w.Ready t := by
  obtain ⟨hregs, hholes, -⟩ := hc
  have hs : st.Sound := stagesOf_sound i st (by rw [h.stages]; exact List.mem_singleton.2 rfl)
  rw [h.ready_iff, hs.staticFault_congr hregs hholes]
  exact (h.ready_iff s).1 hr

/-! ### The sums around a pixel (R130, R131, R136) -/

/-- Two rasters agree at a position and its eight neighbours. -/
def AgreeNear (f g : Int → Int → Int) (x y : Int) : Prop :=
  ∀ u v, x - 1 ≤ u → u ≤ x + 1 → y - 1 ≤ v → v ≤ y + 1 → f u v = g u v

section
variable {f g : Int → Int → Int} {x y k M : Int}

theorem AgreeNear.edgeSum_eq (h : AgreeNear f g x y) : edgeSum f x y = edgeSum g x y := by
  unfold AgreeNear at h
  simp (disch := omega) only [edgeSum, h]

theorem AgreeNear.blurSum_eq (h : AgreeNear f g x y) : blurSum f x y = blurSum g x y := by
  unfold AgreeNear at h
  simp (disch := omega) only [blurSum, h]

/-- The edge weights sum to 0 (R141). -/
theorem AgreeNear.edgeSum_eq_zero (h : AgreeNear f (fun _ _ => k) x y) : edgeSum f x y = 0 := by
  rw [h.edgeSum_eq, edgeSum]
  ring

/-- The blur weights sum to 16 (R141). -/
theorem AgreeNear.blurSum_eq_mul (h : AgreeNear f (fun _ _ => k) x y) : blurSum f x y = 16 * k := by
  rw [h.blurSum_eq, blurSum]
  ring

/-- The edge weights of either sign sum to 4, so a quarter of the magnitude is a sample again (R140). -/
theorem edgeSum_natAbs_le (hf : ∀ u v, 0 ≤ f u v ∧ f u v ≤ M) (x y : Int) : (edgeSum f x y).natAbs ≤ 4 * M := by
  have up := hf x (y - 1); have left := hf (x - 1) y; have right := hf (x + 1) y; have down := hf x (y + 1)
  have mid := hf x y
  unfold edgeSum; omega

/-- The blur weights sum to 16, so a sixteenth of the sum is a sample again (R140). -/
theorem blurSum_between (hf : ∀ u v, 0 ≤ f u v ∧ f u v ≤ M) (x y : Int) :
    0 ≤ blurSum f x y ∧ blurSum f x y ≤ 16 * M := by
  have upLeft := hf (x - 1) (y - 1); have up := hf x (y - 1); have upRight := hf (x + 1) (y - 1)
  have left := hf (x - 1) y; have mid := hf x y; have right := hf (x + 1) y
  have downLeft := hf (x - 1) (y + 1); have down := hf x (y + 1); have downRight := hf (x + 1) (y + 1)
  unfold blurSum; omega

end

theorem Memory.read16_le (m : Memory) (a : Nat) : m.read16 a ≤ 65535 := by
  have lo := (m.read a).isLt
  have hi := (m.read (a + 1)).isLt
  unfold Memory.read16; omega

/-- A tap of WLUM is a 16-bit sample (R63). -/
theorem wlumAt_range (s : State) (x y : Int) : 0 ≤ wlumAt s x y ∧ wlumAt s x y ≤ 65535 :=
  ⟨Int.natCast_nonneg _, by unfold wlumAt; exact_mod_cast s.mem.read16_le _⟩

theorem lumAt_inside (s : State) {x y : Nat} (hx : x < s.regs.w) (hy : y < s.regs.h) : lumAt s x y = byteAt s .lum x y :=
  if_pos ⟨by omega, by omega, by omega, by omega⟩

theorem wlumAt_inside (s : State) (x y : Nat) : wlumAt s x y = wideAt s .wlum x y := rfl

/-! ### The responses (R132 to R134) -/

theorem edgeRound_eq (a : Int) : edgeRound a = (a.natAbs + 2) / 4 := by
  have h := (rhazOfQuartersAndSixteenths.2 a.natAbs).1
  rw [edgeRound, h, Nat.shiftRight_eq_div_pow]
  norm_cast

theorem blurRound_eq {a : Int} (h0 : 0 ≤ a) : blurRound a = (a + 8) / 16 := by
  lift a to Nat using h0
  have h := (rhazOfQuartersAndSixteenths.2 a).2
  rw [blurRound, Int.cast_natCast, h, Nat.shiftRight_eq_div_pow]
  norm_cast

theorem edgeTrunc_eq (a : Int) : edgeTrunc a = a.natAbs / 4 := rfl

theorem blurTrunc_eq (a : Int) : blurTrunc a = a / 16 := rfl

/-! ### A constant raster (R132, R133, R139) -/

/-- 1 for a position of `0 .. n-1`, 0 beside it. -/
def inside (n : Nat) (u : Int) : Int := if 0 ≤ u ∧ u < n then 1 else 0

theorem inside_succ (n x : Nat) : inside n ((x : Int) + 1) = if x + 1 < n then 1 else 0 := if_congr (by omega) rfl rfl

section
variable {n x : Nat} (hx : x < n)
include hx

theorem inside_self : inside n x = 1 := if_pos (by omega)

theorem inside_pred : inside n ((x : Int) - 1) = if 0 < x then 1 else 0 := if_congr (by omega) rfl rfl

theorem reach_eq_inside : reach n x = inside n ((x : Int) - 1) + 2 * inside n x + inside n ((x : Int) + 1) := by
  rw [reach, inside_pred hx, inside_self hx, inside_succ]
  ring

end

theorem crossTaps_eq_inside {r : Regs} {x y : Nat} (hx : x < r.w) (hy : y < r.h) : r.crossTaps x y =
    inside r.w ((x : Int) - 1) + inside r.w ((x : Int) + 1) + inside r.h ((y : Int) - 1) + inside r.h ((y : Int) + 1) := by
  rw [Regs.crossTaps, inside_pred hx, inside_succ, inside_pred hy, inside_succ]

/-- On a constant raster a tap is the constant where both its coordinates are inside, else absent. -/
theorem ConstLum.lumAt_eq {s : State} {k : Nat} (h : ConstLum s k) (u v : Int) :
    lumAt s u v = inside s.regs.w u * inside s.regs.h v * k := by
  unfold lumAt inside
  split
  case isTrue hin =>
    rw [h _ _ (by omega) (by omega), if_pos (by omega), if_pos (by omega)]
    ring
  case isFalse hout =>
    by_cases hu : 0 ≤ u ∧ u < s.regs.w
    · rw [if_neg (c := 0 ≤ v ∧ _) (by omega)]; ring
    · rw [if_neg (c := 0 ≤ u ∧ _) hu]; ring

theorem ConstLum.edgeSum_eq {s : State} {k x y : Nat} (h : ConstLum s k) (hx : x < s.regs.w) (hy : y < s.regs.h) :
    edgeSum (lumAt s) x y = (s.regs.crossTaps x y - 4) * k := by
  simp only [edgeSum, h.lumAt_eq, crossTaps_eq_inside hx hy, inside_self hx, inside_self hy]
  ring

/-- The blur kernel is the product of `1 2 1` with itself, so its in-bounds weights multiply (R139). -/
theorem ConstLum.blurSum_eq {s : State} {k x y : Nat} (h : ConstLum s k) (hx : x < s.regs.w) (hy : y < s.regs.h) :
    blurSum (lumAt s) x y = reach s.regs.w x * reach s.regs.h y * k := by
  simp only [blurSum, h.lumAt_eq, reach_eq_inside hx, reach_eq_inside hy]
  ring

/-! ### EDGE.A and BLUR.A -/

/-- Settles O30: EDGE.A's stage is the row's, and its samples are `rhaz` of a quarter of the magnitude (R10). -/
theorem edgeAWritesTheRoundedEdgeMagnitude : Obligations.EdgeAWritesTheRoundedEdgeMagnitude := by
  refine ⟨rfl, edgeRound_eq, fun s k x y h hx hy => h.edgeSum_eq hx hy, by decide, edgeRound_eq 270,
    fun s he => ⟨rowEdgeA_describes.staticFaults he, fun hr => ?_⟩⟩
  have hrange (x y : Int) := edgeSum_range (lumAt_range s) x y
  have hwrites : stageEdgeA.writes s.regs s.mem = plainWrites s.regs .edge fun x y => edgeRound (edgeSum (lumAt s) x y) := by
    simp only [stageEdgeA, accP_edge]
  obtain ⟨t, hx, hc, hk, hread⟩ := rowEdgeA_describes.plainResult he hr rfl hwrites rfl fun x y => by
    have := hrange x y
    rw [edgeRound_eq]; omega
  refine ⟨t, hx, hc, hk, fun x y hx hy => ⟨(hrange x y).1, (hrange x y).2, ?_⟩⟩
  have hbyte := (hread x y hx hy).trans (edgeRound_eq _)
  omega

/-- Settles O31: BLUR.A's stage is the row's, and its samples are `rhaz` of a sixteenth of the sum (R10). -/
theorem blurAWritesTheRoundedBlur : Obligations.BlurAWritesTheRoundedBlur := by
  refine ⟨rfl, fun a h0 => blurRound_eq h0, fun s k x y h hx hy => h.blurSum_eq hx hy, blurRound_eq (by decide),
    blurRound_eq (by decide), blurRound_eq (by decide), blurRound_eq (by decide),
    fun s he => ⟨rowBlurA_describes.staticFaults he, fun hr => ?_⟩⟩
  have hrange (x y : Int) := blurSum_range (lumAt_range s) x y
  have hwrites : stageBlurA.writes s.regs s.mem = plainWrites s.regs .blur fun x y => blurRound (blurSum (lumAt s) x y) := by
    simp only [stageBlurA, accP_blur]
  obtain ⟨t, hx, hc, hk, hread⟩ := rowBlurA_describes.plainResult he hr rfl hwrites rfl fun x y => by
    have := hrange x y
    rw [blurRound_eq this.1]; omega
  exact ⟨t, hx, hc, hk, fun x y hx hy =>
    ⟨(hrange x y).1, (hrange x y).2, (hread x y hx hy).trans (blurRound_eq (hrange x y).1)⟩⟩

/-! ### CONV.I -/

theorem stageConvI_writes (s : State) : stageConvI.writes s.regs s.mem =
    plainWrites s.regs .edge (fun x y => edgeTrunc (edgeSum (lumAt s) x y)) ++
      plainWrites s.regs .blur (fun x y => blurTrunc (blurSum (lumAt s) x y)) := by
  simp only [stageConvI, accP_edge, accP_blur]

theorem convI_result {s : State} (he : s.regs.status.err = false) (hr : rowConvI.Ready s) :
    ∃ t, exec .convI s = .next t ∧ s.Completes t 0x00000014#32 ∧
      s.KeepsOutside t (fun a => s.regs.inRange .edge a ∨ s.regs.inRange .blur a) ∧
      ∀ x y : Nat, x < s.regs.w → y < s.regs.h →
        (t.mem.read (s.regs.base .edge + y * s.regs.w + x)).toNat = (edgeSum (lumAt s) x y).natAbs / 4 ∧
        ((t.mem.read (s.regs.base .blur + y * s.regs.w + x)).toNat : Int) = blurSum (lumAt s) x y / 16 := by
  refine ⟨_, rowConvI_describes.completes he hr rfl, completed_completes _ _ _, completed_keepsOutside (fun c hc =>
    (List.mem_append.1 hc).imp (mem_plainWrites_range rfl) (mem_plainWrites_range rfl)) _, fun x y hx hy => ?_⟩
  obtain ⟨-, -, -, -, hapart, -⟩ := hr
  have hedge := edgeSum_range (lumAt_range s) x y
  have hblur := blurSum_range (lumAt_range s) x y
  have hin : s.regs.inRange .edge (s.regs.base .edge + y * s.regs.w + x) := by
    rw [Nat.add_assoc]; exact Regs.paddr_range rfl hx hy
  rw [completed, stageConvI_writes]
  constructor
  · rw [Memory.read_writeAll_append_left _ fun c hc hca =>
      hapart (.edge, .blur) (by decide) c.1 ⟨hca ▸ hin, mem_plainWrites_range rfl hc⟩]
    exact Int.ofNat_inj.1 (byte_plainWrites s.regs s.mem .edge hx hy (by rw [edgeTrunc_eq]; omega)
      (by rw [edgeTrunc_eq]; omega))
  · rw [Memory.writeAll_append]
    exact byte_plainWrites s.regs _ .blur hx hy (by rw [blurTrunc_eq]; omega) (by rw [blurTrunc_eq]; omega)

/-- Settles O32: CONV.I's stage is the row's, its destinations do not meet (R196), and truncation is one below rounding
from a half on. -/
theorem convIWritesBothTruncatedResponses : Obligations.ConvIWritesBothTruncatedResponses := by
  refine ⟨rfl, fun a => ⟨?_, ?_, fun h0 => ?_⟩, fun s hw hh hs => ?_, by decide,
    fun s he => ⟨rowConvI_describes.staticFaults he, convI_result he⟩⟩
  · exact Int.natAbs_tdiv a 4
  · rw [edgeTrunc_eq, edgeRound_eq]; split <;> omega
  · rw [blurTrunc_eq, blurRound_eq h0]; split <;> omega
  · have hedge := hs.edgeSum_eq (x := 0) (y := 0) (by omega) (by omega)
    have hblur := hs.blurSum_eq (x := 0) (y := 0) (by omega) (by omega)
    rw [Regs.crossTaps, hw, hh] at hedge
    rw [hw, hh] at hblur
    exact ⟨congrArg (fun a : Int => a.natAbs / 4) hedge, congrArg (fun a : Int => a / 16) hblur⟩

/-! ### CONV.V -/

theorem stageConvV_writes_interior {r : Regs} {m : Memory} {c : Host.Cell} (hc : c ∈ stageConvV.writes r m) :
    r.interiorByte .wedge c.1 ∨ r.interiorByte .wblur c.1 :=
  (List.mem_append.1 hc).imp mem_wideWrites_addr mem_wideWrites_addr

theorem stageConvV_writes (s : State) : stageConvV.writes s.regs s.mem =
    wideWrites s.regs .wedge (fun x y => edgeTrunc (edgeSum (wlumAt s) x y)) ++
      wideWrites s.regs .wblur (fun x y => blurTrunc (blurSum (wlumAt s) x y)) := by
  simp only [stageConvV, accW_edge, accW_blur]

theorem convV_result {s : State} (he : s.regs.status.err = false) (hr : rowConvV.Ready s) (hsmall : WlumSmall s) :
    ∃ t, exec .convV s = .next t ∧ s.Completes t 0x00000024#32 ∧
      s.KeepsOutside t (fun a => s.regs.interiorByte .wedge a ∨ s.regs.interiorByte .wblur a) ∧
      ∀ x y : Nat, x < s.regs.w → y < s.regs.h →
        t.mem.read16 (s.regs.waddr .wedge (x + 1) (y + 1)) = (edgeSum (wlumAt s) x y).natAbs / 4 ∧
        (t.mem.read16 (s.regs.waddr .wblur (x + 1) (y + 1)) : Int) = blurSum (wlumAt s) x y / 16 := by
  refine ⟨_, rowConvV_describes.completes he hr ((wlumSmall_iff s).1 hsmall), completed_completes _ _ _,
    completed_keepsOutside (fun c hc => stageConvV_writes_interior hc) _, fun x y hx hy => ?_⟩
  obtain ⟨-, -, -, -, hapart, -⟩ := hr
  have hedge := edgeSum_natAbs_le (wlumAt_range s) x y
  have hblur := blurSum_between (wlumAt_range s) x y
  obtain ⟨lo, hi⟩ := Regs.waddr_range (r := s.regs) (b := .wedge) rfl (X := x + 1) (Y := y + 1) (by omega) (by omega)
  have hout {f : Nat → Nat → Int} {a : Nat} (ha : s.regs.inRange .wedge a) : ∀ c ∈ wideWrites s.regs .wblur f, c.1 ≠ a :=
    fun c hc hca => hapart (.wedge, .wblur) (by decide) c.1
      ⟨hca ▸ ha, Regs.interiorByte_range rfl (mem_wideWrites_addr hc)⟩
  rw [completed, stageConvV_writes]
  constructor
  · rw [Memory.read16, Memory.read_writeAll_append_left _ (hout ⟨lo, by omega⟩),
      Memory.read_writeAll_append_left _ (hout ⟨by omega, hi⟩), ← Memory.read16]
    exact Int.ofNat_inj.1 (half_wideWrites s.regs s.mem .wedge hx hy (by rw [edgeTrunc_eq]; omega)
      (by rw [edgeTrunc_eq]; omega))
  · rw [Memory.writeAll_append]
    exact half_wideWrites s.regs _ .wblur hx hy (by rw [blurTrunc_eq]; omega) (by rw [blurTrunc_eq]; omega)

/-- Settles O33: CONV.V's stage is the row's, its data check is that of R198, and its writes, whatever their values, are
bytes of the two interiors. -/
theorem convVWritesInteriorsOrFaultsOnLargeSamples : Obligations.ConvVWritesInteriorsOrFaultsOnLargeSamples := by
  refine ⟨rfl, by decide, fun s he => ⟨rowConvV_describes.staticFaults he, convV_result he, fun hr hlarge => ?_⟩⟩
  have hd : stageConvV.dataOk s.regs s.mem = false := Bool.eq_false_iff.2 fun h => hlarge ((wlumSmall_iff s).2 h)
  exact ⟨_, rowConvV_describes.rangeFaults he hr hd, dataFaulted_rangeFaults _ _ _,
    dataFaulted_keepsOutside (fun w hw => stageConvV_writes_interior hw) _⟩

/-! ### CONV.V after PAD.V (R138) -/

theorem padV_result {s : State} (he : s.regs.status.err = false) (hr : rowPadV.Ready s) :
    ∃ t, exec .padV s = .next t ∧ s.Completes t 0x00000025#32 ∧ s.KeepsOutside t (s.regs.interiorByte .wlum) ∧
      ∀ x y : Nat, x < s.regs.w → y < s.regs.h →
        t.mem.read16 (s.regs.waddr .wlum (x + 1) (y + 1)) = byteAt s .lum x y := by
  have hwrites : stagePadV.writes s.regs s.mem = wideWrites s.regs .wlum fun x y => (byteAt s .lum x y : Int) := by
    simp only [stagePadV, plainSample, byteAt, Regs.paddr, Regs.index, Nat.add_assoc]
  refine ⟨_, rowPadV_describes.completes he hr rfl, completed_completes _ _ _,
    completed_keepsOutside (fun c hc => mem_wideWrites_addr (hwrites ▸ hc)) _, fun x y hx hy => ?_⟩
  have hlt : byteAt s .lum x y < 2 ^ 8 := BitVec.isLt _
  rw [completed, hwrites]
  exact Int.ofNat_inj.1 (half_wideWrites s.regs s.mem .wlum hx hy (Int.natCast_nonneg _) (by omega))

/-- The border ring and the interior share no byte (R63). -/
theorem Regs.onRing.not_interiorByte {r : Regs} {X Y : Nat} (h : r.onRing X Y) (hX : X < r.w + 2) {b : Buffer} {i : Nat}
    (hi : i < 2) : ¬r.interiorByte b (r.waddr b X Y + i) := by
  rintro ⟨x, y, j, hx, hy, hj, ha⟩
  obtain ⟨rfl, rfl, -⟩ := Regs.waddr_inj hX (by omega) hi hj ha
  unfold Regs.onRing at h
  omega

theorem State.KeepsOutside.read16_ring {s t : State} {b : Buffer} (h : s.KeepsOutside t (s.regs.interiorByte b))
    {X Y : Nat} (hring : s.regs.onRing X Y) (hX : X < s.regs.w + 2) :
    t.mem.read16 (s.regs.waddr b X Y) = s.mem.read16 (s.regs.waddr b X Y) := by
  have key (i : Nat) (hi : i < 2) := h _ (hring.not_interiorByte hX hi)
  rw [Memory.read16, Memory.read16, key 1 (by decide)]
  exact congrArg (fun b : Byte => b.toNat + _) (key 0 (by decide))

/-- `t` holds in WLUM the widening of the raster of `s`: LUM's samples inside and a zero border. -/
structure Widened (s t : State) : Prop where
  samples : ∀ x y, x < s.regs.w → y < s.regs.h → t.mem.read16 (s.regs.waddr .wlum (x + 1) (y + 1)) = byteAt s .lum x y
  ring    : ∀ X Y, X < s.regs.w + 2 → Y < s.regs.h + 2 → s.regs.onRing X Y → t.mem.read16 (s.regs.waddr .wlum X Y) = 0

/-- A sample of the widening is the tap of LUM there, absent taps being 0 (R131, R138). -/
theorem Widened.read16_eq {s t : State} (h : Widened s t) {X Y : Nat} (hX : X < s.regs.w + 2) (hY : Y < s.regs.h + 2) :
    (t.mem.read16 (s.regs.waddr .wlum X Y) : Int) = lumAt s ((X : Int) - 1) ((Y : Int) - 1) := by
  by_cases hring : s.regs.onRing X Y
  · rw [h.ring X Y hX hY hring]
    unfold Regs.onRing at hring
    exact (if_neg (by omega)).symm
  · unfold Regs.onRing at hring
    obtain ⟨x, rfl⟩ := Nat.exists_eq_add_one_of_ne_zero (n := X) (by omega)
    obtain ⟨y, rfl⟩ := Nat.exists_eq_add_one_of_ne_zero (n := Y) (by omega)
    have hx : x < s.regs.w := by omega
    have hy : y < s.regs.h := by omega
    rw [h.samples x y hx hy, ← lumAt_inside s hx hy]
    push_cast
    rw [add_sub_cancel_right, add_sub_cancel_right]

/-- The tap of WLUM at a pixel or beside the raster is LUM's (R131, R138). -/
theorem Widened.wlumAt_eq {s t : State} (h : Widened s t) {c : Word} (hc : s.Completes t c) {u v : Int} (hu : -1 ≤ u)
    (hu' : u ≤ s.regs.w) (hv : -1 ≤ v) (hv' : v ≤ s.regs.h) : wlumAt t u v = lumAt s u v := by
  have haddr : wlumAt t u v = (t.mem.read16 (s.regs.waddr .wlum (u + 1).toNat (v + 1).toNat) : Int) :=
    congrArg (fun a => (t.mem.read16 a : Int)) (hc.waddr_eq ..)
  rw [haddr, h.read16_eq (by omega) (by omega), Int.toNat_of_nonneg (by omega), Int.toNat_of_nonneg (by omega),
    add_sub_cancel_right, add_sub_cancel_right]

/-- The widening of a raster of bytes passes CONV.V's data check (R198). -/
theorem Widened.wlumSmall {s t : State} (h : Widened s t) {c : Word} (hc : s.Completes t c) : WlumSmall t := by
  intro X Y hX hY
  rw [hc.1, Regs.w_cmdStatus] at hX
  rw [hc.1, Regs.h_cmdStatus] at hY
  have hval := h.read16_eq hX hY
  have hle := (lumAt_range s ((X : Int) - 1) ((Y : Int) - 1)).2
  rw [hc.waddr_eq]
  omega

/-- Settles O35: after PAD.V the raster is widened, so the nine taps of CONV.V are the in-bounds taps of CONV.I and zeros
(R138). -/
theorem convVAfterPadVEqualsConvI : Obligations.ConvVAfterPadVEqualsConvI := by
  intro s he hI hP hV hring
  obtain ⟨t, htx, htc, -, ht⟩ := convI_result he hI
  obtain ⟨p, hpx, hpc, hpk, hp⟩ := padV_result he hP
  have hpe : p.regs.status.err = false := by rw [hpc.1]; exact he
  have hwide : Widened s p := ⟨hp, fun X Y hX hY hr =>
    (hpk.read16_ring hr hX).trans (Nat.le_zero.1 (hring X Y hX hY hr))⟩
  obtain ⟨u, hux, huc, -, hu⟩ := convV_result hpe (rowConvV_describes.ready_of_completes hpc hV) (hwide.wlumSmall hpc)
  refine ⟨t, u, htx, by simp only [issueAll, hpx, hux], by rw [huc.1], fun x y hx hy => ?_⟩
  obtain ⟨hedge, hblur⟩ := ht x y hx hy
  obtain ⟨huedge, hublur⟩ := hu x y (by rw [hpc.1]; exact hx) (by rw [hpc.1]; exact hy)
  have hnear : AgreeNear (wlumAt p) (lumAt s) x y := fun u v _ _ _ _ =>
    hwide.wlumAt_eq hpc (by omega) (by omega) (by omega) (by omega)
  rw [huc.wideAt_eq, huc.wideAt_eq, htc.byteAt_eq, htc.byteAt_eq]
  constructor
  · rw [huedge, hedge, hnear.edgeSum_eq]
  · exact Int.ofNat_inj.1 (by rw [hublur, hblur, hnear.blurSum_eq])

/-! ### A constant raster inside (R141) -/

/-- Settles O36: every tap of an interior pixel is the constant, the edge weights sum to 0 and the blur weights to 16. -/
theorem constantRasterInteriorResponses : Obligations.ConstantRasterInteriorResponses := by
  refine ⟨fun s k x y hconst _ _ _ _ => ?_, fun s k x y hconst _ _ _ _ => ?_⟩
  · have hnear : AgreeNear (lumAt s) (fun _ _ => k) x y := by
      intro u v _ _ _ _
      lift u to Nat using by omega
      lift v to Nat using by omega
      rw [lumAt_inside s (by omega) (by omega), hconst u v (by omega) (by omega)]
    rw [accP_edge, accP_blur, hnear.edgeSum_eq_zero, hnear.blurSum_eq_mul, edgeRound_eq, blurRound_eq (by omega),
      edgeTrunc_eq, blurTrunc_eq]
    omega
  · have hnear : AgreeNear (wlumAt s) (fun _ _ => k) x y := by
      intro u v _ _ _ _
      lift u to Nat using by omega
      lift v to Nat using by omega
      rw [wlumAt_inside, hconst u v (by omega) (by omega)]
    rw [accW_edge, accW_blur, hnear.edgeSum_eq_zero, hnear.blurSum_eq_mul, edgeTrunc_eq, blurTrunc_eq]
    omega

end Sys2Proof.Machine
end

section
/-! PROOFS. PAD.V (spec/42_border_padder.md, R150). What a completed PAD.V leaves is stated with the convolutions
(`padV_result`), which read the raster it widens. -/

namespace Sys2Proof.Machine

/-- Settles O34: the byte offsets are R63's address formula at widths 1 and 2, the static faults are the row's, and a
completed PAD.V leaves what `padV_result` says. -/
theorem padVWidensTheInteriorOnly : Obligations.PadVWidensTheInteriorOnly := by
  refine ⟨rfl, fun r => ⟨fun hw => ?_, fun hw => ?_⟩, fun s he => ⟨rowPadV_describes.staticFaults he, padV_result he⟩⟩
  · rw [Regs.waddr, hw]
  · simp only [Regs.waddr, hw, and_self]

end Sys2Proof.Machine
end

section
/-! PROOFS. The blender (spec/43_combiner.md, R160 to R166): the binary32 blend against the exact one, what the three
commands leave, how they differ, and where LANES shows. -/

namespace Sys2Proof.Machine

/-! ### The binary32 blend (R161) -/

/-- A rounding of a value of magnitude at most `B` is finite, and off by `B·2^-23` at most (R14). -/
theorem exists_fl32_near {q B : ℚ} (h : |q| ≤ B) (h1 : 1 ≤ B) (h2 : B ≤ 2 ^ 20) :
    ∃ v, fl32 q = .fin v ∧ |v - q| ≤ B / 2 ^ 23 := by
  obtain ⟨v, hv⟩ := fl32_finite (q := q) ((h.trans h2).trans_lt (by rw [pow2_eq_zpow]; norm_num))
  refine ⟨v, hv, (fl32_error hv).trans (max_le ?_ ?_)⟩
  · rw [show pow2 (-24) = 1 / 2 ^ 24 from pow2_neg_eq 24]; linarith
  · rw [show pow2 (-150) = 1 / 2 ^ 150 from pow2_neg_eq 150]; linarith

/-- A sample scales an error by at most 255. -/
theorem abs_mul_sample_le {x d : ℚ} {k : Nat} (hx : |x| ≤ d) (hk : k ≤ 255) : |x * k| ≤ d * 255 := by
  rw [abs_mul, Nat.abs_cast]
  exact mul_le_mul hx (by exact_mod_cast hk) k.cast_nonneg ((abs_nonneg x).trans hx)

/-- The two binary32 weights of the blend are near `e/255` and its complement. -/
theorem exists_blendWeights_near {e : Nat} (he : e ≤ 255) :
    ∃ α β, fdiv (F32.ofNat e) (F32.ofNat 255) = .fin α ∧ fsub (F32.ofNat 1) (.fin α) = .fin β ∧
      |α - (e : ℚ) / 255| ≤ 1 / 2 ^ 23 ∧ |β - (1 - (e : ℚ) / 255)| ≤ 3 / 2 ^ 23 ∧ |α| ≤ 2 ∧ |β| ≤ 2 := by
  have h0 : (0 : ℚ) ≤ e := e.cast_nonneg
  have h1 : (e : ℚ) ≤ 255 := by exact_mod_cast he
  obtain ⟨α, hα, dα⟩ := exists_fl32_near (q := (e : ℚ) / 255) (B := 1)
    (abs_le.2 ⟨by linarith, by linarith⟩) le_rfl (by norm_num)
  have bα := abs_le.1 dα
  obtain ⟨β, hβ, dβ⟩ := exists_fl32_near (q := 1 - α) (B := 2)
    (abs_le.2 ⟨by linarith, by linarith⟩) (by norm_num) (by norm_num)
  have bβ := abs_le.1 dβ
  refine ⟨α, β, ?_, ?_, dα, abs_le.2 ⟨?_, ?_⟩, abs_le.2 ⟨?_, ?_⟩, abs_le.2 ⟨?_, ?_⟩⟩
  · rw [← hα]; exact fdiv_fin _ (by norm_num)
  · rw [← hβ, F32.ofNat, fsub_fin, Nat.cast_one]
  all_goals linarith

/-- The binary32 blend is finite and within `1/1000` of the exact one: five roundings, of values up to `2^10`. -/
theorem exists_blendFormula_near {e o b : Nat} (he : e ≤ 255) (ho : o ≤ 255) (hb : b ≤ 255) :
    ∃ v, blendFormula e o b = .fin v ∧ |v - (numFormula e o b : ℚ) / 255| ≤ 1 / 1000 := by
  obtain ⟨α, β, hα, hβ, dα, dβ, bα, bβ⟩ := exists_blendWeights_near he
  have bαo := abs_mul_sample_le bα ho
  have bβb := abs_mul_sample_le bβ hb
  obtain ⟨p, hp, dp⟩ := exists_fl32_near bαo (by norm_num) (by norm_num)
  obtain ⟨q, hq, dq⟩ := exists_fl32_near bβb (by norm_num) (by norm_num)
  rw [abs_le] at dp dq bαo bβb
  have bsum : |p + q| ≤ 2 ^ 10 + 1 := abs_le.2 ⟨by linarith, by linarith⟩
  obtain ⟨v, hv, dv⟩ := exists_fl32_near bsum (by norm_num) (by norm_num)
  refine ⟨v, by rw [blendFormula, hα, hβ, F32.ofNat, F32.ofNat, fmul_fin, fmul_fin, hp, hq, fadd_fin, hv], ?_⟩
  have dαo := abs_mul_sample_le dα ho
  have dβb := abs_mul_sample_le dβ hb
  have hsplit : v - (numFormula e o b : ℚ) / 255 = (v - (p + q)) + (p - α * o) + (q - β * b) +
      (α - (e : ℚ) / 255) * o + (β - (1 - (e : ℚ) / 255)) * b := by
    rw [numFormula]; push_cast; ring
  rw [abs_le] at dv dαo dβb
  rw [hsplit, abs_le]
  constructor <;> linarith

/-- No multiple of `1/255` is nearer than `1/510` to a tie, so a value within `1/1000` of one rounds alike (R161). -/
theorem rhaz_eq_of_near {v : ℚ} {n : Int} (h : |v - (n : ℚ) / 255| ≤ 1 / 1000) : rhaz v = (2 * n + 255) / 510 := by
  generalize hz : (2 * n + 255) / 510 = z
  have lo : 510 * z ≤ 2 * n + 254 := by omega
  have hi : 2 * n + 255 ≤ 510 * z + 509 := by omega
  qify at lo hi
  rw [abs_le] at h
  rw [rhaz_eq_iff]
  constructor <;> linarith

/-- Settles O38: the roundings move the blend by less than its distance from a tie. -/
theorem combABinary32EqualsExactRounding : Obligations.CombABinary32EqualsExactRounding := by
  intro e o b he ho hb
  obtain ⟨v, hv, hnear⟩ := exists_blendFormula_near he ho hb
  rw [hv, F32.val_fin]
  exact rhaz_eq_of_near hnear

/-- An integer sample is a binary32 value (R16): a natural of `n` bits, shifted to 24, is in normal form. -/
theorem fl32_natCast {k : Nat} (h : k < 2 ^ 24) : fl32 k = .fin k := by
  rcases Nat.eq_zero_or_pos k with rfl | hk
  · exact fl32_zero
  · have hlog : k.log2 < 24 := (Nat.log2_lt hk.ne').2 h
    obtain ⟨j, hj⟩ : ∃ j, k.log2 + j = 23 := ⟨23 - k.log2, by omega⟩
    have lo : 2 ^ 23 ≤ k * 2 ^ j := by
      rw [← hj, pow_add]; exact Nat.mul_le_mul_right _ (Nat.log2_self_le hk.ne')
    have hi : k * 2 ^ j < 2 ^ 24 := by
      rw [show 24 = k.log2 + 1 + j by omega, pow_add]
      exact Nat.mul_lt_mul_of_pos_right Nat.lt_log2_self (by positivity)
    have hN : Normal (k * 2 ^ j) (-j) := ⟨by omega, by omega, hi, .inr lo⟩
    refine hN.fl32_eq ?_
    rw [Nat.abs_cast, pow2_neg_eq]
    push_cast
    field_simp

/-- `alpha = 0`, `beta = 1` (R161). -/
theorem blendFormula_zero (o : Nat) {b : Nat} (hb : b ≤ 255) : blendFormula 0 o b = .fin b := by
  have hα : fdiv (F32.ofNat 0) (F32.ofNat 255) = .fin 0 := by simp [F32.ofNat, fdiv_fin]
  have hβ : fsub (F32.ofNat 1) (.fin 0) = .fin 1 := by
    rw [F32.ofNat, fsub_fin, sub_zero]; exact fl32_natCast (by norm_num)
  have hbin : fl32 b = .fin b := fl32_natCast (by omega)
  rw [blendFormula, hα, hβ]
  simp [F32.ofNat, hbin]

/-- `alpha = 1`, `beta = 0` (R161). -/
theorem blendFormula_full {o : Nat} (ho : o ≤ 255) (b : Nat) : blendFormula 255 o b = .fin o := by
  have hone : fl32 1 = .fin 1 := by simpa using fl32_natCast (k := 1) (by norm_num)
  have hα : fdiv (F32.ofNat 255) (F32.ofNat 255) = .fin 1 := by simp [F32.ofNat, fdiv_fin, hone]
  have hβ : fsub (F32.ofNat 1) (.fin 1) = .fin 0 := by simp [F32.ofNat]
  have hobin : fl32 o = .fin o := fl32_natCast (by omega)
  rw [blendFormula, hα, hβ]
  simp [F32.ofNat, hobin]

/-! ### The exact blend (R160, R166) -/

/-- `num/255` is never a tie: 255 is odd. -/
theorem div_255_not_tie (n : Int) : (n : ℚ) / 255 - (⌊(n : ℚ) / 255⌋ : ℚ) ≠ 1 / 2 := by
  intro h
  have htie : ((2 * n : Int) : ℚ) = ((255 * (2 * ⌊(n : ℚ) / 255⌋ + 1) : Int) : ℚ) := by push_cast; linarith
  have := Int.cast_injective htie
  omega

theorem blendRound_eq {e o b : Nat} (he : e ≤ 255) (ho : o ≤ 255) (hb : b ≤ 255) :
    blendRound e o b = (2 * numFormula e o b + 255) / 510 :=
  combABinary32EqualsExactRounding e o b he ho hb

theorem blendTrunc_eq (e o b : Nat) : blendTrunc e o b = numFormula e o b / 255 := rfl

/-- The shifted blend is below 255, so saturation changes nothing (R163). -/
theorem blendLane_eq {e o b : Nat} (he : e ≤ 255) (ho : o ≤ 255) (hb : b ≤ 255) :
    blendLane e o b = numFormula e o b / 256 := by
  have hrange := numFormula_range he ho hb
  have hshift : blendNum e o b >>> Config.vShift = numFormula e o b / 256 := Int.shiftRight_eq_div_pow _ 8
  rw [blendLane, hshift]
  exact sat8_of_range (by omega) (by omega)

theorem numFormula_zero (o b : Nat) : numFormula 0 o b = 255 * b := by simp [numFormula]

theorem numFormula_full (o b : Nat) : numFormula 255 o b = 255 * o := by simp [numFormula]

theorem numFormula_same (e o : Nat) : numFormula e o o = 255 * o := by rw [numFormula]; ring

/-- Settles O41: `(2·num + 255) div 510` and `num div 256` beside `num div 255`, for `num` up to `255·255`. -/
theorem combinerTiersDifferAsR164Says : Obligations.CombinerTiersDifferAsR164Says := by
  intro e o b he ho hb
  have hrange := numFormula_range he ho hb
  rw [blendRound_eq he ho hb, blendLane_eq he ho hb, blendTrunc_eq]
  omega

/-! ### COMB.A and COMB.I -/

theorem plainSample_eq_byteAt (s : State) (b : Buffer) (x y : Nat) :
    plainSample s.regs s.mem b x y = byteAt s b x y := by
  rw [plainSample, byteAt, Regs.paddr, Regs.index, Nat.add_assoc]

theorem byteAt_le (s : State) (b : Buffer) (x y : Nat) : byteAt s b x y ≤ 255 :=
  Nat.le_of_lt_succ (BitVec.isLt _)

/-- A blend of three plain rasters, samples 0..255, completes where its checks pass, writes OUT only, and leaves each
pixel's blend in its byte. -/
theorem Row.Describes.combPlainResult {w : Row} {i : Instr} {z : Nat → Nat → Nat → Int}
    (h : w.Describes i (combPlainStage z))
    (hz : ∀ {e o b}, e ≤ 255 → o ≤ 255 → b ≤ 255 → 0 ≤ z e o b ∧ z e o b ≤ 255)
    {s : State} (he : s.regs.status.err = false) (hr : w.Ready s) :
    ∃ t, exec i s = .next t ∧ s.Completes t w.word ∧ s.KeepsOutside t (s.regs.inRange .out) ∧
      ∀ x y, x < s.regs.w → y < s.regs.h →
        ((t.mem.read (s.regs.base .out + y * s.regs.w + x)).toNat : Int) =
          z (byteAt s .edge x y) (byteAt s .lum x y) (byteAt s .blur x y) := by
  refine h.plainResult he hr rfl ?_ rfl fun x y => hz (byteAt_le ..) (byteAt_le ..) (byteAt_le ..)
  simp only [combPlainStage, plainSample_eq_byteAt]

theorem blendRound_range {e o b : Nat} (he : e ≤ 255) (ho : o ≤ 255) (hb : b ≤ 255) :
    0 ≤ blendRound e o b ∧ blendRound e o b ≤ 255 := by
  have hrange := numFormula_range he ho hb
  rw [blendRound_eq he ho hb]
  omega

theorem blendTrunc_range {e o b : Nat} (he : e ≤ 255) (ho : o ≤ 255) (hb : b ≤ 255) :
    0 ≤ blendTrunc e o b ∧ blendTrunc e o b ≤ 255 := by
  have hrange := numFormula_range he ho hb
  rw [blendTrunc_eq]
  omega

/-- Settles O37: the corner cases are those of the exact blend and of the weights 0 and 1, and COMB.A's stage is the
row's. -/
theorem combAWritesTheRoundedBlend : Obligations.CombAWritesTheRoundedBlend := by
  refine ⟨rfl, fun e o b he ho hb => ⟨blendFormula_zero o hb, blendFormula_full ho b, ?_, ?_, ?_, div_255_not_tie _⟩,
    by decide, ?_, fun s hs => ⟨rowCombA_describes.staticFaults hs, fun hr => ?_⟩⟩
  · rw [combABinary32EqualsExactRounding e o o he ho ho, numFormula_same]
    omega
  · exact (blendRound_range he ho hb).1
  · exact (blendRound_range he ho hb).2
  · exact combABinary32EqualsExactRounding 68 33 76 (by decide) (by decide) (by decide)
  · obtain ⟨t, hx, hc, hk, hread⟩ := rowCombA_describes.combPlainResult blendRound_range hs hr
    refine ⟨t, hx, hc, hk, fun x y hx hy => ?_⟩
    have hbyte := congrArg (BitVec.ofInt 8) (hread x y hx hy)
    rwa [BitVec.ofInt_natCast, BitVec.ofNat_toNat, BitVec.setWidth_eq] at hbyte

/-- Settles O39: COMB.I's stage is the row's, and a multiple of 255 truncates to itself. -/
theorem combIWritesTheTruncatedBlend : Obligations.CombIWritesTheTruncatedBlend := by
  refine ⟨rfl, fun e o b he ho hb => ⟨?_, ?_, numFormula_range he ho hb⟩, by decide, by decide, ?_,
    fun s hs => ⟨rowCombI_describes.staticFaults hs, rowCombI_describes.combPlainResult blendTrunc_range hs⟩⟩
  · rw [numFormula_zero]; omega
  · rw [numFormula_full]; omega
  · exact combABinary32EqualsExactRounding 1 3 130 (by decide) (by decide) (by decide)

/-! ### COMB.V -/

/-- The blend of a column is the lane formula in the row's body and the integer one after it (R163). -/
theorem Regs.blendV_eq (r : Regs) (x : Nat) {e o b : Nat} (he : e ≤ 255) (ho : o ≤ 255) (hb : b ≤ 255) :
    r.blendV x e o b =
      if x < r.laneCount * (r.w / r.laneCount) then numFormula e o b / 256 else numFormula e o b / 255 := by
  rw [Regs.blendV, blendLane_eq he ho hb, blendTrunc_eq, Regs.laneBody]

theorem stageCombV_writes (s : State) : stageCombV.writes s.regs s.mem = plainWrites s.regs .out fun x y =>
    s.regs.blendV x (wideAt s .wedge x y) (wideAt s .wlum x y) (wideAt s .wblur x y) := rfl

theorem stageCombV_writes_out {r : Regs} {m : Memory} {c : Host.Cell} (hc : c ∈ stageCombV.writes r m) :
    r.inRange .out c.1 := by
  obtain ⟨b, hb, hr⟩ := stageCombV_sound.writes_range r m c hc
  obtain rfl := List.mem_singleton.1 hb
  exact hr

/-- Where its checks pass and the interiors are small, COMB.V completes, writes OUT only, and leaves R163's blends. -/
theorem combV_result {s : State} (he : s.regs.status.err = false) (hr : rowCombV.Ready s)
    (hsmall : InteriorSmall s .wlum ∧ InteriorSmall s .wedge ∧ InteriorSmall s .wblur) :
    ∃ t, exec .combV s = .next t ∧ s.Completes t 0x00000026#32 ∧ s.KeepsOutside t (s.regs.inRange .out) ∧
      ∀ x y : Nat, x < s.regs.w → y < s.regs.h →
        let n := numFormula (wideAt s .wedge x y) (wideAt s .wlum x y) (wideAt s .wblur x y)
        ((t.mem.read (s.regs.base .out + y * s.regs.w + x)).toNat : Int) =
          if x < s.regs.laneCount * (s.regs.w / s.regs.laneCount) then n / 256 else n / 255 := by
  refine ⟨_, rowCombV_describes.completes he hr ((interiorSmall_iff s).1 hsmall), completed_completes _ _ _,
    completed_keepsOutside (fun c hc => stageCombV_writes_out hc) _, fun x y hx hy => ?_⟩
  obtain ⟨hlum, hedge, hblur⟩ := hsmall
  have hrange := numFormula_range (hedge x y hx hy) (hlum x y hx hy) (hblur x y hx hy)
  have hblend := s.regs.blendV_eq x (hedge x y hx hy) (hlum x y hx hy) (hblur x y hx hy)
  rw [completed, stageCombV_writes]
  exact (byte_plainWrites s.regs s.mem .out hx hy (by rw [hblend]; split <;> omega)
    (by rw [hblend]; split <;> omega)).trans hblend

/-- Settles O40: COMB.V's stage is the row's, its data check is that of R198, and its writes, whatever their values, are
bytes of OUT. -/
theorem combVWritesLaneBodyThenRemainder : Obligations.CombVWritesLaneBodyThenRemainder := by
  refine ⟨rfl, fun e o b he ho hb => ?_, fun W n => ⟨fun h => ?_, Nat.mul_div_cancel'⟩, by decide, by decide, by decide,
    by decide, fun s hs => ⟨rowCombV_describes.staticFaults hs, combV_result hs, fun hr hlarge => ?_⟩⟩
  · have hrange := numFormula_range he ho hb
    rw [blendLane_eq he ho hb, blendLane_eq le_rfl ho hb, blendLane_eq (by decide) ho hb, numFormula_full,
      numFormula_zero]
    omega
  · rw [Nat.div_eq_of_lt h, Nat.mul_zero]
  · have hd : stageCombV.dataOk s.regs s.mem = false := Bool.eq_false_iff.2 fun h => hlarge ((interiorSmall_iff s).2 h)
    exact ⟨_, rowCombV_describes.rangeFaults hs hr hd, dataFaulted_rangeFaults _ _ _,
      dataFaulted_keepsOutside (fun w hw => stageCombV_writes_out hw) _⟩

/-! ### Where LANES shows (R164, R192) -/

/-- A stage finds in two register files the same operands: its checks, its data check and its writes are the same. -/
structure Stage.SameOperands (st : Stage) (r r' : Regs) : Prop where
  lanes   : st.usesLanes = true → r'.lanesOk = r.lanesOk
  dims    : r'.dimOk = r.dimOk
  weights : st.weightsOk r' = st.weightsOk r
  base    : r'.base = r.base
  stop    : r'.stop = r.stop
  dataOk  : st.dataOk r' = st.dataOk r
  writes  : st.writes r' = st.writes r

theorem Stage.SameOperands.staticFault_eq {st : Stage} {s : State} {r : Regs} (h : st.SameOperands s.regs r) :
    st.staticFault (s.withRegs r) = st.staticFault s := by
  have hlanes : (st.usesLanes && !r.lanesOk) = (st.usesLanes && !s.regs.lanesOk) := by
    cases hu : st.usesLanes with
    | false => rfl
    | true => rw [h.lanes hu]
  unfold Stage.staticFault Stage.addrOk Stage.overlapOk Stage.busOk Regs.apart
  rw [State.withRegs_regs, State.withRegs_holes, hlanes, h.dims, h.weights, h.base, h.stop]

/-- Stages that find the same operands do the same to everything but the registers, and to STATUS. -/
theorem runStages_withRegs {l : List Stage} {s : State} {r : Regs} (h : ∀ st ∈ l, st.SameOperands s.regs r)
    (hstatus : r.status = s.regs.status) :
    runStages l (s.withRegs r) = (runStages l s).withRegs { r with status := (runStages l s).regs.status } := by
  induction l generalizing s with
  | nil => simp only [runStages, State.withRegs_regs, hstatus]; rfl
  | cons st rest ih =>
    have hst := h st List.mem_cons_self
    have hperform : st.perform (s.withRegs r) = (st.perform s).withRegs r := by
      simp only [Stage.perform, State.withRegs_regs, State.withRegs_mem, hst.writes]; rfl
    have hspoil : st.spoil (s.withRegs r) = (st.spoil s).withRegs r := by
      simp only [Stage.spoil, State.withRegs_regs, State.withRegs_mem, State.withRegs_freeCount, hst.writes]; rfl
    have hraise (f : ErrCode) (t : State) (ht : t.regs.status = r.status) : raise f st.code (t.withRegs r) =
        (raise f st.code t).withRegs { r with status := (raise f st.code t).regs.status } := by
      simp only [raise_regs, ht]; rfl
    simp only [runStages, hst.staticFault_eq, hperform, hspoil, State.withRegs_regs, State.withRegs_mem, hst.dataOk]
    cases st.staticFault s with
    | some f => exact hraise f s hstatus.symm
    | none =>
      cases st.dataOk s.regs s.mem with
      | false => exact hraise .range (st.spoil s) hstatus.symm
      | true => exact ih (s := st.perform s) (fun t ht => h t (List.mem_cons_of_mem _ ht)) hstatus

/-- The registers with another LANES. -/
def Regs.withLanes (r : Regs) (n : BitVec 7) : Regs := { r with lanes := n }

/-- The stage's weight check, data check and writes do not look at LANES. -/
structure Stage.LanesUnseen (st : Stage) : Prop where
  weights : ∀ r n, st.weightsOk (r.withLanes n) = st.weightsOk r
  dataOk  : ∀ r n, st.dataOk (r.withLanes n) = st.dataOk r
  writes  : ∀ r n, st.writes (r.withLanes n) = st.writes r

theorem Stage.LanesUnseen.sameOperands {st : Stage} (h : st.LanesUnseen) {r : Regs} {n : BitVec 7}
    (hl : st.usesLanes = true → (r.withLanes n).lanesOk = r.lanesOk) : st.SameOperands r (r.withLanes n) where
  lanes := hl
  dims := rfl
  weights := h.weights r n
  base := funext fun b => by cases b <;> rfl
  stop := funext fun b => by cases b <;> rfl
  dataOk := h.dataOk r n
  writes := h.writes r n

/-- No stage but COMB.V's looks at LANES beyond ERR_CFG (R164). -/
theorem stagesOf_lanesUnseen {i : Instr} (hi : i ∉ [Instr.combV, .pipeV]) : ∀ st ∈ stagesOf i, st.LanesUnseen := by
  cases i with
  | combV | pipeV => simp at hi
  | _ =>
    simp only [stagesOf, List.forall_mem_cons, List.not_mem_nil, false_implies, implies_true, and_true]
    and_intros <;> exact ⟨fun _ _ => rfl, fun _ _ => rfl, fun _ _ => rfl⟩

theorem stagesOf_usesLanes {i : Instr} (hi : i ∉ [Instr.padV, .convV, .combV, .pipeV]) :
    ∀ st ∈ stagesOf i, st.usesLanes = false := by
  cases i with
  | padV | convV | combV | pipeV => simp at hi
  | _ => decide

/-- A command without COMB.V's stage does the same for two values of LANES between which ERR_CFG does not tell. -/
theorem exec_withLanes {i : Instr} (hi : i ∉ [Instr.combV, .pipeV]) {s t : State} {n : BitVec 7}
    (hl : ∀ st ∈ stagesOf i, st.usesLanes = true → (s.regs.withLanes n).lanesOk = s.regs.lanesOk)
    (hx : exec i s = .next t) : exec i (s.withRegs (s.regs.withLanes n)) = .next (t.withRegs (t.regs.withLanes n)) := by
  rw [exec_eq_issue] at hx ⊢
  cases he : s.regs.status.err with
  | true =>
    rw [issue_of_err _ _ he] at hx
    obtain rfl := Host.Outcome.next.inj hx
    exact issue_of_err _ _ he
  | false =>
    rw [issue_of_ready _ _ he] at hx
    obtain rfl := Host.Outcome.next.inj hx
    rw [issue_of_ready _ _ (s := s.withRegs (s.regs.withLanes n)) he]
    have hrun := runStages_withRegs (s := accept (encode i) s) (r := (accept (encode i) s).regs.withLanes n)
      (fun st hst => (stagesOf_lanesUnseen hi st hst).sameOperands (hl st hst)) rfl
    refine congrArg Host.Outcome.next (hrun.trans ?_)
    rw [(runStages_frame (stagesOf i) (accept (encode i) s)).1]
    rfl

theorem lanesOk_withLanes_of_legal {r : Regs} {n : BitVec 7} (h1 : 1 ≤ r.lanes.toNat) (h2 : r.lanes.toNat ≤ 64)
    (h3 : 1 ≤ n.toNat) (h4 : n.toNat ≤ 64) : (r.withLanes n).lanesOk = r.lanesOk :=
  ((r.withLanes n).lanesOk_iff.2 ⟨h3, h4⟩).trans (r.lanesOk_iff.2 ⟨h1, h2⟩).symm

/-- Settles O47: the stages of ten commands do not check LANES, and those of PAD.V and CONV.V only check it. -/
theorem lanesShowOnlyInCombV : Obligations.LanesShowOnlyInCombV := by
  refine fun i s n t hx => ⟨fun hi => ?_, fun hi h1 h2 h3 h4 => ?_⟩
  · have hcomb : i ∉ [Instr.combV, .pipeV] := fun h => hi (by simp at h ⊢; tauto)
    exact exec_withLanes hcomb (fun st hst hu => absurd hu (by simp [stagesOf_usesLanes hi st hst])) hx
  · have hcomb : i ∉ [Instr.combV, .pipeV] := by rcases hi with rfl | rfl <;> decide
    exact exec_withLanes hcomb (fun _ _ _ => lanesOk_withLanes_of_legal h1 h2 h3 h4) hx

end Sys2Proof.Machine
end

section
/-! PROOFS. The pipeline (spec/44_pipeline.md, R180 to R183): a PIPE command is its stage commands issued one after the
other, and completes where each of them does. -/

namespace Sys2Proof.Machine

/-! ### A list of stages cut in two -/

/-- Running stages after other stages is running them from where those ended, DONE cleared, unless one faulted. -/
theorem runStages_append (l l' : List Stage) {s : State} (he : s.regs.status.err = false)
    (hd : s.regs.status.done = false) :
    runStages (l ++ l') s =
      if (runStages l s).regs.status.err then runStages l s
      else runStages l' ((runStages l s).withStatus (runStages l s).regs.status.started) := by
  induction l generalizing s with
  | nil =>
    have hback : (runStages [] s).withStatus (runStages [] s).regs.status.started = s := by
      rw [runStages, State.withStatus_regs, Status.finished, Status.started, ← hd]; rfl
    rw [hback, if_neg (by simp [runStages, he])]; rfl
  | cons st rest ih =>
    rw [List.cons_append]
    cases hf : st.staticFault s with
    | some f => simp only [runStages, hf]; exact (if_pos rfl).symm
    | none =>
      cases hok : st.dataOk s.regs s.mem with
      | false => simp only [runStages, hf, hok]; exact (if_pos rfl).symm
      | true => simp only [runStages, hf, hok]; exact ih (s := st.perform s) he hd

/-- CMD is no operand. -/
theorem Stage.Sound.sameOperands_withCmd {st : Stage} (h : st.Sound) (r : Regs) (c : Word) :
    st.SameOperands r { r with cmd := c } where
  lanes _ := rfl
  dims := rfl
  weights := h.weights_congr r c r.status
  base := funext fun b => by cases b <;> rfl
  stop := funext fun b => by cases b <;> rfl
  dataOk := funext fun m => h.dataOk_congr r m c r.status
  writes := funext fun m => h.writes_congr r m c r.status

/-- No stage looks at CMD. -/
theorem runStages_withCmd {l : List Stage} (hl : ∀ st ∈ l, st.Sound) (c : Word) (s : State) :
    runStages l (s.withCmd c) = (runStages l s).withCmd c := by
  refine (runStages_withRegs (s := s) (r := { s.regs with cmd := c })
    (fun st hst => (hl st hst).sameOperands_withCmd s.regs c) rfl).trans ?_
  rw [State.withCmd, (runStages_frame l s).1]
  rfl

/-! ### Commands issued one after the other (R180) -/

theorem issueAll_cons_of_next {i : Instr} {s t : State} (hx : exec i s = .next t) (is : List Instr) :
    issueAll (i :: is) s = issueAll is t := by
  simp only [issueAll, hx]

/-- While ERR = 1 every command is ignored (R34). -/
theorem issueAll_of_err (is : List Instr) {s : State} (h : s.regs.status.err = true) : issueAll is s = some s := by
  induction is with
  | nil => rfl
  | cons i is ih =>
    have hx : exec i s = .next s := (exec_eq_issue i s).trans (issue_of_err _ _ h)
    exact (issueAll_cons_of_next hx is).trans ih

theorem exec_of_ready (i : Instr) {s : State} (he : s.regs.status.err = false) :
    exec i s = .next (runStages (stagesOf i) (accept (encode i) s)) :=
  (exec_eq_issue i s).trans (issue_of_ready _ _ he)

/-- Commands issued one after the other leave what the stages of all of them run as one command leave, but for CMD. -/
theorem issueAll_eq_runStages (i : Instr) (is : List Instr) (c : Word) {s : State} (he : s.regs.status.err = false) :
    ∃ t, issueAll (i :: is) s = some t ∧
      runStages ((i :: is).flatMap stagesOf) (accept c s) = t.withCmd c := by
  induction is generalizing i s with
  | nil =>
    refine ⟨_, issueAll_cons_of_next (exec_of_ready i he) [], ?_⟩
    rw [List.flatMap_singleton]
    exact runStages_withCmd (stagesOf_sound i) c (accept (encode i) s)
  | cons j js ih =>
    have hfirst : runStages (stagesOf i) (accept c s) = (runStages (stagesOf i) (accept (encode i) s)).withCmd c :=
      runStages_withCmd (stagesOf_sound i) c (accept (encode i) s)
    rw [issueAll_cons_of_next (exec_of_ready i he), List.flatMap_cons,
      runStages_append _ _ (s := accept c s) he rfl, hfirst]
    cases hu : (runStages (stagesOf i) (accept (encode i) s)).regs.status.err with
    | true => exact ⟨_, issueAll_of_err _ hu, if_pos hu⟩
    | false =>
      obtain ⟨t, ht, hrun⟩ := ih j hu
      exact ⟨t, ht, (if_neg (by simp [State.withCmd, hu])).trans hrun⟩

/-- A command whose stages are those of other commands does what those do issued one after the other, but for CMD. -/
theorem exec_of_stagesOf_eq {p i : Instr} {is : List Instr} (hp : stagesOf p = (i :: is).flatMap stagesOf) {s : State}
    (he : s.regs.status.err = false) :
    ∃ t, issueAll (i :: is) s = some t ∧ exec p s = .next (t.withCmd (encode p)) := by
  obtain ⟨t, ht, hrun⟩ := issueAll_eq_runStages i is (encode p) he
  exact ⟨t, ht, by rw [exec_of_ready p he, hp, hrun]⟩

/-- Settles O42: the stages of a PIPE command are those of its stage commands. -/
theorem pipesAreTheirStagesInSequence : Obligations.PipesAreTheirStagesInSequence :=
  ⟨rfl, rfl, rfl, fun _ he =>
    ⟨exec_of_stagesOf_eq rfl he, exec_of_stagesOf_eq rfl he, exec_of_stagesOf_eq rfl he⟩⟩

/-! ### Completion after completion -/

/-- Commands issued one after the other leave, outside memory, what one completed command leaves. -/
def State.CompletesAll (s : State) (is : List Instr) : Prop := ∃ t c, issueAll is s = some t ∧ s.Completes t c

theorem State.Completes.err_eq {s t : State} {c : Word} (h : s.Completes t c) :
    t.regs.status.err = s.regs.status.err := by
  rw [h.1]

theorem State.Completes.trans {s t u : State} {c d : Word} (h : s.Completes t c) (h' : t.Completes u d) :
    s.Completes u d := by
  obtain ⟨hregs, hholes, hhost, hreplies, hfree⟩ := h
  obtain ⟨hregs', hholes', hhost', hreplies', hfree'⟩ := h'
  exact ⟨by rw [hregs', hregs], hholes'.trans hholes,
    hhost'.trans hhost, hreplies'.trans hreplies, hfree'.trans hfree⟩

theorem State.Completes.withCmd {s t : State} {c : Word} (h : s.Completes t c) (d : Word) :
    s.Completes (t.withCmd d) d := by
  obtain ⟨hregs, hrest⟩ := h
  exact ⟨by rw [State.withCmd, hregs], hrest⟩

theorem State.CompletesAll.single {s t : State} {i : Instr} {c : Word} (hx : exec i s = .next t)
    (hc : s.Completes t c) : s.CompletesAll [i] := ⟨t, c, issueAll_cons_of_next hx [], hc⟩

theorem State.CompletesAll.cons {s t : State} {i : Instr} {is : List Instr} {c : Word} (hx : exec i s = .next t)
    (hc : s.Completes t c) (h : t.CompletesAll is) : s.CompletesAll (i :: is) := by
  obtain ⟨u, d, hu, hd⟩ := h
  exact ⟨u, d, (issueAll_cons_of_next hx is).trans hu, hc.trans hd⟩

/-- A PIPE command completes where its stage commands do. -/
theorem State.CompletesAll.pipe {s : State} {i : Instr} {is : List Instr} (h : s.CompletesAll (i :: is))
    (he : s.regs.status.err = false) {p : Instr} (hp : stagesOf p = (i :: is).flatMap stagesOf) :
    ∃ t, exec p s = .next t ∧ s.Completes t (encode p) := by
  obtain ⟨u, c, hu, hc⟩ := h
  obtain ⟨t, ht, hx⟩ := exec_of_stagesOf_eq hp he
  obtain rfl := Option.some.inj (hu.symm.trans ht)
  exact ⟨_, hx, hc.withCmd _⟩

/-! ### PIPE.A and PIPE.I (R181, R182) -/

/-- The command is ready and checks no data: it completes. -/
def State.ReadyForAnyData (s : State) (i : Instr) : Prop :=
  ∃ w st, Row.Describes w i st ∧ w.Ready s ∧ ∀ r m, st.dataOk r m = true

/-- Commands that are ready and check no data complete one after the other: none unmakes what the next one checks. -/
theorem completesAll_of_readyForAnyData {i : Instr} {is : List Instr} {s : State} (he : s.regs.status.err = false)
    (h : ∀ j ∈ i :: is, s.ReadyForAnyData j) : s.CompletesAll (i :: is) := by
  induction is generalizing i s with
  | nil =>
    obtain ⟨w, st, hw, hr, hd⟩ := h i List.mem_cons_self
    exact .single (hw.completes he hr (hd _ _)) (completed_completes _ _ _)
  | cons j js ih =>
    obtain ⟨⟨w, st, hw, hr, hd⟩, hrest⟩ := List.forall_mem_cons.1 h
    refine .cons (hw.completes he hr (hd _ _)) (completed_completes _ _ _) (ih he fun k hk => ?_)
    obtain ⟨v, su, hv, hvr, hvd⟩ := hrest k hk
    exact ⟨v, su, hv, hv.ready_of_completes (completed_completes st w.word s) hvr, hvd⟩

theorem pipeA_completesAll {s : State} (he : s.regs.status.err = false) (hgray : rowGrayA.Ready s)
    (hedge : rowEdgeA.Ready s) (hblur : rowBlurA.Ready s) (hcomb : rowCombA.Ready s) :
    s.CompletesAll [.grayA, .edgeA, .blurA, .combA] := by
  refine completesAll_of_readyForAnyData he ?_
  simp only [List.forall_mem_cons, List.not_mem_nil, false_implies, implies_true, and_true]
  exact ⟨⟨_, _, rowGrayA_describes, hgray, fun _ _ => rfl⟩, ⟨_, _, rowEdgeA_describes, hedge, fun _ _ => rfl⟩,
    ⟨_, _, rowBlurA_describes, hblur, fun _ _ => rfl⟩, ⟨_, _, rowCombA_describes, hcomb, fun _ _ => rfl⟩⟩

theorem pipeI_completesAll {s : State} (he : s.regs.status.err = false) (hgray : rowGrayI.Ready s)
    (hconv : rowConvI.Ready s) (hcomb : rowCombI.Ready s) : s.CompletesAll [.grayI, .convI, .combI] := by
  refine completesAll_of_readyForAnyData he ?_
  simp only [List.forall_mem_cons, List.not_mem_nil, false_implies, implies_true, and_true]
  exact ⟨⟨_, _, rowGrayI_describes, hgray, fun _ _ => rfl⟩, ⟨_, _, rowConvI_describes, hconv, fun _ _ => rfl⟩,
    ⟨_, _, rowCombI_describes, hcomb, fun _ _ => rfl⟩⟩

/-! ### PIPE.V (R183) -/

/-- Where WLUM reads as before, its border does. -/
theorem RingAtMost.of_agreeOn {s t : State} {n : Nat} (h : RingAtMost s n) {c : Word} (hc : s.Completes t c)
    (hagree : s.regs.AgreeOn t.mem s.mem .wlum) : RingAtMost t n := by
  intro X Y hX hY hring
  rw [hc.waddr_eq]
  rw [hc.1] at hX hY hring
  exact (hagree.wideSample_eq rfl hX hY).trans_le (h X Y hX hY hring)

/-- A raster of bytes inside a border of samples up to 255 passes CONV.V's data check (R198). -/
theorem wlumSmall_of_padded {s t : State} {c : Word} (hc : s.Completes t c)
    (hkeep : s.KeepsOutside t (s.regs.interiorByte .wlum))
    (hpad : ∀ x y : Nat, x < s.regs.w → y < s.regs.h →
      t.mem.read16 (s.regs.waddr .wlum (x + 1) (y + 1)) = byteAt s .lum x y)
    (hring : RingAtMost s 255) : WlumSmall t := by
  intro X Y hX hY
  rw [hc.1, Regs.w_cmdStatus] at hX
  rw [hc.1, Regs.h_cmdStatus] at hY
  rw [hc.waddr_eq]
  by_cases h : s.regs.onRing X Y
  · exact (hkeep.read16_ring h hX).trans_le (hring X Y hX hY h)
  · unfold Regs.onRing at h
    obtain ⟨x, rfl⟩ := Nat.exists_eq_add_one_of_ne_zero (n := X) (by omega)
    obtain ⟨y, rfl⟩ := Nat.exists_eq_add_one_of_ne_zero (n := Y) (by omega)
    exact (hpad x y (by omega) (by omega)).trans_le (byteAt_le s .lum x y)

/-- Around a pixel a small WLUM is a raster of samples 0..255. -/
theorem WlumSmall.agreeNear {s : State} (h : WlumSmall s) {x y : Nat} (hx : x < s.regs.w) (hy : y < s.regs.h) :
    AgreeNear (wlumAt s) (fun u v => min (wlumAt s u v) 255) x y := by
  intro u v _ _ _ _
  have htap : wlumAt s u v ≤ 255 := Int.ofNat_le.2 (h (u + 1).toNat (v + 1).toNat (by omega) (by omega))
  exact (min_eq_left htap).symm

/-- The responses to samples 0..255 are such samples again (R140). -/
theorem WlumSmall.responses_le {s : State} (h : WlumSmall s) {x y : Nat} (hx : x < s.regs.w) (hy : y < s.regs.h) :
    (edgeSum (wlumAt s) x y).natAbs / 4 ≤ 255 ∧ blurSum (wlumAt s) x y / 16 ≤ 255 := by
  have hnear := h.agreeNear hx hy
  have hrange (u v : Int) : 0 ≤ min (wlumAt s u v) 255 ∧ min (wlumAt s u v) 255 ≤ 255 :=
    ⟨le_min (wlumAt_range s u v).1 (by decide), min_le_right _ _⟩
  have hedge := edgeSum_natAbs_le hrange x y
  have hblur := blurSum_between hrange x y
  rw [hnear.edgeSum_eq, hnear.blurSum_eq]
  omega

/-- CONV.V on a small WLUM leaves COMB.V small samples: the two responses, and WLUM as it was (R140, R198). -/
theorem interiorSmall_of_convolved {s t : State} {c : Word} (hc : s.Completes t c) (hr : rowConvV.Ready s)
    (hkeep : s.KeepsOutside t (fun a => s.regs.interiorByte .wedge a ∨ s.regs.interiorByte .wblur a))
    (hconv : ∀ x y : Nat, x < s.regs.w → y < s.regs.h →
      t.mem.read16 (s.regs.waddr .wedge (x + 1) (y + 1)) = (edgeSum (wlumAt s) x y).natAbs / 4 ∧
      (t.mem.read16 (s.regs.waddr .wblur (x + 1) (y + 1)) : Int) = blurSum (wlumAt s) x y / 16)
    (hsmall : WlumSmall s) : InteriorSmall t .wlum ∧ InteriorSmall t .wedge ∧ InteriorSmall t .wblur := by
  obtain ⟨-, -, -, -, hapart, -⟩ := hr
  have hagree : s.regs.AgreeOn t.mem s.mem .wlum := fun a ha => hkeep a fun hdest => hdest.elim
    (fun hedge => hapart (.wlum, .wedge) (by decide) a ⟨ha, Regs.interiorByte_range rfl hedge⟩)
    (fun hblur => hapart (.wlum, .wblur) (by decide) a ⟨ha, Regs.interiorByte_range rfl hblur⟩)
  have hof {b : Buffer} (h : ∀ x y, x < s.regs.w → y < s.regs.h →
      t.mem.read16 (s.regs.waddr b (x + 1) (y + 1)) ≤ 255) : InteriorSmall t b := by
    intro x y hx hy
    rw [hc.1] at hx hy
    rw [hc.wideAt_eq]
    exact h x y hx hy
  refine ⟨hof fun x y hx hy => ?_, hof fun x y hx hy => ?_, hof fun x y hx hy => ?_⟩
  · exact (hagree.interior_eq rfl hx hy).trans_le (hsmall (x + 1) (y + 1) (by omega) (by omega))
  · exact (hconv x y hx hy).1.trans_le (hsmall.responses_le hx hy).1
  · exact Int.ofNat_le.1 ((hconv x y hx hy).2.trans_le (hsmall.responses_le hx hy).2)

theorem pipeV_completesAll {s : State} (he : s.regs.status.err = false) (hgray : rowGrayV.Ready s)
    (hpad : rowPadV.Ready s) (hconv : rowConvV.Ready s) (hcomb : rowCombV.Ready s) (hring : RingAtMost s 255) :
    s.CompletesAll [.grayV, .padV, .convV, .combV] := by
  obtain ⟨g, hgx, hgc, hgk, -⟩ := rowGrayV_describes.grayResult he hgray
  have hge := hgc.err_eq.trans he
  have hgring : RingAtMost g 255 := by
    obtain ⟨-, -, -, -, hapart, -⟩ := hpad
    exact hring.of_agreeOn hgc fun a ha => hgk a fun hlum => hapart (.lum, .wlum) (by decide) a ⟨hlum, ha⟩
  obtain ⟨p, hpx, hpc, hpk, hpw⟩ := padV_result hge (rowPadV_describes.ready_of_completes hgc hpad)
  have hsmall := wlumSmall_of_padded hpc hpk hpw hgring
  have hpe := hpc.err_eq.trans hge
  have hpr := rowConvV_describes.ready_of_completes (hgc.trans hpc) hconv
  obtain ⟨v, hvx, hvc, hvk, hvw⟩ := convV_result hpe hpr hsmall
  obtain ⟨u, hux, huc, -⟩ := combV_result (hvc.err_eq.trans hpe)
    (rowCombV_describes.ready_of_completes ((hgc.trans hpc).trans hvc) hcomb)
    (interiorSmall_of_convolved hvc hpr hvk hvw hsmall)
  exact .cons hgx hgc (.cons hpx hpc (.cons hvx hvc (.single hux huc)))

/-- Settles O43: the stage commands complete one after the other, so the PIPE command does (R180). -/
theorem pipesCompleteWhenEveryStageIsReady : Obligations.PipesCompleteWhenEveryStageIsReady := fun _ he =>
  ⟨fun hgray hedge hblur hcomb => (pipeA_completesAll he hgray hedge hblur hcomb).pipe he rfl,
    fun hgray hconv hcomb => (pipeI_completesAll he hgray hconv hcomb).pipe he rfl,
    fun hgray hpad hconv hcomb hring => (pipeV_completesAll he hgray hpad hconv hcomb hring).pipe he rfl⟩

end Sys2Proof.Machine
end

section
/-! PROOFS. Faults and what survives them (spec/60_exceptions.md): a command always answers, a recorded fault stays
until it is acknowledged (R203), only GRAY stages look at the weights (R194), and a well-formed script never stops (R201). -/

namespace Sys2Proof.Machine

/-! ### Commands answer (R201) -/

/-- Settles O44: a command is ignored or runs its stages, and either answers a next state. -/
theorem everyCommandAnswersANextState : Obligations.EveryCommandAnswersANextState := by
  intro i s
  rcases exec_cases i s with ⟨-, hx⟩ | ⟨-, hx⟩
  · exact ⟨s, hx⟩
  · exact ⟨_, hx⟩

/-! ### A recorded fault stays (R202, R203) -/

theorem Regs.write_status_of_ne (r : Regs) {n : Reg} (hn : n ≠ .status) (v : Word) :
    (r.write n v).status = r.status := by
  cases n with
  | status => exact absurd rfl hn
  | _ => rfl

/-- The write that acknowledges (R202). -/
theorem Status.writeW1C_of_set (t : Status) {v : Word} (hv : v.getLsbD 1 = true) :
    t.writeW1C v = ⟨if v.getLsbD 0 then false else t.done, false, 0, 0⟩ := by
  simp only [writeW1C, hv, if_true]

/-- With bit 1 clear only DONE can change (R35). -/
theorem Status.writeW1C_of_clear (t : Status) {v : Word} (hv : v.getLsbD 1 = false) :
    t.writeW1C v = { t with done := if v.getLsbD 0 then false else t.done } := by
  simp only [writeW1C, hv, Bool.false_eq_true, if_false]

/-- With ERR = 1 only a STATUS write and the reset change STATUS: every command is ignored (R34). -/
theorem perform_status_of_err {op : HostOp} {s t : State} (he : s.regs.status.err = true)
    (ht : perform op s = .next t) :
    t.regs.status = s.regs.status ∨
    (∃ v, op = .regWrite 2 v ∧ t.regs.status = s.regs.status.writeW1C v ∧ t.mem = s.mem) ∨
    (op = .reset ∧ t.regs.status = Status.reset ∧ t.mem = s.mem) := by
  rcases perform_cases op s with ⟨hx, -⟩ | ⟨p, hx⟩ | ⟨k, n, v, hk, -, hop, hx⟩ | ⟨-, -, -, -, hx⟩ | ⟨-, w, -, -, hx⟩ |
    ⟨a, bs, -, -, hx⟩ | ⟨hop, hx⟩ <;> rw [hx] at ht
  · cases ht
  · cases ht; exact .inl rfl
  · cases ht
    by_cases hn : n = .status
    · subst hn
      obtain rfl : k = 2 := regAt_eq_some.1 hk
      exact .inr (.inl ⟨v, hop, rfl, rfl⟩)
    · exact .inl (s.regs.write_status_of_ne hn v)
  · cases ht; exact .inl rfl
  · rw [writeCmd_of_err w he] at ht
    cases ht; exact .inl rfl
  · cases ht; exact .inl rfl
  · cases ht; exact .inr (.inr ⟨hop, rfl, rfl⟩)

/-- Settles O11: of the lines that change STATUS while ERR = 1, the write clears the fault by its bit 1 only, and the
reset clears it. -/
theorem faultStaysUntilAcknowledged : Obligations.FaultStaysUntilAcknowledged := by
  intro s t he ht
  rcases step_cases s with ⟨-, hx⟩ | ⟨op, ops, h, hx⟩
  · obtain rfl := Host.Outcome.next.inj (hx.symm.trans ht)
    exact .inl ⟨he, rfl, rfl⟩
  · rcases perform_status_of_err (s := s.withHost ops) he (hx.symm.trans ht) with
      hst | ⟨v, rfl, hst, hmem⟩ | ⟨rfl, hst, hmem⟩
    · rw [hst]; exact .inl ⟨he, rfl, rfl⟩
    · cases hv : v.getLsbD 1 with
      | true => rw [hst, Status.writeW1C_of_set _ hv]; exact .inr (.inl ⟨v, ops, h, hv, rfl, rfl, rfl, hmem⟩)
      | false => rw [hst, Status.writeW1C_of_clear _ hv]; exact .inl ⟨he, rfl, rfl⟩
    · rw [hst]; exact .inr (.inr ⟨ops, h, rfl, hmem⟩)

/-! ### Where the weights show (R194) -/

/-- The operands stay the same when a command's acceptance and its faults change CMD and STATUS (R95). -/
theorem Stage.SameOperands.withCmdStatus {st : Stage} {r r' : Regs} (h : st.SameOperands r r') (hs : st.Sound)
    (c : Word) (u : Status) : st.SameOperands { r with cmd := c, status := u } { r' with cmd := c, status := u } where
  lanes := h.lanes
  dims := h.dims
  weights := (hs.weights_congr r' c u).trans (h.weights.trans (hs.weights_congr r c u).symm)
  base := h.base
  stop := h.stop
  dataOk := funext fun m =>
    (hs.dataOk_congr r' m c u).trans ((congrFun h.dataOk m).trans (hs.dataOk_congr r m c u).symm)
  writes := funext fun m =>
    (hs.writes_congr r' m c u).trans ((congrFun h.writes m).trans (hs.writes_congr r m c u).symm)

/-- A command whose stages find the same operands in other registers does the same there. -/
theorem exec_withRegs {i : Instr} {s t : State} {r : Regs} (hr : ∀ st ∈ stagesOf i, st.SameOperands s.regs r)
    (hcmd : r.cmd = s.regs.cmd) (hstatus : r.status = s.regs.status) (hx : exec i s = .next t) :
    exec i (s.withRegs r) = .next (t.withRegs { r with cmd := t.regs.cmd, status := t.regs.status }) := by
  rcases exec_cases i s with ⟨he, hs⟩ | ⟨he, hs⟩ <;> obtain rfl := Host.Outcome.next.inj (hs.symm.trans hx)
  · rw [exec_eq_issue, ← hcmd, ← hstatus]
    exact issue_of_err _ _ ((congrArg Status.err hstatus).trans he)
  · have haccept : accept (encode i) (s.withRegs r) =
        (accept (encode i) s).withRegs { r with cmd := encode i, status := s.regs.status.started } := by
      rw [accept, State.withRegs_regs, hstatus]; rfl
    have hrun := runStages_withRegs (s := accept (encode i) s)
      (fun st hst => (hr st hst).withCmdStatus (stagesOf_sound i st hst) (encode i) s.regs.status.started) rfl
    rw [exec_of_ready i (s := s.withRegs r) ((congrArg Status.err hstatus).trans he), haccept, hrun, runStages_cmd]
    rfl

/-- The registers with other weights. -/
def Regs.withWeights (r : Regs) (wr wg wb : Word) : Regs := { r with wgtR := wr, wgtG := wg, wgtB := wb }

/-- A stage other than a GRAY stage finds the same operands whatever the weights are (R79, R194). -/
theorem stagesOf_sameOperands_withWeights {i : Instr}
    (hi : i ∉ [Instr.grayA, .grayI, .grayV, .pipeA, .pipeI, .pipeV]) (r : Regs) (wr wg wb : Word) :
    ∀ st ∈ stagesOf i, st.SameOperands r (r.withWeights wr wg wb) := by
  have hbase : (r.withWeights wr wg wb).base = r.base := funext fun b => by cases b <;> rfl
  have hstop : (r.withWeights wr wg wb).stop = r.stop := funext fun b => by cases b <;> rfl
  cases i with
  | grayA | grayI | grayV | pipeA | pipeI | pipeV => simp at hi
  | _ => exact List.forall_mem_singleton.2 ⟨fun _ => rfl, rfl, rfl, hbase, hstop, rfl, rfl⟩

/-- Settles O46: the stages of these commands find their operands outside the weights, and a command changes no register
but CMD and STATUS (R41). -/
theorem onlyGrayCommandsReadTheWeights : Obligations.OnlyGrayCommandsReadTheWeights := by
  intro i s wr wg wb hi t hx
  obtain ⟨hregs, -⟩ := commandsWriteOnlyStatusCmdAndDestinations i s t hx
  refine (exec_withRegs (stagesOf_sameOperands_withWeights hi s.regs wr wg wb) rfl rfl hx).trans ?_
  rw [hregs]
  rfl

/-! ### A well-formed script (R60, R201) -/

theorem writeCmd_host {c : Word} {s t : State} (ht : writeCmd c s = .next t) : t.host = s.host := by
  rcases writeCmd_cases c s with ⟨-, hx⟩ | ⟨-, -, hx⟩ | ⟨-, i, -, hx⟩ <;>
    obtain rfl := Host.Outcome.next.inj (hx.symm.trans ht)
  · rfl
  · rfl
  · obtain ⟨-, -, hhost, -⟩ := runStages_frame (stagesOf i) (accept (encode i) s)
    exact hhost

/-- No line adds to the script or takes from it. -/
theorem perform_host {op : HostOp} {s t : State} (ht : perform op s = .next t) : t.host = s.host := by
  rcases perform_cases op s with ⟨hx, -⟩ | ⟨p, hx⟩ | ⟨-, n, v, -, -, -, hx⟩ | ⟨-, -, -, -, hx⟩ | ⟨-, w, -, -, hx⟩ |
    ⟨a, bs, -, -, hx⟩ | ⟨-, hx⟩ <;> rw [hx] at ht
  · cases ht
  · cases ht; rfl
  · cases ht; rfl
  · cases ht; rfl
  · exact writeCmd_host ht
  · cases ht; rfl
  · cases ht; rfl

theorem State.scriptOk_cons {s : State} {op : HostOp} {ops : List HostOp} (h : s.host = op :: ops) :
    s.scriptOk = true ↔ op.wellFormed = true ∧ (s.withHost ops).scriptOk = true := by
  simp only [scriptOk, h, List.all_cons, Bool.and_eq_true, withHost_host]

theorem step_of_scriptOk {s : State} (hs : s.scriptOk = true) : ∃ t, step s = .next t ∧ t.scriptOk = true := by
  rcases step_cases s with ⟨-, hx⟩ | ⟨op, ops, h, hx⟩
  · exact ⟨s, hx, hs⟩
  · obtain ⟨hop, hops⟩ := (State.scriptOk_cons h).1 hs
    obtain ⟨t, ht⟩ := perform_of_wellFormed hop (s.withHost ops)
    exact ⟨t, hx.trans ht, (congrArg (List.all · HostOp.wellFormed) (perform_host ht)).trans hops⟩

/-- Settles O51, by induction on the number of steps. -/
theorem wellFormedScriptsNeverStop : Obligations.WellFormedScriptsNeverStop := by
  intro k
  induction k with
  | zero => exact fun s hs => ⟨s, rfl, hs⟩
  | succ k ih =>
    intro s hs
    obtain ⟨t, ht, hok⟩ := step_of_scriptOk hs
    obtain ⟨u, hu, huok⟩ := ih t hok
    exact ⟨u, (run_of_step core ht k).trans hu, huok⟩

end Sys2Proof.Machine
end
